-- ==== Sys2Proof/Word.lean ====
section
/-! DEFINITION. The three word sizes of the machine (00_scope.md R6, 10_state.md R21, R22). -/

namespace Sys2Proof

/-- A byte: special function registers, bytes of code and data memory. -/
abbrev Byte := BitVec 8

/-- A word of 16 bits: the PSW, stack pointers, stack slots, halves of a vector (R6). -/
abbrev Word := BitVec 16

/-- A code address, 24 bits (10_state.md R21, 20_memory.md R70). -/
abbrev CodeAddr := BitVec 24

end Sys2Proof
end

