-- ==== Sys2Proof/Machine/Bits.lean ====
section
/-! DEFINITION. Bytes of a word (00_scope.md R6) and the Page 0 address. -/

namespace Sys2Proof.Machine

/-- Bits 15 to 8 of a word. -/
def hiByte (w : Word) : Byte := w.extractLsb' 8 8

/-- Bits 7 to 0 of a word. -/
def loByte (w : Word) : Byte := w.extractLsb' 0 8

/-- The word hi : lo. -/
def mkWord (hi lo : Byte) : Word := hi ++ lo

/-- The address 00h : a of Page 0 of code memory, zext_24 of R7. -/
def page0 (a : Word) : CodeAddr := a.setWidth 24

/-- PC[15:0] of a code address. -/
def addrLow (a : CodeAddr) : Word := a.extractLsb' 0 16

/-- PC[23:16] of a code address. -/
def addrHigh (a : CodeAddr) : Byte := a.extractLsb' 16 8

/-- The code address hi : lo. -/
def mkAddr (hi : Byte) (lo : Word) : CodeAddr := hi ++ lo

/-- Whether a word is odd. -/
def isOdd (w : Word) : Bool := w.getLsbD 0

/-- The byte with bit n alone set. -/
def bitMask (n : Nat) : Byte := 1#8 <<< n

end Sys2Proof.Machine
end

