-- ==== Sys2Proof/Syntax.lean ====
section
/-! DEFINITION. The instructions, one constructor for each row of spec/opcode_table.json, the names of the
special function registers (10_state.md R47) and of their bits. -/

namespace Sys2Proof

/-- The nine instructions AN713 names (30_encoding.md R100, R105), with the operand fields of R106. -/
inductive Instr where
  /-- NOP (41_sfr_access_instructions.md R124). -/
  | nop
  /-- BKPT (40_interrupt_instructions.md R112). -/
  | bkpt
  /-- TRAP #n (R110): the operand is the 4-bit trap number (D24). -/
  | trap (n : BitVec 4)
  /-- RESET (R113). -/
  | reset
  /-- RETI (R111). -/
  | reti
  /-- CLR bit (R123): the operand is the 10-bit bit address. -/
  | clr (b : BitVec 10)
  /-- SETB bit (R122): the operand is the 10-bit bit address. -/
  | setb (b : BitVec 10)
  /-- MOV.B direct, #data8 (R120): the 11-bit direct address and the byte. -/
  | movb (addr : BitVec 11) (data : Byte)
  /-- OR.B direct, #data8 (R121): the 11-bit direct address and the byte. -/
  | orb (addr : BitVec 11) (data : Byte)
deriving DecidableEq, Repr

/-- The special function registers (10_state.md R47). -/
inductive Sfr where
  | pswl | pswh
  | tcon | t2con | t2mod
  | s0con | s0stat | s1con | s1stat
  | iel | ieh
  | swr | scr | swe
  | ipa0 | ipa1 | ipa2 | ipa3 | ipa4 | ipa5
deriving DecidableEq, Repr

/-- The bits of the special function registers the spec names (10_state.md R23, R32, R35, R36, R41 to R46). A serial
port's bits carry its number. -/
inductive BitName where
  | sm | tm | rs1 | rs0 | im3 | im2 | im1 | im0
  | pz | cm | pt1 | pt0
  | ea | et2 | et1 | ex1 | et0 | ex0
  | eti1 | eri1 | eti0 | eri0
  | swr1 | swr2 | swr3 | swr4 | swr5 | swr6 | swr7
  | swe1 | swe2 | swe3 | swe4 | swe5 | swe6 | swe7
  | tf1 | tr1 | tf0 | tr0 | ie1 | it1 | ie0 | it0
  | tf2 | exf2 | rclk0 | tclk0 | exen2 | tr2 | ct2 | cprl2
  | rclk1 | tclk1
  | sm00 | sm10 | sm20 | ren0 | tb80 | rb80 | ti0 | ri0
  | sm01 | sm11 | sm21 | ren1 | tb81 | rb81 | ti1 | ri1
  | fe0 | br0 | oe0 | stint0
  | fe1 | br1 | oe1 | stint1
deriving DecidableEq, Repr

end Sys2Proof
end

