-- ==== Sys2Proof/Config.lean ====
section
/-! DEFINITION. The implementation parameters of 00_scope.md R5, the free values, and the default configuration.
A configuration is plain data; the machine carries one in its state and no step changes it (assumption log 14). -/

namespace Sys2Proof

/-- DERIVATIVE (00_scope.md R2, R5): the generic XA family or its first derivative. -/
inductive Derivative where
  | family
  | g3
deriving DecidableEq, Repr

/-- The exceptions, by the names of 00_scope.md R9. -/
inductive Exc where
  | reset
  | breakpoint
  | trace
  | stackOverflow
  | divideByZero
  | userReti
  | nmi
deriving DecidableEq, Repr

/-- USER_PSWH_WRITE (10_state.md R28, 92_eei_decisions.md D12; log 16): what a User Mode write that would change
a protected PSWH bit does besides leaving that bit as it is. -/
inductive UserPswhWrite where
  /-- The suggested default: no exception. -/
  | ignore
  /-- The write raises this exception of the closed list. -/
  | exception (e : Exc)
  /-- A fault outside the closed list of exceptions (95_test_vectors.md V68): the model stops. -/
  | fault
deriving DecidableEq, Repr

/-- STACK_OVF (60_exceptions.md R144, D14; log 17): when a push raises StackOverflow. -/
inductive StackOvf where
  /-- The default predicate: the push takes the pointer from 0080h or above to below 0080h. -/
  | crossing
  /-- Any other predicate of the pointer before and after the push, left free (`Config.stackOvfOther`). -/
  | other (k : Nat)
deriving DecidableEq, Repr

/-- What TRACE_POINT is asked about. -/
inductive Completed where
  /-- An instruction of these bytes. -/
  | instruction (bytes : List Byte)
  /-- An interrupt sequence at a boundary. -/
  | sequence
deriving DecidableEq, Repr

/-- TRACE_POINT (60_exceptions.md R143, D20; log 18): when a Trace exception is raised. -/
inductive TracePoint where
  /-- The default reading: an instruction that begins with TM = 1 raises Trace when it completes. -/
  | beginsTraced
  /-- Any other point while TM = 1, of an instruction or an interrupt sequence, left free (`Config.traceOther`). -/
  | other (k : Nat)
deriving DecidableEq, Repr

/-- ACCEPT_DELAY (92_eei_decisions.md D23; log 19): whether one more instruction runs before a maskable interrupt
is accepted after RETI or after a write to the PSW, IE, IPA, SWR or SWE. -/
inductive AcceptDelay where
  | none
  | oneInstruction
deriving DecidableEq, Repr

/-- What a reset leaves in the registers whose reset value 10_state.md R54 calls unspecified (D16; log 13). -/
structure ResetImage where
  scr : Byte
  swr : Byte
  swe : Byte
  tcon : Byte
  t2con : Byte
  t2mod : Byte
  s0con : Byte
  s0stat : Byte
  s1con : Byte
  s1stat : Byte
  regs : List (Nat × Nat)
  ds : Nat
deriving DecidableEq, Repr

/-- SFR_ADDR (00_scope.md R5, D36; log 25): a register whose address the source does not print, at an address other
than the one of general knowledge. -/
structure AddrMove where
  reg : Sfr
  addr : BitVec 11
deriving DecidableEq, Repr

/-- SFR_BITS (00_scope.md R5, D37; log 25): a named bit whose place the source does not fix, at a place other than the
one of general knowledge. -/
structure BitMove where
  bit : BitName
  /-- In the other register of its pair, for a bit the source leaves to two registers (10_state.md R35, R36, R44). -/
  otherReg : Bool
  pos : Fin 8
deriving DecidableEq, Repr

/-- The length of the instructions, other than the nine, that begin with these bytes: the first one or two bytes of an
instruction decide its length (30_encoding.md R108; log 42). -/
structure LengthRow where
  first : Byte
  /-- none where the first byte alone decides. -/
  second : Option Byte
  length : Nat
deriving DecidableEq, Repr

/-- The parameters of 00_scope.md R5 that are not fixed by DERIVATIVE alone. -/
structure Config where
  derivative : Derivative
  /-- Whether the XA-G3 has IPA3 (10_state.md R38, R39; log 43); the family has it. -/
  ipa3Present : Bool
  /-- SFR_ADDR: the registers that are not at the general-knowledge address of 10_state.md R47. -/
  addrMoves : List AddrMove
  /-- SFR_BITS: the bits that are not at the general-knowledge place of 10_state.md R23 to R46. -/
  bitMoves : List BitMove
  /-- The lengths of the instructions supplied from elsewhere. -/
  lengths : List LengthRow
  /-- SWI_PRESENT of the family; the XA-G3 has software interrupts whatever this says. -/
  swiPresent : Bool
  /-- SP_RESET (D15). -/
  spReset : Word
  /-- EA_GATES_SWI (D8). -/
  eaGatesSwi : Bool
  userPswhWrite : UserPswhWrite
  stackOvf : StackOvf
  tracePoint : TracePoint
  acceptDelay : AcceptDelay
  image : ResetImage
deriving DecidableEq, Repr

/-- Free values: uninterpreted bytes, one for each number (log 15). -/
opaque Config.freeByte : Nat → Byte

/-- Free values of a general register, whose width the spec does not give (log 29). -/
opaque Config.freeValue : Nat → Nat

/-- Free values of a stack pointer (log 29). -/
opaque Config.freeWord : Nat → Word

/-- The uninterpreted STACK_OVF predicates: whether the pointer is the system one, its value before and after. -/
opaque Config.stackOvfOther : Nat → Bool → Word → Word → Bool

/-- The uninterpreted TRACE_POINT predicates: what has completed, PSWH before and after it. -/
opaque Config.traceOther : Nat → Completed → Byte → Byte → Bool

/-- The registers' values from general knowledge (93_implementation_defined.md G4, G8, G13; log 11). -/
def ResetImage.zero : ResetImage :=
  { scr := 0, swr := 0, swe := 0, tcon := 0, t2con := 0, t2mod := 0,
    s0con := 0, s0stat := 0, s1con := 0, s1stat := 0, regs := [], ds := 0 }

/-- The XA-G3 with every OPEN parameter at the default 92_eei_decisions.md suggests (log 14). -/
def Config.g3Default : Config :=
  { derivative := .g3, ipa3Present := false, addrMoves := [], bitMoves := [], lengths := [],
    swiPresent := true, spReset := 0x0100, eaGatesSwi := false, userPswhWrite := .ignore,
    stackOvf := .crossing, tracePoint := .beginsTraced, acceptDelay := .none, image := ResetImage.zero }

/-- The family configuration with the same defaults. -/
def Config.familyDefault : Config := { Config.g3Default with derivative := .family }

end Sys2Proof
end

