-- ==== Sys2Proof/Machine/SfrMap.lean ====
section
/-! DEFINITION. SFR_ADDR and SFR_BITS (00_scope.md R5): the addresses of the special function registers, the places
of their named bits and the bits that are storage. What the source fixes is fixed here; the addresses and places marked
G in 10_state.md are PRESUMED defaults of the configuration (log 25). The machine reaches every bit by its name. -/

namespace Sys2Proof.Machine

/-! ### SFR_ADDR -/

/-- The registers in the order of the table of 10_state.md R47. -/
def allSfrs : List Sfr :=
  [.pswl, .pswh, .tcon, .t2con, .t2mod, .s0con, .s0stat, .s1con, .s1stat, .iel, .ieh,
   .swr, .scr, .swe, .ipa0, .ipa1, .ipa2, .ipa3, .ipa4, .ipa5]

/-- The direct addresses of the table of 10_state.md R47. -/
def familyAddr : Sfr → BitVec 11
  | .pswl => 0x400#11
  | .pswh => 0x401#11
  | .tcon => 0x410#11
  | .t2con => 0x418#11
  | .t2mod => 0x419#11
  | .s0con => 0x420#11
  | .s0stat => 0x421#11
  | .s1con => 0x424#11
  | .s1stat => 0x425#11
  | .iel => 0x426#11
  | .ieh => 0x427#11
  | .swr => 0x42A#11
  | .scr => 0x440#11
  | .swe => 0x47A#11
  | .ipa0 => 0x4A0#11
  | .ipa1 => 0x4A1#11
  | .ipa2 => 0x4A2#11
  | .ipa3 => 0x4A3#11
  | .ipa4 => 0x4A4#11
  | .ipa5 => 0x4A5#11

/-- Whether the source prints the address (column "from" of 10_state.md R47). -/
def addrPrinted : Sfr → Bool
  | .pswh | .tcon | .t2con | .s0con | .iel | .ieh | .swr | .swe => true
  | _ => false

/-- The direct address of a register: the source's, or the configuration's (10_state.md R47, D36). -/
def sfrAddr (c : Config) (r : Sfr) : BitVec 11 :=
  match addrPrinted r with
  | true => familyAddr r
  | false =>
    match c.addrMoves.find? fun m => m.reg == r with
    | some m => m.addr
    | none => familyAddr r

/-- The register a direct address names, if it names one (R47, 30_encoding.md R106). -/
def sfrAt (c : Config) (a : BitVec 11) : Option Sfr := allSfrs.find? fun r => sfrAddr c r == a

/-- Whether single bits of the register can be addressed (10_state.md R47). -/
def bitAddressable : Sfr → Bool
  | .scr | .swe | .ipa0 | .ipa1 | .ipa2 | .ipa3 | .ipa4 | .ipa5 => false
  | _ => true

/-- The bit address of bit n of a bit-addressable register: 200h + 8 (A - 400h) + n (20_memory.md R86). -/
def bitAddr (c : Config) (r : Sfr) (n : Nat) : BitVec 10 :=
  BitVec.ofNat 10 (0x200 + 8 * ((sfrAddr c r).toNat - 0x400) + n)

/-- The direct address of the byte a bit address lies in (20_memory.md R86). -/
def bitByte (b : BitVec 10) : BitVec 11 := BitVec.ofNat 11 (0x400 + (b.toNat - 0x200) / 8)

/-- The register and bit number a bit address names, if it names a bit of a bit-addressable register of R47. -/
def bitAt (c : Config) (b : BitVec 10) : Option (Sfr × Nat) :=
  if b.toNat < 0x200 then none
  else
    match sfrAt c (bitByte b) with
    | some r => if bitAddressable r then some (r, b.toNat % 8) else none
    | none => none

/-! ### SFR_BITS -/

/-- The places of the tables of 10_state.md R23 to R46. -/
def familyPlace : BitName → Sfr × Nat
  | .sm => (.pswh, 7)
  | .tm => (.pswh, 6)
  | .rs1 => (.pswh, 5)
  | .rs0 => (.pswh, 4)
  | .im3 => (.pswh, 3)
  | .im2 => (.pswh, 2)
  | .im1 => (.pswh, 1)
  | .im0 => (.pswh, 0)
  | .pz => (.scr, 0)
  | .cm => (.scr, 1)
  | .pt1 => (.scr, 3)
  | .pt0 => (.scr, 2)
  | .ea => (.iel, 7)
  | .et2 => (.iel, 4)
  | .et1 => (.iel, 3)
  | .ex1 => (.iel, 2)
  | .et0 => (.iel, 1)
  | .ex0 => (.iel, 0)
  | .eti1 => (.ieh, 3)
  | .eri1 => (.ieh, 2)
  | .eti0 => (.ieh, 1)
  | .eri0 => (.ieh, 0)
  | .swr1 => (.swr, 0)
  | .swr2 => (.swr, 1)
  | .swr3 => (.swr, 2)
  | .swr4 => (.swr, 3)
  | .swr5 => (.swr, 4)
  | .swr6 => (.swr, 5)
  | .swr7 => (.swr, 6)
  | .swe1 => (.swe, 0)
  | .swe2 => (.swe, 1)
  | .swe3 => (.swe, 2)
  | .swe4 => (.swe, 3)
  | .swe5 => (.swe, 4)
  | .swe6 => (.swe, 5)
  | .swe7 => (.swe, 6)
  | .tf1 => (.tcon, 7)
  | .tr1 => (.tcon, 6)
  | .tf0 => (.tcon, 5)
  | .tr0 => (.tcon, 4)
  | .ie1 => (.tcon, 3)
  | .it1 => (.tcon, 2)
  | .ie0 => (.tcon, 1)
  | .it0 => (.tcon, 0)
  | .tf2 => (.t2con, 7)
  | .exf2 => (.t2con, 6)
  | .rclk0 => (.t2con, 5)
  | .tclk0 => (.t2con, 4)
  | .exen2 => (.t2con, 3)
  | .tr2 => (.t2con, 2)
  | .ct2 => (.t2con, 1)
  | .cprl2 => (.t2con, 0)
  | .rclk1 => (.t2mod, 5)
  | .tclk1 => (.t2mod, 4)
  | .sm00 => (.s0con, 7)
  | .sm10 => (.s0con, 6)
  | .sm20 => (.s0con, 5)
  | .ren0 => (.s0con, 4)
  | .tb80 => (.s0con, 3)
  | .rb80 => (.s0con, 2)
  | .ti0 => (.s0con, 1)
  | .ri0 => (.s0con, 0)
  | .sm01 => (.s1con, 7)
  | .sm11 => (.s1con, 6)
  | .sm21 => (.s1con, 5)
  | .ren1 => (.s1con, 4)
  | .tb81 => (.s1con, 3)
  | .rb81 => (.s1con, 2)
  | .ti1 => (.s1con, 1)
  | .ri1 => (.s1con, 0)
  | .fe0 => (.s0stat, 3)
  | .br0 => (.s0stat, 2)
  | .oe0 => (.s0stat, 1)
  | .stint0 => (.s0stat, 0)
  | .fe1 => (.s1stat, 3)
  | .br1 => (.s1stat, 2)
  | .oe1 => (.s1stat, 1)
  | .stint1 => (.s1stat, 0)

/-- Whether the source fixes the place (the S rows of 10_state.md R23, R41, R42). -/
def placeFixed : BitName → Bool
  | .sm | .im3 | .im2 | .im1 | .im0 => true
  | .swr1 | .swr2 | .swr3 | .swr4 | .swr5 | .swr6 | .swr7 => true
  | .swe1 | .swe2 | .swe3 | .swe4 | .swe5 | .swe6 | .swe7 => true
  | _ => false

/-- Whether the source leaves open which of two registers holds the bit: an individual enable is in IEL or IEH (R35,
R181), a clock select or the external enable of Timer 2 in T2CON or T2MOD (R44). -/
def twoHomes : BitName → Bool
  | .et2 | .et1 | .ex1 | .et0 | .ex0 | .eti1 | .eri1 | .eti0 | .eri0 => true
  | .rclk0 | .tclk0 | .rclk1 | .tclk1 | .exen2 => true
  | _ => false

/-- The other register of a pair. -/
def pairedReg : Sfr → Sfr
  | .iel => .ieh
  | .ieh => .iel
  | .t2con => .t2mod
  | .t2mod => .t2con
  | r => r

/-- Where the configuration moves the bit, if the source lets it. -/
def moveOf (c : Config) (b : BitName) : Option BitMove :=
  match placeFixed b with
  | true => none
  | false => c.bitMoves.find? fun m => m.bit == b

/-- The register that holds a named bit. -/
def bitReg (c : Config) (b : BitName) : Sfr :=
  match twoHomes b with
  | false => (familyPlace b).1
  | true =>
    match moveOf c b with
    | some m => if m.otherReg then pairedReg (familyPlace b).1 else (familyPlace b).1
    | none => (familyPlace b).1

/-- The number of a named bit in its register. -/
def bitPos (c : Config) (b : BitName) : Nat :=
  match moveOf c b with
  | some m => m.pos.val
  | none => (familyPlace b).2

/-- The register and bit number of a named bit. -/
def bitPlace (c : Config) (b : BitName) : Sfr × Nat := (bitReg c b, bitPos c b)

/-- Every named bit. -/
def allBits : List BitName :=
  [.sm, .tm, .rs1, .rs0, .im3, .im2, .im1, .im0, .pz, .cm, .pt1, .pt0, .ea, .et2, .et1, .ex1, .et0, .ex0,
   .eti1, .eri1, .eti0, .eri0, .swr1, .swr2, .swr3, .swr4, .swr5, .swr6, .swr7, .swe1, .swe2, .swe3, .swe4,
   .swe5, .swe6, .swe7, .tf1, .tr1, .tf0, .tr0, .ie1, .it1, .ie0, .it0, .tf2, .exf2, .rclk0, .tclk0, .exen2,
   .tr2, .ct2, .cprl2, .rclk1, .tclk1, .sm00, .sm10, .sm20, .ren0, .tb80, .rb80, .ti0, .ri0, .sm01, .sm11,
   .sm21, .ren1, .tb81, .rb81, .ti1, .ri1, .fe0, .br0, .oe0, .stint0, .fe1, .br1, .oe1, .stint1]

/-- A map a chip can have: no two bits at one place, no two registers at one address, every register in the space of
the special function registers and the bit-addressable ones in the part that bit addresses reach (30_encoding.md R106;
20_memory.md R86). -/
def mapWf (c : Config) : Bool :=
  decide (allBits.map (bitPlace c)).Nodup && decide (allSfrs.map (sfrAddr c)).Nodup &&
    allSfrs.all fun r =>
      decide (0x400 ≤ (sfrAddr c r).toNat) && (!bitAddressable r || decide ((sfrAddr c r).toNat < 0x440))

/-! ### Storage -/

/-- Whether the derivative has IPA3: the family has, the XA-G3 as configured (10_state.md R38; log 43). -/
def ipa3Present (c : Config) : Bool :=
  match c.derivative with
  | .family => true
  | .g3 => c.ipa3Present

/-- The bits of an IPA register that are storage: on the XA-G3 all but the top bit of each nibble (10_state.md R39). -/
def ipaMask (c : Config) : Byte :=
  match c.derivative with
  | .g3 => 0x77#8
  | .family => 0xFF#8

/-- The bits of a register that hold a named bit. -/
def namedMask (c : Config) (r : Sfr) : Byte :=
  allBits.foldl (fun m b => if bitReg c b = r then m ||| bitMask (bitPos c b) else m) 0#8

/-- The bits of a register that are storage: all but those that hold no named field (10_state.md R35, R36, R39, R41,
R42, R47; 92_eei_decisions.md D28; log 26). PSWL and the IPA registers have no named bits; an absent IPA3 stores
nothing. -/
def implMask (c : Config) (r : Sfr) : Byte :=
  match r with
  | .pswl | .pswh => 0xFF#8
  | .swr | .swe => 0x7F#8
  | .ipa0 | .ipa1 | .ipa2 | .ipa4 | .ipa5 => ipaMask c
  | .ipa3 => if ipa3Present c then ipaMask c else 0x00#8
  | r => namedMask c r

/-- The bits of a register that read as any value (10_state.md R47, D28; log 26): those that are not storage, but for
the IPA bits of the XA-G3 that read 0 (R39). -/
def openMask (c : Config) (r : Sfr) : Byte :=
  match r with
  | .ipa0 | .ipa1 | .ipa2 | .ipa4 | .ipa5 => 0x00#8
  | .ipa3 => if ipa3Present c then 0x00#8 else 0xFF#8
  | r => ~~~ implMask c r

/-- The bits of PSWH that are RS1 and RS0: the only ones code in User Mode may modify (10_state.md R23, R28). -/
def rsMask (c : Config) : Byte := bitMask (bitPos c .rs1) ||| bitMask (bitPos c .rs0)

end Sys2Proof.Machine
end

