-- ==== Sys2Proof/Machine/State.lean ====
section
/-! DEFINITION. The state of the machine (10_state.md R20), plain data, and the state after reset. -/

namespace Sys2Proof.Machine

/-- Sparse contents by address, in one canonical form (Memory.wf in Machine/Ops.lean): code and data memory hold
bytes (Host.Cell), the general registers hold numbers. -/
abbrev Memory (α : Type) := List (Nat × α)

/-- The special function registers but PSWH and PSWL, which are the two halves of the PSW (10_state.md R47). -/
structure Sfrs where
  tcon : Byte
  t2con : Byte
  t2mod : Byte
  s0con : Byte
  s0stat : Byte
  s1con : Byte
  s1stat : Byte
  iel : Byte
  ieh : Byte
  swr : Byte
  scr : Byte
  swe : Byte
  ipa0 : Byte
  ipa1 : Byte
  ipa2 : Byte
  ipa3 : Byte
  ipa4 : Byte
  ipa5 : Byte
deriving DecidableEq, Repr

/-- The pending-exception set, a subset of the seven names (10_state.md R48). -/
structure Pending where
  reset : Bool
  breakpoint : Bool
  trace : Bool
  stackOverflow : Bool
  divideByZero : Bool
  userReti : Bool
  nmi : Bool
deriving DecidableEq, Repr

/-- The empty set. -/
def Pending.empty : Pending :=
  { reset := false, breakpoint := false, trace := false, stackOverflow := false,
    divideByZero := false, userReti := false, nmi := false }

/-- One of two like devices: external interrupts 0 and 1, timers 0 and 1, serial ports 0 and 1. -/
inductive Unit2 where
  | u0
  | u1
deriving DecidableEq, Repr

/-- The environment's moves (00_scope.md R12). -/
inductive EnvMove where
  | rstRelease
  | watchdogReset
  | extDetect (n : Unit2)
  | timerOverflow (n : Unit2)
  | timer2Overflow
  | t2exFall
  | serialRx (p : Unit2)
  | serialTx (p : Unit2)
  | serialStatus (p : Unit2)
  | nmiAssert
  | hwBreakpoint
deriving DecidableEq, Repr

/-- A stack as an instruction names it (10_state.md R31; log 29). -/
inductive StackName where
  /-- The stack of the mode: System in System Mode, user in User Mode. -/
  | current
  | system
  | user
deriving DecidableEq, Repr

/-- What one execution of an instruction AN713 does not name does, supplied from elsewhere (00_scope.md R4(a);
92_eei_decisions.md D35; log 28, log 29). -/
structure OpaqueStep where
  /-- The byte string this is a meaning of: 1 to 6 bytes (30_encoding.md R108), its length the instruction's. -/
  bytes : List Byte
  /-- Where a branch goes; none for the next instruction (10_state.md R21(d)). -/
  target : Option CodeAddr
  /-- General registers written. -/
  regs : List (Nat × Nat)
  /-- The Data Segment register, if written (10_state.md R33). -/
  ds : Option Nat
  /-- Bytes of data memory written. -/
  stores : List (Word × Byte)
  /-- Special function registers written, each through SfrWrite. -/
  sfrs : List (Sfr × Byte)
  /-- New values of stack pointers (a pop, a return, a move), before the pushes (10_state.md R31). -/
  sps : List (StackName × Word)
  /-- Words pushed (R31). -/
  pushes : List (StackName × Word)
  /-- For an instruction of DIV_INSTRS, its divisor (40_interrupt_instructions.md R114). -/
  divisor : Option Nat
deriving DecidableEq, Repr

/-- The state. The fields up to data are the spec's (10_state.md R20); cfg and the last four are the model's own. -/
structure State where
  /-- The implementation parameters (00_scope.md R5; log 14). -/
  cfg : Config
  /-- Program counter (10_state.md R21). -/
  pc : CodeAddr
  /-- PSW[15:8]: SM, TM, RS1, RS0, IM3 to IM0 (R22, R23). -/
  pswh : Byte
  /-- PSW[7:0]: the status flags (R29). -/
  pswl : Byte
  /-- System stack pointer (R31). -/
  ssp : Word
  /-- User stack pointer (R31). -/
  usp : Word
  /-- General registers, which only opaque steps reach (R30). -/
  regs : Memory Nat
  /-- Data Segment register (R33). -/
  ds : Nat
  /-- The special function registers but PSWH and PSWL (R47). -/
  sfr : Sfrs
  /-- The pending-exception set (R48). -/
  pending : Pending
  /-- Code memory (20_memory.md R70). -/
  code : List Host.Cell
  /-- Data memory (20_memory.md R77). -/
  data : List Host.Cell
  /-- The environment's moves before each of the coming CPU steps (00_scope.md R12; log 23). -/
  inputs : List (List EnvMove)
  /-- The opaque steps supplied from elsewhere, in order of execution (D35; log 28). -/
  supplied : List OpaqueStep
  /-- The ACCEPT_DELAY shadow: no maskable interrupt is accepted at the coming boundary (D23; log 19). -/
  hold : Bool
  /-- The number of the next free value (log 15). -/
  freeCtr : Nat
deriving DecidableEq, Repr

/-- Why the machine stops with a fault. -/
inductive Fault where
  /-- Raised by an instruction's write to PSWH in User Mode that would change a protected bit, when the parameter
  USER_PSWH_WRITE is `fault`: the source lists no exception for it (10_state.md R28, 95_test_vectors.md V68). Safe. -/
  | protectedPswhWrite
deriving DecidableEq, Repr

/-- Why the model gives a step no meaning. Every one is safe: nothing can be proved about runs through it. -/
inductive Refusal where
  /-- Raised by an arm of exec that has no meaning yet. -/
  | notModelled (mnemonic : String)
  /-- Raised by MOV.B and OR.B when the direct address names no register of 10_state.md R47 (D35, U27). -/
  | directNotSfr
  /-- Raised by SETB and CLR when the bit address names no bit of a bit-addressable register (D35, U27). -/
  | bitNotSfr
  /-- Raised by step when the bytes at the pc are none of the nine named instructions and no opaque step is
  supplied for them (30_encoding.md R107, D35, U27). -/
  | notNamed
  /-- Raised by RESET in User Mode (40_interrupt_instructions.md R113, D34, U28). -/
  | resetInUserMode
  /-- Raised by an interrupt sequence or RETI when the System Stack pointer is odd (20_memory.md R79, D3, U12). -/
  | oddStackPointer
  /-- Raised by an interrupt sequence or reset when the vector's address word is odd (20_memory.md R84, D18, U10). -/
  | oddVectorTarget
deriving DecidableEq, Repr

/-- The state after the Reset exception (10_state.md R54) in the default configuration: PSW and pc from the reset
vector 8F00h, 0120h of 70_reset_and_hazards.md R224 (log 9), the stack pointers at SP_RESET, EA, every enable and every
IPA register 0, the other registers at the values of log 11, nothing pending, both memories with nothing listed. -/
def State.reset : State :=
  { cfg := Config.g3Default
    pc := 0x000120
    pswh := 0x8F
    pswl := 0x00
    ssp := 0x0100
    usp := 0x0100
    regs := []
    ds := 0
    sfr :=
      { tcon := 0, t2con := 0, t2mod := 0, s0con := 0, s0stat := 0, s1con := 0, s1stat := 0,
        iel := 0, ieh := 0, swr := 0, scr := 0, swe := 0,
        ipa0 := 0, ipa1 := 0, ipa2 := 0, ipa3 := 0, ipa4 := 0, ipa5 := 0 }
    pending := Pending.empty
    code := []
    data := []
    inputs := []
    supplied := []
    hold := false
    freeCtr := 0 }

end Sys2Proof.Machine
end

