-- ==== Sys2Proof/Machine/SfrFile.lean ====
section
/-! DEFINITION. The stored contents of the special function registers, by register and by named bit. -/

namespace Sys2Proof.Machine

/-- `SFR[name]` (10_state.md R47). PSWH and PSWL are the two halves of the PSW (R22). -/
def sfrGet (r : Sfr) (s : State) : Byte :=
  match r with
  | .pswl => s.pswl
  | .pswh => s.pswh
  | .tcon => s.sfr.tcon
  | .t2con => s.sfr.t2con
  | .t2mod => s.sfr.t2mod
  | .s0con => s.sfr.s0con
  | .s0stat => s.sfr.s0stat
  | .s1con => s.sfr.s1con
  | .s1stat => s.sfr.s1stat
  | .iel => s.sfr.iel
  | .ieh => s.sfr.ieh
  | .swr => s.sfr.swr
  | .scr => s.sfr.scr
  | .swe => s.sfr.swe
  | .ipa0 => s.sfr.ipa0
  | .ipa1 => s.sfr.ipa1
  | .ipa2 => s.sfr.ipa2
  | .ipa3 => s.sfr.ipa3
  | .ipa4 => s.sfr.ipa4
  | .ipa5 => s.sfr.ipa5

/-- Store a byte in a register, every bit of it. Instructions write through sfrWrite (Machine/Operands.lean). -/
def sfrPut (r : Sfr) (v : Byte) (s : State) : State :=
  match r with
  | .pswl => { s with pswl := v }
  | .pswh => { s with pswh := v }
  | .tcon => { s with sfr := { s.sfr with tcon := v } }
  | .t2con => { s with sfr := { s.sfr with t2con := v } }
  | .t2mod => { s with sfr := { s.sfr with t2mod := v } }
  | .s0con => { s with sfr := { s.sfr with s0con := v } }
  | .s0stat => { s with sfr := { s.sfr with s0stat := v } }
  | .s1con => { s with sfr := { s.sfr with s1con := v } }
  | .s1stat => { s with sfr := { s.sfr with s1stat := v } }
  | .iel => { s with sfr := { s.sfr with iel := v } }
  | .ieh => { s with sfr := { s.sfr with ieh := v } }
  | .swr => { s with sfr := { s.sfr with swr := v } }
  | .scr => { s with sfr := { s.sfr with scr := v } }
  | .swe => { s with sfr := { s.sfr with swe := v } }
  | .ipa0 => { s with sfr := { s.sfr with ipa0 := v } }
  | .ipa1 => { s with sfr := { s.sfr with ipa1 := v } }
  | .ipa2 => { s with sfr := { s.sfr with ipa2 := v } }
  | .ipa3 => { s with sfr := { s.sfr with ipa3 := v } }
  | .ipa4 => { s with sfr := { s.sfr with ipa4 := v } }
  | .ipa5 => { s with sfr := { s.sfr with ipa5 := v } }

/-- The bits of a register that are storage in this machine's configuration (10_state.md R39, R47). -/
def sfrMask (r : Sfr) (s : State) : Byte := implMask s.cfg r

/-- A byte an instruction has read from a register, or computed from one bit by bit: what the stored bits made of it
and what the other bits did, kept apart for the write that ignores the others. -/
structure ReadByte where
  stored : Byte
  other : Byte
deriving DecidableEq, Repr

/-- The byte itself. -/
def ReadByte.byte (x : ReadByte) : Byte := x.stored ||| x.other

/-- The byte with the bits of d set. -/
def ReadByte.set (x : ReadByte) (d : Byte) : ReadByte := { stored := x.stored ||| d, other := x.other ||| d }

/-- The byte with the bits of d cleared. -/
def ReadByte.clear (x : ReadByte) (d : Byte) : ReadByte := { stored := x.stored &&& ~~~ d, other := x.other &&& ~~~ d }

/-- The byte an instruction reads from a register: the stored bits, and any value in the bits that hold no named field
(10_state.md R47, D28; log 26). The free byte is the one State numbers next; `useFree` passes it. -/
def sfrRead (r : Sfr) (s : State) : ReadByte :=
  { stored := sfrGet r s, other := Config.freeByte s.freeCtr &&& openMask s.cfg r }

/-- The next free value is used. -/
def useFree (s : State) : State := { s with freeCtr := s.freeCtr + 1 }

/-- A named bit. -/
def bitOf (b : BitName) (s : State) : Bool := (sfrGet (bitReg s.cfg b) s).getLsbD (bitPos s.cfg b)

/-- Set a named bit to 1: what the hardware does to a request flag. -/
def raiseBit (b : BitName) (s : State) : State :=
  sfrPut (bitReg s.cfg b) (sfrGet (bitReg s.cfg b) s ||| bitMask (bitPos s.cfg b)) s

/-- Clear a named bit to 0. -/
def clearBit (b : BitName) (s : State) : State :=
  sfrPut (bitReg s.cfg b) (sfrGet (bitReg s.cfg b) s &&& ~~~ bitMask (bitPos s.cfg b)) s

end Sys2Proof.Machine
end

