-- ==== Sys2Proof/Machine/Flags.lean ====
section
/-! DEFINITION. The flags of the PSW (10_state.md R22 to R29), Page 0 Mode (R32), and the free value of the status
flags. -/

namespace Sys2Proof.Machine

/-- The PSW as one word, PSWH : PSWL (10_state.md R22). -/
def psw (s : State) : Word := mkWord s.pswh s.pswl

/-- Replace all 16 bits of the PSW (R22): an interrupt sequence, RETI and reset do. -/
def setPsw (w : Word) (s : State) : State := { s with pswh := hiByte w, pswl := loByte w }

/-- SM: 1 is System Mode, 0 is User Mode (R24). -/
def systemMode (s : State) : Bool := bitOf .sm s

/-- TM: Trace Mode is active (R25). -/
def traceMode (s : State) : Bool := bitOf .tm s

/-- RS1 : RS0, the register bank (R26). -/
def registerBank (s : State) : Nat := 2 * (bitOf .rs1 s).toNat + (bitOf .rs0 s).toNat

/-- IM3 to IM0, the Interrupt Mask or Execution Priority, 0 to 15 (R27). -/
def intMask (s : State) : Nat :=
  8 * (bitOf .im3 s).toNat + 4 * (bitOf .im2 s).toNat + 2 * (bitOf .im1 s).toNat + (bitOf .im0 s).toNat

/-- PZ: Page 0 Mode is selected (R32). -/
def page0Mode (s : State) : Bool := bitOf .pz s

/-- The status flags hold any value (41_sfr_access_instructions.md R120; U25; log 15): PSWL takes the next free byte. -/
def freeFlags (s : State) : State :=
  { s with pswl := Config.freeByte s.freeCtr, freeCtr := s.freeCtr + 1 }

end Sys2Proof.Machine
end

