-- ==== Sys2Proof/Machine/Ops.lean ====
section
/-! DEFINITION. The operations over memory, the program counter, the stacks and the pending set; the interrupt sequence
(60_exceptions.md R133), its return (40_interrupt_instructions.md R111) and reset (70_reset_and_hazards.md R220). -/

namespace Sys2Proof.Machine

/-! ### Sequencing -/

/-- Continue with f where o answers a next state; a fault or a refusal stands. -/
def andThen (o : Host.Outcome State Fault Refusal) (f : State → Host.Outcome State Fault Refusal) :
    Host.Outcome State Fault Refusal :=
  match o with
  | .next s => f s
  | .fault r => .fault r
  | .refused r => .refused r

/-! ### Sparse contents -/

/-- What address a holds; an unlisted address holds `fill a`. The addresses rise, so the search ends beyond a. -/
def Memory.read {α : Type} (fill : Nat → α) : Memory α → Nat → α
  | [], a => fill a
  | (k, v) :: m, a => if a = k then v else if a < k then fill a else Memory.read fill m a

/-- Store v at address a and keep the canonical form: an address that holds what it reads as unlisted is not listed.
(The entries dropped with one that is removed are those out of order after it, which no read sees; a list in canonical
form has none.) -/
def Memory.write {α : Type} [DecidableEq α] (fill : Nat → α) : Memory α → Nat → α → Memory α
  | [], a, v => if v = fill a then [] else [(a, v)]
  | (k, w) :: m, a, v =>
    if a < k then (if v = fill a then (k, w) :: m else (a, v) :: (k, w) :: m)
    else if a = k then (if v = fill a then m.dropWhile (fun c => decide (c.1 ≤ a)) else (a, v) :: m)
    else (k, w) :: Memory.write fill m a v

/-- The canonical form from address lo up: addresses strictly rising, no entry equal to what an unlisted address
reads as. -/
def Memory.wfFrom {α : Type} [DecidableEq α] (fill : Nat → α) : Nat → Memory α → Bool
  | _, [] => true
  | lo, (k, v) :: m => decide (lo ≤ k) && decide (v ≠ fill k) && Memory.wfFrom fill (k + 1) m

/-- The canonical form. -/
def Memory.wf {α : Type} [DecidableEq α] (fill : Nat → α) (m : Memory α) : Bool := Memory.wfFrom fill 0 m

/-- Every listed address is below the bound: the contents lie inside the address space. -/
def Memory.within {α : Type} (bound : Nat) (m : Memory α) : Bool := m.all fun c => decide (c.1 < bound)

/-- What a byte of code memory that no program image lists reads as (log 9): the reset vector holds the words 8F00h
and 0120h of 70_reset_and_hazards.md R224, every other byte is 00h. -/
def codeFill (a : Nat) : Byte :=
  match a with
  | 1 => 0x8F#8
  | 2 => 0x20#8
  | 3 => 0x01#8
  | _ => 0x00#8

/-- What a byte of data memory that nothing has written reads as (log 10). -/
def dataFill (_ : Nat) : Byte := 0x00#8

/-- What a general register that nothing has written reads as (log 11). -/
def regFill (_ : Nat) : Nat := 0

/-! ### Code memory -/

/-- `Code[a]` (20_memory.md R76). -/
def codeByte (s : State) (a : CodeAddr) : Byte := Memory.read codeFill s.code a.toNat

/-- `CodeRead16(a)` of Page 0: little-endian (R75, R76; log 1). -/
def codeRead16 (s : State) (a : Word) : Word := mkWord (codeByte s (page0 a + 1#24)) (codeByte s (page0 a))

/-- The program image is loaded from outside: store a byte of code memory (log 12). No instruction does. -/
def codePut (a : CodeAddr) (v : Byte) (s : State) : State :=
  { s with code := Memory.write codeFill s.code a.toNat v }

/-! ### Data memory and general registers -/

/-- `Data[a]` (20_memory.md R77). -/
def dataByte (s : State) (a : Word) : Byte := Memory.read dataFill s.data a.toNat

/-- Store one byte of data memory. The source says nothing of an overlap with the special function registers or the
general registers (10_state.md R53); DESIGN CHOICE: there is none, a store changes data memory alone (log 44). -/
def dataPut (a : Word) (v : Byte) (s : State) : State :=
  { s with data := Memory.write dataFill s.data a.toNat v }

/-- `MemRead(a, 2)` (R77). -/
def memRead16 (s : State) (a : Word) : Word := mkWord (dataByte s (a + 1#16)) (dataByte s a)

/-- `MemWrite(a, 2, v)` (R77). -/
def memWrite16 (a v : Word) (s : State) : State := dataPut (a + 1#16) (hiByte v) (dataPut a (loByte v) s)

/-- x[i] (00_scope.md R8, 10_state.md R30). Which registers RS1 : RS0 bank is not in the source (10_state.md R26);
DESIGN CHOICE: x[i] depends on i alone, so a change of RS1 : RS0 changes no x[i] (log 46). -/
def regGet (s : State) (i : Nat) : Nat := Memory.read regFill s.regs i

/-- x[i] <- v. That the current stack pointer is general register R7 is general knowledge only (10_state.md R31), which
91_not_in_source.md N15 says not to assume; DESIGN CHOICE: no x[i] is a stack pointer, and a write of x[7] leaves SSP
and USP as they are (log 45). -/
def regPut (i v : Nat) (s : State) : State := { s with regs := Memory.write regFill s.regs i v }

/-! ### Program counter -/

/-- A code address of the current mode: in Page 0 Mode bits 23 to 16 are held at 00h (10_state.md R21, D26; log 32). -/
def modeAddr (s : State) (a : CodeAddr) : CodeAddr := if page0Mode s then page0 (addrLow a) else a

/-- `pc <- a`. -/
def setPc (a : CodeAddr) (s : State) : State := { s with pc := modeAddr s a }

/-- `next`: the address of the instruction that follows one of n bytes at the pc (40_interrupt_instructions.md). -/
def nextPc (s : State) (n : Nat) : CodeAddr := modeAddr s (s.pc + BitVec.ofNat 24 n)

/-- The n bytes of code memory from the pc on. -/
def fetchBytes (s : State) (n : Nat) : List Byte := (List.range n).map fun k => codeByte s (nextPc s k)

/-! ### The pending-exception set -/

/-- Whether the set holds e (10_state.md R48). -/
def Pending.has (p : Pending) : Exc → Bool
  | .reset => p.reset
  | .breakpoint => p.breakpoint
  | .trace => p.trace
  | .stackOverflow => p.stackOverflow
  | .divideByZero => p.divideByZero
  | .userReti => p.userReti
  | .nmi => p.nmi

/-- The set with e added. -/
def Pending.add (p : Pending) : Exc → Pending
  | .reset => { p with reset := true }
  | .breakpoint => { p with breakpoint := true }
  | .trace => { p with trace := true }
  | .stackOverflow => { p with stackOverflow := true }
  | .divideByZero => { p with divideByZero := true }
  | .userReti => { p with userReti := true }
  | .nmi => { p with nmi := true }

/-- `raise e` (00_scope.md R9): adds the exception to the pending set and transfers no control. -/
def raise (e : Exc) (s : State) : State := { s with pending := s.pending.add e }

/-- The pending set emptied. -/
def clearPending (s : State) : State := { s with pending := Pending.empty }

/-! ### Stacks -/

/-- STACK_OVF: whether a push that takes a stack pointer from one value to another raises StackOverflow
(60_exceptions.md R144, D14; log 17). -/
def stackOvf (c : Config) (system : Bool) (before after : Word) : Bool :=
  match c.stackOvf with
  | .crossing => decide (0x80 ≤ before.toNat) && decide (after.toNat < 0x80)
  | .other k => Config.stackOvfOther k system before after

/-- `PushSys16(v)` (20_memory.md R78; log 3). -/
def pushSys (v : Word) (s : State) : State :=
  let t := memWrite16 (s.ssp - 2#16) v { s with ssp := s.ssp - 2#16 }
  if stackOvf s.cfg true s.ssp (s.ssp - 2#16) then raise .stackOverflow t else t

/-- A push on the user stack, by an instruction in User Mode (10_state.md R31). -/
def pushUser (v : Word) (s : State) : State :=
  let t := memWrite16 (s.usp - 2#16) v { s with usp := s.usp - 2#16 }
  if stackOvf s.cfg false s.usp (s.usp - 2#16) then raise .stackOverflow t else t

/-- Whether the name is the System Stack's: the current stack is in System Mode (10_state.md R31; log 5). -/
def StackName.isSystem (n : StackName) (s : State) : Bool :=
  match n with
  | .current => systemMode s
  | .system => true
  | .user => false

/-- A push by an instruction on the stack it names. -/
def pushOn (n : StackName) (v : Word) (s : State) : State := if n.isSystem s then pushSys v s else pushUser v s

/-- A new value of the stack pointer an instruction names. STACK_OVF is not asked about it: whether a change of a
pointer that is no push can raise StackOverflow is not in the source (91_not_in_source.md N29); DESIGN CHOICE: it
cannot, whatever STACK_OVF is (log 17). -/
def setSp (n : StackName) (v : Word) (s : State) : State :=
  if n.isSystem s then { s with ssp := v } else { s with usp := v }

/-- The word `PopSys16` returns (20_memory.md R78). -/
def topSys (s : State) : Word := memRead16 s s.ssp

/-- The state after `PopSys16`. -/
def dropSys (s : State) : State := { s with ssp := s.ssp + 2#16 }

/-! ### Taking an exception, trap or interrupt -/

/-- `PushFrame(ret)` (20_memory.md R81, R82; log 2): the return address, in 24-bit mode its high byte in the low byte
of a second word, and the PSW as it was. -/
def pushFrame (ret : CodeAddr) (s : State) : State :=
  let old := psw s
  let a := pushSys (addrLow ret) s
  let b := if page0Mode s then a else pushSys (mkWord 0#8 (addrHigh ret)) a
  pushSys old b

/-- Load the PSW and the pc from the vector at va (60_exceptions.md R133; 20_memory.md R73). -/
def loadVector (va : Word) (s : State) : State :=
  { setPsw (codeRead16 s va) s with pc := page0 (codeRead16 s (va + 2#16)) }

/-- `Service(va, ret)` (60_exceptions.md R133): the one sequence all four kinds of interrupt share. An odd System Stack
pointer (20_memory.md R79) and an odd ISR address (R84) are refused. -/
def service (va : Word) (ret : CodeAddr) (s : State) : Host.Outcome State Fault Refusal :=
  if isOdd s.ssp then .refused .oddStackPointer
  else if isOdd (codeRead16 s (va + 2#16)) then .refused .oddVectorTarget
  else .next (loadVector va (pushFrame ret s))

/-- TRACE_POINT: whether what has completed, from state s to state t, raises Trace; by default only an instruction does.
TM = 0 before and after raises none (10_state.md R25; 60_exceptions.md R143; log 18). -/
def traceRaised (x : Completed) (s t : State) : Bool :=
  match s.cfg.tracePoint, x with
  | .beginsTraced, .instruction _ => traceMode s
  | .beginsTraced, .sequence => false
  | .other k, x => (traceMode s || traceMode t) && Config.traceOther k x s.pswh t.pswh

/-- State t, reached from s, with Trace raised if TRACE_POINT says so. -/
def traceAfter (x : Completed) (s t : State) : State := if traceRaised x s t then raise .trace t else t

/-- An interrupt sequence taken at a boundary (60_exceptions.md R190): the sequence, and Trace where a TRACE_POINT other
than the default asks for it after the sequence. -/
def takeInterrupt (va : Word) (s : State) : Host.Outcome State Fault Refusal :=
  andThen (service va s.pc s) fun t => .next (traceAfter .sequence s t)

/-- The vector address of an exception (60_exceptions.md R140, 20_memory.md R74). -/
def excVector : Exc → Word
  | .reset => 0x0000#16
  | .breakpoint => 0x0004#16
  | .trace => 0x0008#16
  | .stackOverflow => 0x000C#16
  | .divideByZero => 0x0010#16
  | .userReti => 0x0014#16
  | .nmi => 0x009C#16

/-- The vector address of trap n, 0040h + 4n (20_memory.md R74). -/
def trapVector (n : BitVec 4) : Word := 0x0040#16 + 4#16 * n.setWidth 16

/-- NMI_PRESENT (00_scope.md R5, 60_exceptions.md R147). -/
def nmiPresent (c : Config) : Bool :=
  match c.derivative with
  | .family => true
  | .g3 => false

/-- The exceptions but Reset in ascending service precedence (60_exceptions.md R140, R150). -/
def byPrecedence (c : Config) : List Exc :=
  [.breakpoint, .trace, .stackOverflow, .divideByZero, .userReti] ++ (if nmiPresent c then [.nmi] else [])

/-- The sequences of the given exceptions, one after the other (60_exceptions.md R150, R190). -/
def serviceAll : List Exc → State → Host.Outcome State Fault Refusal
  | [], s => .next s
  | e :: es, s => andThen (takeInterrupt (excVector e) s) (serviceAll es)

/-- The acceptance of the pending exceptions, Reset not among them (60_exceptions.md R190). -/
def servicePending (s : State) : Host.Outcome State Fault Refusal :=
  serviceAll ((byPrecedence s.cfg).filter s.pending.has) (clearPending s)

/-! ### Return -/

/-- The pops of RETI (40_interrupt_instructions.md R111), 6 bytes or, in Page 0 Mode, 4, from the System Stack: first
the PSW, last the return address. The pad byte is ignored. The PSW is assigned after the pops. -/
def popFrame (s : State) : State :=
  let p := topSys s
  let a := dropSys s
  if page0Mode s then
    let b := dropSys a
    setPsw p { b with pc := page0 (topSys a) }
  else
    let b := dropSys a
    let c := dropSys b
    setPsw p { c with pc := mkAddr (loByte (topSys a)) (topSys b) }

/-! ### Reset -/

/-- The SFR values a reset leaves (10_state.md R54): EA, every enable and every IPA register 0, the others from the
configuration's image, in their implemented bits. -/
def resetSfrs (c : Config) : Sfrs :=
  let m := implMask c
  { tcon := c.image.tcon &&& m .tcon, t2con := c.image.t2con &&& m .t2con, t2mod := c.image.t2mod &&& m .t2mod,
    s0con := c.image.s0con &&& m .s0con, s0stat := c.image.s0stat &&& m .s0stat,
    s1con := c.image.s1con &&& m .s1con, s1stat := c.image.s1stat &&& m .s1stat,
    iel := 0#8, ieh := 0#8,
    swr := c.image.swr &&& m .swr, scr := c.image.scr &&& m .scr, swe := c.image.swe &&& m .swe,
    ipa0 := 0#8, ipa1 := 0#8, ipa2 := 0#8, ipa3 := 0#8, ipa4 := 0#8, ipa5 := 0#8 }

/-- `DoReset()` (70_reset_and_hazards.md R220): nothing pending, stack pointers at SP_RESET, registers at their reset
values, PSW and pc from the vector at 0000h; nothing is pushed and neither memory is written. What data memory holds
after a reset is unspecified (10_state.md R54, U22); DESIGN CHOICE: every byte what it held before (log 47). Whether a
reset ends an ACCEPT_DELAY shadow is not in the spec (D23); DESIGN CHOICE: it does (log 19). No TRACE_POINT is asked
about a reset, for the pending set is empty after it (10_state.md R54). -/
def doReset (s : State) : Host.Outcome State Fault Refusal :=
  if isOdd (codeRead16 s 0x0002#16) then .refused .oddVectorTarget
  else
    .next (loadVector (excVector .reset)
      { s with
        pending := Pending.empty
        ssp := s.cfg.spReset
        usp := s.cfg.spReset
        sfr := resetSfrs s.cfg
        regs := s.cfg.image.regs
        ds := s.cfg.image.ds
        hold := false })

end Sys2Proof.Machine
end

