-- ==== Sys2Proof/Machine/Controller.lean ====
section
/-! DEFINITION. The interrupt controller: the event sources (60_exceptions.md R160, R180), the software interrupts
(R170), the selection of a maskable interrupt (R191) and the request bits its sequence clears (R187). -/

namespace Sys2Proof.Machine

/-- The event interrupt sources of the family's and of the XA-G3's table (60_exceptions.md R160, R180). -/
inductive EventSource where
  | ext0
  | timer0
  | ext1
  | timer1
  | timer2
  | serial0Rx
  | serial0Tx
  | serial1Rx
  | serial1Tx
deriving DecidableEq, Repr

/-- The sources by ascending arbitration ranking, 2 to 10 (R160, R180). -/
def byRanking : List EventSource :=
  [.ext0, .timer0, .ext1, .timer1, .timer2, .serial0Rx, .serial0Tx, .serial1Rx, .serial1Tx]

/-- The arbitration ranking (R160, R180). -/
def eventRank : EventSource → Nat
  | .ext0 => 2
  | .timer0 => 3
  | .ext1 => 4
  | .timer1 => 5
  | .timer2 => 6
  | .serial0Rx => 7
  | .serial0Tx => 8
  | .serial1Rx => 9
  | .serial1Tx => 10

/-- The slot of the event region of the vector table (R160; 20_memory.md R74). -/
def eventSlot : EventSource → Nat
  | .ext0 => 0
  | .timer0 => 1
  | .ext1 => 2
  | .timer1 => 3
  | .timer2 => 4
  | .serial0Rx => 8
  | .serial0Tx => 9
  | .serial1Rx => 10
  | .serial1Tx => 11

/-- The vector address, 0080h + 4 × slot (20_memory.md R74). -/
def eventVector (e : EventSource) : Word := BitVec.ofNat 16 (0x80 + 4 * eventSlot e)

/-- The request: the source's flag bit; Timer 2's is TF2 or EXF2 (R160, R185, D27). -/
def eventRequest (e : EventSource) (s : State) : Bool :=
  match e with
  | .ext0 => bitOf .ie0 s
  | .timer0 => bitOf .tf0 s
  | .ext1 => bitOf .ie1 s
  | .timer1 => bitOf .tf1 s
  | .timer2 => bitOf .tf2 s || bitOf .exf2 s
  | .serial0Rx => bitOf .ri0 s
  | .serial0Tx => bitOf .ti0 s
  | .serial1Rx => bitOf .ri1 s
  | .serial1Tx => bitOf .ti1 s

/-- The individual enable bit (R160, R180). -/
def eventEnable : EventSource → BitName
  | .ext0 => .ex0
  | .timer0 => .et0
  | .ext1 => .ex1
  | .timer1 => .et1
  | .timer2 => .et2
  | .serial0Rx => .eri0
  | .serial0Tx => .eti0
  | .serial1Rx => .eri1
  | .serial1Tx => .eti1

/-- The IPA register of a slot, IPA(n div 2) (10_state.md R38). -/
def ipaOf : EventSource → Sfr
  | .ext0 => .ipa0
  | .timer0 => .ipa0
  | .ext1 => .ipa1
  | .timer1 => .ipa1
  | .timer2 => .ipa2
  | .serial0Rx => .ipa4
  | .serial0Tx => .ipa4
  | .serial1Rx => .ipa5
  | .serial1Tx => .ipa5

/-- The priority field: the low nibble for an even slot, the high nibble for an odd one (10_state.md R38). -/
def eventField (e : EventSource) (s : State) : BitVec 4 :=
  if eventSlot e % 2 = 0 then (sfrGet (ipaOf e) s).extractLsb' 0 4 else (sfrGet (ipaOf e) s).extractLsb' 4 4

/-- `prio(f)` (10_state.md R40): the field itself in the family; on the XA-G3, whose fields have three bits, 0 for 0
and 8 + f for the others. -/
def prio (d : Derivative) (f : BitVec 4) : Nat :=
  match d with
  | .family => f.toNat
  | .g3 => if f.toNat % 8 = 0 then 0 else 8 + f.toNat % 8

/-- The priority of an event source (60_exceptions.md R163). -/
def eventPrio (e : EventSource) (s : State) : Nat := prio s.cfg.derivative (eventField e s)

/-- `EligibleEvent` (R191): requested, enabled individually and by EA, and of priority above IM. -/
def eligibleEvent (e : EventSource) (s : State) : Bool :=
  eventRequest e s && bitOf (eventEnable e) s && bitOf .ea s && decide (intMask s < eventPrio e s)

/-- SWI_PRESENT (00_scope.md R5): always on the XA-G3. -/
def swiPresent (c : Config) : Bool :=
  match c.derivative with
  | .g3 => true
  | .family => c.swiPresent

/-- The request bit of software interrupt n = k + 1, SWR.k (10_state.md R41). -/
def swiRequest (k : Fin 7) : BitName :=
  match k with
  | 0 => .swr1
  | 1 => .swr2
  | 2 => .swr3
  | 3 => .swr4
  | 4 => .swr5
  | 5 => .swr6
  | 6 => .swr7

/-- The enable bit of software interrupt n = k + 1, SWE.k (10_state.md R42). -/
def swiEnable (k : Fin 7) : BitName :=
  match k with
  | 0 => .swe1
  | 1 => .swe2
  | 2 => .swe3
  | 3 => .swe4
  | 4 => .swe5
  | 5 => .swe6
  | 6 => .swe7

/-- The fixed priority of software interrupt n = k + 1 (60_exceptions.md R171). -/
def swiPrio (k : Fin 7) : Nat := k.val + 1

/-- The vector address of software interrupt n = k + 1, 0100h + 4 (n - 1) (R170). -/
def swiVector (k : Fin 7) : Word := BitVec.ofNat 16 (0x100 + 4 * k.val)

/-- `EligibleSwi` (R172, R191): requested, enabled, of priority above IM, and, if EA_GATES_SWI, with EA = 1. -/
def eligibleSwi (k : Fin 7) (s : State) : Bool :=
  swiPresent s.cfg && bitOf (swiRequest k) s && bitOf (swiEnable k) s && decide (intMask s < swiPrio k) &&
    (bitOf .ea s || !s.cfg.eaGatesSwi)

/-- A maskable interrupt: an event source or software interrupt k + 1. -/
inductive Maskable where
  | event (e : EventSource)
  | swi (k : Fin 7)
deriving DecidableEq, Repr

/-- Eligibility (R191). -/
def eligible (m : Maskable) (s : State) : Bool :=
  match m with
  | .event e => eligibleEvent e s
  | .swi k => eligibleSwi k s

/-- The priority compared (R191). -/
def maskPrio (m : Maskable) (s : State) : Nat :=
  match m with
  | .event e => eventPrio e s
  | .swi k => swiPrio k

/-- The vector address. -/
def maskVector (m : Maskable) : Word :=
  match m with
  | .event e => eventVector e
  | .swi k => swiVector k

/-- Every maskable interrupt in the order that settles equal priorities: events by ranking, then software interrupts
(R165, R191, D9). -/
def allMaskable : List Maskable := byRanking.map .event ++ (List.finRange 7).map .swi

/-- The first member of greatest priority, of those that are eligible. -/
def bestOf (s : State) : List Maskable → Option Maskable
  | [] => none
  | m :: ms =>
    if eligible m s then
      match bestOf s ms with
      | some b => if maskPrio m s < maskPrio b s then some b else some m
      | none => some m
    else bestOf s ms

/-- `SelectMaskable()` (R191). -/
def selectMaskable (s : State) : Option Maskable := bestOf s allMaskable

/-- `ClearOnService(c)` (R187): the sequence of an external interrupt clears IEn, that of timer 0 or 1 clears TFn, and
no other request is cleared. -/
def clearOnService (m : Maskable) (s : State) : State :=
  match m with
  | .event .ext0 => clearBit .ie0 s
  | .event .ext1 => clearBit .ie1 s
  | .event .timer0 => clearBit .tf0 s
  | .event .timer1 => clearBit .tf1 s
  | .event .timer2 => s
  | .event .serial0Rx => s
  | .event .serial0Tx => s
  | .event .serial1Rx => s
  | .event .serial1Tx => s
  | .swi _ => s

/-- The acceptance of a maskable interrupt (R190): its sequence, with the pc as return address, and its clearing. -/
def acceptMaskable (m : Maskable) (s : State) : Host.Outcome State Fault Refusal :=
  andThen (takeInterrupt (maskVector m) s) fun t => .next (clearOnService m t)

end Sys2Proof.Machine
end

