-- ==== Sys2Proof/Decode.lean ====
section
/-! DEFINITION. The decoder, total on any bytes, and the encoder, both from the table of 30_encoding.md R105 (general
knowledge, log 27). Bytes stand in the order of increasing code address. -/

namespace Sys2Proof

/-- Instruction lengths in bytes (30_encoding.md R105). -/
def Instr.length : Instr → Nat
  | .nop => 1
  | .bkpt => 1
  | .trap _ => 2
  | .reset => 2
  | .reti => 2
  | .clr _ => 3
  | .setb _ => 3
  | .movb _ _ => 4
  | .orb _ _ => 4

/-- Why the decoder rejects a byte string. -/
inductive DecodeReject where
  /-- The bytes end before the instruction does. -/
  | truncated
  /-- Not one of the nine named instructions (30_encoding.md R107). -/
  | notNamed
deriving DecidableEq, Repr

/-- What the decoder reads: an instruction and the bytes after it, or a rejection. -/
inductive Decoded where
  | instr (i : Instr) (rest : List Byte)
  | rejected (why : DecodeReject)
deriving DecidableEq, Repr

/-- Second byte of the D6h group: TRAP, RESET, RETI (R105). -/
def decodeD6 (b : Byte) : Option Instr :=
  if b.extractLsb' 4 4 = 0x3#4 then some (.trap (b.extractLsb' 0 4))
  else if b = 0x10 then some .reset
  else if b = 0x90 then some .reti
  else none

/-- Second and third byte of the 08h group: CLR bit and SETB bit; the bit address is bb : bbbbbbbb (R105, R106). -/
def decodeBitOp (b c : Byte) : Option Instr :=
  let bit : BitVec 10 := b.extractLsb' 0 2 ++ c
  if b.extractLsb' 2 6 = 0x00#6 then some (.clr bit)
  else if b.extractLsb' 2 6 = 0x04#6 then some (.setb bit)
  else none

/-- Second to fourth byte of the 96h group: MOV.B and OR.B; the direct address is ddd : DDDDDDDD (R105, R106). -/
def decodeDirect (b c d : Byte) : Option Instr :=
  let addr : BitVec 11 := b.extractLsb' 4 3 ++ c
  if b.extractLsb' 7 1 = 0x0#1 then
    if b.extractLsb' 0 4 = 0x8#4 then some (.movb addr d)
    else if b.extractLsb' 0 4 = 0x6#4 then some (.orb addr d)
    else none
  else none

/-- An instruction with the bytes after it, or the rejection by name. -/
def Decoded.ofOption (o : Option Instr) (rest : List Byte) : Decoded :=
  match o with
  | some i => .instr i rest
  | none => .rejected .notNamed

/-- The decoder (30_encoding.md R105, R107): every byte string but the nine named instructions is rejected. -/
def decode : List Byte → Decoded
  | [] => .rejected .truncated
  | a :: bs =>
    if a = 0x00 then .instr .nop bs
    else if a = 0xFF then .instr .bkpt bs
    else if a = 0xD6 then
      match bs with
      | b :: rest => Decoded.ofOption (decodeD6 b) rest
      | [] => .rejected .truncated
    else if a = 0x08 then
      match bs with
      | b :: c :: rest => Decoded.ofOption (decodeBitOp b c) rest
      | _ => .rejected .truncated
    else if a = 0x96 then
      match bs with
      | b :: c :: d :: rest => Decoded.ofOption (decodeDirect b c d) rest
      | _ => .rejected .truncated
    else .rejected .notNamed

/-- The encoder, written from the same table (R105, R106). -/
def encode : Instr → List Byte
  | .nop => [0x00]
  | .bkpt => [0xFF]
  | .trap n => [0xD6, 0x3#4 ++ n]
  | .reset => [0xD6, 0x10]
  | .reti => [0xD6, 0x90]
  | .clr b => [0x08, 0x00#6 ++ b.extractLsb' 8 2, b.extractLsb' 0 8]
  | .setb b => [0x08, 0x04#6 ++ b.extractLsb' 8 2, b.extractLsb' 0 8]
  | .movb a d => [0x96, 0x0#1 ++ a.extractLsb' 8 3 ++ 0x8#4, a.extractLsb' 0 8, d]
  | .orb a d => [0x96, 0x0#1 ++ a.extractLsb' 8 3 ++ 0x6#4, a.extractLsb' 0 8, d]

/-- The bytes of an instruction given as spec/opcode_table.json numbers its bits: the encoding string read as one
big-endian number of nbits bits, so the first byte holds the topmost bits. Four bytes, the longest instruction;
every byte after the instruction's own is 0 (log 12). -/
def tableBytes (nbits w : Nat) : List Byte :=
  (List.range 4).map fun k =>
    if 8 * (k + 1) ≤ nbits then BitVec.ofNat 8 (w >>> (nbits - 8 * (k + 1))) else 0

/-- The instruction the decoder reads from an instruction whose bits are w, numbered as the table numbers them. -/
def decodeTableWord (nbits w : Nat) : Option Instr :=
  match decode (tableBytes nbits w) with
  | .instr i _ => some i
  | .rejected _ => none

end Sys2Proof
end

