-- ==== Sys2Proof/Machine/InterruptInstrs.lean ====
section
/-! DEFINITION. The instructions that cause or end interrupts (40_interrupt_instructions.md). -/

namespace Sys2Proof.Machine

/-- TRAP #n (R110): the interrupt sequence of trap n as part of the instruction, in either mode and at any IM. -/
def execTrap (n : BitVec 4) (s : State) : Host.Outcome State Fault Refusal :=
  service (trapVector n) (nextPc s (Instr.trap n).length) s

/-- RETI (R111): in System Mode the frame is popped from the System Stack; in User Mode nothing is popped and UserRETI
is raised (log 31). -/
def execReti (s : State) : Host.Outcome State Fault Refusal :=
  if systemMode s then
    if isOdd s.ssp then .refused .oddStackPointer else .next (popFrame s)
  else .next (setPc (nextPc s Instr.reti.length) (raise .userReti s))

/-- BKPT (R112): raises Breakpoint, which the coming boundary takes with the next instruction's address. -/
def execBkpt (s : State) : Host.Outcome State Fault Refusal :=
  .next (setPc (nextPc s Instr.bkpt.length) (raise .breakpoint s))

/-- RESET (R113): raises Reset, which the coming boundary takes; refused in User Mode (D34; log 30). -/
def execReset (s : State) : Host.Outcome State Fault Refusal :=
  if systemMode s then .next (raise .reset s) else .refused .resetInUserMode

end Sys2Proof.Machine
end

