-- ==== Sys2Proof/Machine/Operands.lean ====
section
/-! DEFINITION. The operand forms: an instruction's write to a special function register (SfrWrite), the direct
operand of MOV.B and OR.B, the bit operand of SETB and CLR. -/

namespace Sys2Proof.Machine

/-- Whether a write of v to PSWH would change a protected bit, a bit other than RS1 and RS0 (10_state.md R28; log 16).
-/
def changesProtected (v : Byte) (s : State) : Bool := (v ^^^ s.pswh) &&& ~~~ rsMask s.cfg != 0

/-- PSWH with RS1 and RS0 from v and the protected bits as they were (10_state.md R28). -/
def userPswh (v : Byte) (s : State) : Byte := (v &&& rsMask s.cfg) ||| (s.pswh &&& ~~~ rsMask s.cfg)

/-- `SfrWrite(PSWH, v)` (41_sfr_access_instructions.md R125(a)): the whole byte in System Mode; in User Mode RS1 and
RS0 alone, and what USER_PSWH_WRITE dictates for an attempt on a protected bit. The mode tested is the one before. -/
def pswhWrite (v : Byte) (s : State) : Host.Outcome State Fault Refusal :=
  if systemMode s then .next { s with pswh := v }
  else
    let t := { s with pswh := userPswh v s }
    if changesProtected v s then
      match s.cfg.userPswhWrite with
      | .ignore => .next t
      | .exception e => .next (raise e t)
      | .fault => .fault .protectedPswhWrite
    else .next t

/-- `SfrWrite(r, v)` (41_sfr_access_instructions.md R125): PSWH by its own rule; any other register takes the bits of v
that are storage (on the XA-G3 an IPA register takes v & 77h, 10_state.md R39; bits with no field ignore the write). -/
def sfrWrite (r : Sfr) (v : Byte) (s : State) : Host.Outcome State Fault Refusal :=
  match r with
  | .pswh => pswhWrite v s
  | r => .next (sfrPut r (v &&& sfrMask r s) s)

/-- `SfrWrite(r, v)` of a byte v computed from the byte read of r: v's bits that are not storage are ignored, so what
the stored bits made of v decides (sfrWriteBack_eq in Laws/Sfr.lean). -/
def sfrWriteBack (r : Sfr) (v : ReadByte) (s : State) : Host.Outcome State Fault Refusal := sfrWrite r v.stored s

/-- The direct operand of MOV.B and OR.B (R120, R121): run f on the register the address names; any other direct
address is a form outside the spec and is refused (log 28). -/
def withDirect (c : Config) (a : BitVec 11) (f : Sfr → Host.Outcome State Fault Refusal) :
    Host.Outcome State Fault Refusal :=
  match sfrAt c a with
  | some r => f r
  | none => .refused .directNotSfr

/-- The bit operand of SETB and CLR (R122, R123): run f on the register and bit number the bit address names; any
other bit address is a form outside the spec and is refused (log 28). -/
def withBit (c : Config) (b : BitVec 10) (f : Sfr → Nat → Host.Outcome State Fault Refusal) :
    Host.Outcome State Fault Refusal :=
  match bitAt c b with
  | some (r, n) => f r n
  | none => .refused .bitNotSfr

/-- Whether a write to the register is one of those ACCEPT_DELAY names: PSW, IE, IPA, SWR, SWE (00_scope.md R5). -/
def delaysAccept : Sfr → Bool
  | .pswl | .pswh | .iel | .ieh | .ipa0 | .ipa1 | .ipa2 | .ipa3 | .ipa4 | .ipa5 | .swr | .swe => true
  | _ => false

/-- Whether ACCEPT_DELAY names the instruction: RETI and writes to PSW, IE, IPA, SWR, SWE (00_scope.md R5; log 19). -/
def instrDelays (c : Config) (i : Instr) : Bool :=
  match i with
  | .nop => false
  | .bkpt => false
  | .trap _ => false
  | .reset => false
  | .reti => true
  | .clr b => (bitAt c b).any fun p => delaysAccept p.1
  | .setb b => (bitAt c b).any fun p => delaysAccept p.1
  | .movb a _ => (sfrAt c a).any delaysAccept
  | .orb a _ => (sfrAt c a).any delaysAccept

end Sys2Proof.Machine
end

