-- ==== Sys2Proof/Machine/SfrInstrs.lean ====
section
/-! DEFINITION. The instructions on special function registers, and NOP (41_sfr_access_instructions.md). -/

namespace Sys2Proof.Machine

/-- MOV.B sfr, #data8 (R120): SfrWrite, then PSWL's flags hold any value (log 15). -/
def execMovb (a : BitVec 11) (d : Byte) (s : State) : Host.Outcome State Fault Refusal :=
  withDirect s.cfg a fun r =>
    andThen (sfrWrite r d s) fun t => .next (freeFlags (setPc (nextPc s (Instr.movb a d).length) t))

/-- OR.B sfr, #data8 (R121): SfrWrite of the byte read or the constant, then PSWL's flags hold any value. -/
def execOrb (a : BitVec 11) (d : Byte) (s : State) : Host.Outcome State Fault Refusal :=
  withDirect s.cfg a fun r =>
    andThen (sfrWriteBack r ((sfrRead r s).set d) s) fun t =>
      .next (freeFlags (useFree (setPc (nextPc s (Instr.orb a d).length) t)))

/-- SETB bit (R122): SfrWrite of the byte read with the one bit set. R122 names no flags written, and
91_not_in_source.md N22 says to assume neither that SETB leaves PSWL nor that it changes it; DESIGN CHOICE: no flag changes
(log 15). -/
def execSetb (b : BitVec 10) (s : State) : Host.Outcome State Fault Refusal :=
  withBit s.cfg b fun r n =>
    andThen (sfrWriteBack r ((sfrRead r s).set (bitMask n)) s) fun t =>
      .next (useFree (setPc (nextPc s (Instr.setb b).length) t))

/-- CLR bit (R123): SfrWrite of the byte read with the one bit cleared. R123 names no flags written, and
91_not_in_source.md N22 says to assume neither that CLR leaves PSWL nor that it changes it; DESIGN CHOICE: no flag changes
(log 15). -/
def execClr (b : BitVec 10) (s : State) : Host.Outcome State Fault Refusal :=
  withBit s.cfg b fun r n =>
    andThen (sfrWriteBack r ((sfrRead r s).clear (bitMask n)) s) fun t =>
      .next (useFree (setPc (nextPc s (Instr.clr b).length) t))

/-- NOP (R124): the pc alone. -/
def execNop (s : State) : Host.Outcome State Fault Refusal := .next (setPc (nextPc s Instr.nop.length) s)

end Sys2Proof.Machine
end

