-- ==== Sys2Proof/Machine/Dispatch.lean ====
section
/-! DEFINITION. The meaning of every instruction, one arm for each constructor. -/

namespace Sys2Proof.Machine

open Host

def exec (i : Instr) (s : State) : Host.Outcome State Fault Refusal :=
  match i with
  | .nop => Sys2Proof.Machine.execNop s
  | .bkpt => Sys2Proof.Machine.execBkpt s
  | .trap n => Sys2Proof.Machine.execTrap n s
  | .reset => Sys2Proof.Machine.execReset s
  | .reti => Sys2Proof.Machine.execReti s
  | .clr b => Sys2Proof.Machine.execClr b s
  | .setb b => Sys2Proof.Machine.execSetb b s
  | .movb a d => Sys2Proof.Machine.execMovb a d s
  | .orb a d => Sys2Proof.Machine.execOrb a d s

end Sys2Proof.Machine
end

