-- ==== Sys2Proof/Machine/Environment.lean ====
section
/-! DEFINITION. The environment's moves (00_scope.md R12; log 23). -/

namespace Sys2Proof.Machine

/-- Whether the Timer 2 overflow rate clocks a serial port: one of RCLK0, RCLK1, TCLK0, TCLK1 is 1 (10_state.md R44). -/
def timer2Clocks (s : State) : Bool := bitOf .rclk0 s || bitOf .rclk1 s || bitOf .tclk0 s || bitOf .tclk1 s

/-- Whether the move can happen in the state (the conditions of 00_scope.md R12; log 24). -/
def envPossible (m : EnvMove) (s : State) : Bool :=
  match m with
  | .rstRelease => true
  | .watchdogReset => true
  | .extDetect _ => true
  | .timerOverflow .u0 => bitOf .tr0 s
  | .timerOverflow .u1 => bitOf .tr1 s
  | .timer2Overflow => bitOf .tr2 s
  | .t2exFall => bitOf .exen2 s
  | .serialRx .u0 => bitOf .ren0 s
  | .serialRx .u1 => bitOf .ren1 s
  | .serialTx _ => true
  | .serialStatus .u0 => bitOf .stint0 s
  | .serialStatus .u1 => bitOf .stint1 s
  | .nmiAssert => nmiPresent s.cfg
  | .hwBreakpoint => true

/-- The effect of a move that can happen (00_scope.md R12). -/
def envEffect (m : EnvMove) (s : State) : State :=
  match m with
  | .rstRelease => raise .reset s
  | .watchdogReset => raise .reset s
  | .extDetect .u0 => raiseBit .ie0 s
  | .extDetect .u1 => raiseBit .ie1 s
  | .timerOverflow .u0 => raiseBit .tf0 s
  | .timerOverflow .u1 => raiseBit .tf1 s
  | .timer2Overflow => if timer2Clocks s then s else raiseBit .tf2 s
  | .t2exFall => raiseBit .exf2 s
  | .serialRx .u0 => raiseBit .ri0 s
  | .serialRx .u1 => raiseBit .ri1 s
  | .serialTx .u0 => raiseBit .ti0 s
  | .serialTx .u1 => raiseBit .ti1 s
  | .serialStatus .u0 => raiseBit .ri0 s
  | .serialStatus .u1 => raiseBit .ri1 s
  | .nmiAssert => raise .nmi s
  | .hwBreakpoint => raise .breakpoint s

/-- A scheduled move: its effect if it can happen; a move that cannot happen does not. -/
def envMove (m : EnvMove) (s : State) : State := if envPossible m s then envEffect m s else s

/-- A list of moves in order. -/
def envMoves (ms : List EnvMove) (s : State) : State := ms.foldl (fun t m => envMove m t) s

/-- The moves scheduled before the coming CPU step happen; the schedule goes on with the rest. -/
def takeInputs (s : State) : State :=
  match s.inputs with
  | [] => s
  | ms :: rest => envMoves ms { s with inputs := rest }

end Sys2Proof.Machine
end

