-- ==== Sys2Proof/Machine/OpaqueSteps.lean ====
section
/-! DEFINITION. One execution of an instruction AN713 does not name, as supplied from elsewhere (92_eei_decisions.md
D35; log 28, log 29), the divide instructions among them (40_interrupt_instructions.md R114). -/

namespace Sys2Proof.Machine

/-! ### Lengths (30_encoding.md R108) -/

/-- The length R105 gives the instructions that begin with two bytes, where these are the first bytes of one of the nine
(for a one-byte instruction, its byte and any other). -/
def namedLength (a b : Byte) : Option Nat :=
  match decode [a, b, 0, 0] with
  | .instr i _ => some i.length
  | .rejected _ => none

/-- Whether a row gives the length of instructions that begin with two bytes; a length of 1 is decided by the first. -/
def rowApplies (r : LengthRow) (a b : Byte) : Bool :=
  decide (r.first = a) &&
    match r.second with
    | none => true
    | some x => decide (x = b) && decide (2 ≤ r.length)

/-- The length of an instruction by its first two bytes: that of R105, or that of the first row that applies (log 42).
-/
def instrLength (c : Config) (a b : Byte) : Option Nat :=
  match namedLength a b with
  | some n => some n
  | none => (c.lengths.find? fun r => rowApplies r a b).map LengthRow.length

/-- Whether the opaque step is a meaning of the bytes at the pc: as many as their first two say, 1 to 6 (R108). -/
def opaqueMatches (o : OpaqueStep) (s : State) : Bool :=
  match instrLength s.cfg (codeByte s (nextPc s 0)) (codeByte s (nextPc s 1)) with
  | some n => decide (1 ≤ n) && decide (n ≤ 6) && decide (o.bytes.length = n) && (fetchBytes s n == o.bytes)
  | none => false

/-! ### Effects -/

/-- Register writes in order. -/
def putRegs (rs : List (Nat × Nat)) (s : State) : State := rs.foldl (fun t p => regPut p.1 p.2 t) s

/-- Byte stores in order. -/
def putBytes (bs : List (Word × Byte)) (s : State) : State := bs.foldl (fun t p => dataPut p.1 p.2 t) s

/-- New values of stack pointers in order. -/
def putSps (ws : List (StackName × Word)) (s : State) : State := ws.foldl (fun t p => setSp p.1 p.2 t) s

/-- Pushes in order. -/
def pushAll (ws : List (StackName × Word)) (s : State) : State := ws.foldl (fun t p => pushOn p.1 p.2 t) s

/-- Writes of special function registers in order, each through SfrWrite. -/
def writeSfrs : List (Sfr × Byte) → State → Host.Outcome State Fault Refusal
  | [], s => .next s
  | (r, v) :: rs, s => andThen (sfrWrite r v s) (writeSfrs rs)

/-- The opaque step's result: general registers, DS, data memory, stack pointers, pushes, special function registers,
any value in PSWL's flags (U25), and the pc at the target or the next instruction. -/
def opaqueEffect (o : OpaqueStep) (s : State) : Host.Outcome State Fault Refusal :=
  andThen
    (writeSfrs o.sfrs
      (pushAll o.pushes (putSps o.sps (putBytes o.stores (putRegs o.regs { s with ds := o.ds.getD s.ds })))))
    fun t => .next (freeFlags (setPc (o.target.getD (nextPc s o.bytes.length)) t))

/-- The step with every destination at a free value (U26): the k-th of each kind at the free value numbered from n on.
It pushes nothing and does not branch. -/
def OpaqueStep.freed (o : OpaqueStep) (n : Nat) : OpaqueStep :=
  { o with
    target := none
    regs := o.regs.zipIdx.map fun p => (p.1.1, Config.freeValue (n + p.2))
    ds := o.ds.map fun _ => Config.freeValue (n + o.regs.length)
    stores := o.stores.zipIdx.map fun p => (p.1.1, Config.freeByte (n + p.2))
    sfrs := o.sfrs.zipIdx.map fun p => (p.1.1, Config.freeByte (n + o.stores.length + p.2))
    sps := o.sps.zipIdx.map fun p => (p.1.1, Config.freeWord (n + p.2))
    pushes := [] }

/-- How many numbers the free values of `freed` take. -/
def OpaqueStep.freedCount (o : OpaqueStep) : Nat :=
  o.regs.length + 1 + o.stores.length + o.sfrs.length + o.sps.length

/-- One execution of the opaque step. A divide whose divisor is zero (R114, D25) raises DivideByZero, leaves every
destination and PSWL at any value, and goes on to the next instruction; any other has its result. -/
def execOpaque (o : OpaqueStep) (s : State) : Host.Outcome State Fault Refusal :=
  if o.divisor = some 0 then
    opaqueEffect (o.freed s.freeCtr) (raise .divideByZero { s with freeCtr := s.freeCtr + o.freedCount })
  else opaqueEffect o s

/-- Whether ACCEPT_DELAY names the step: it writes PSW, IE, IPA, SWR or SWE (00_scope.md R5). -/
def opaqueDelays (o : OpaqueStep) : Bool := o.sfrs.any fun p => delaysAccept p.1

end Sys2Proof.Machine
end

