-- ==== Sys2Proof/WellFormed.lean ====
section
/-! DEFINITION. Which instruction terms the spec gives a meaning: the direct address of MOV.B and OR.B names a
register of 10_state.md R47 (41_sfr_access_instructions.md R120, R121), the bit address of SETB and CLR names a bit of
a register R47 marks bit addressable (R122, R123). Every other field is whole by its type (D24). -/

namespace Sys2Proof

/-- The check, in a configuration, which holds the addresses (D36). An ill-formed term is an instruction form outside
the spec (30_encoding.md R107; log 28). -/
def wellFormed (c : Config) (i : Instr) : Bool :=
  match i with
  | .nop => true
  | .bkpt => true
  | .trap _ => true
  | .reset => true
  | .reti => true
  | .clr b => (Machine.bitAt c b).isSome
  | .setb b => (Machine.bitAt c b).isSome
  | .movb a _ => (Machine.sfrAt c a).isSome
  | .orb a _ => (Machine.sfrAt c a).isSome

end Sys2Proof
end

