-- ==== Sys2Proof/Machine/Boundary.lean ====
section
/-! DEFINITION. What happens at an instruction boundary (60_exceptions.md R190), and what the CPU's step does around
the instruction it executes: the Trace exception (R143) and the ACCEPT_DELAY shadow (D23). -/

namespace Sys2Proof.Machine

/-- Whether the next boundary is in the ACCEPT_DELAY shadow of an instruction (D23; log 19). -/
def holdAfter (c : Config) (delays : Bool) : Bool :=
  match c.acceptDelay with
  | .none => false
  | .oneInstruction => delays

/-- What the CPU adds when an instruction begun in s has completed in t: Trace, and the shadow. -/
def finishState (bytes : List Byte) (delays : Bool) (s t : State) : State :=
  traceAfter (.instruction bytes) s { t with hold := holdAfter s.cfg delays }

/-- The outcome of an instruction begun in s, with what the CPU adds when it completes. -/
def finish (bytes : List Byte) (delays : Bool) (s : State) (o : Host.Outcome State Fault Refusal) :
    Host.Outcome State Fault Refusal :=
  andThen o fun t => .next (finishState bytes delays s t)

/-- An instruction form outside the spec (30_encoding.md R107, D35): the opaque step supplied for its bytes, if the
next one supplied is; otherwise the refusal given. -/
def runOpaque (s : State) (otherwise : Host.Outcome State Fault Refusal) : Host.Outcome State Fault Refusal :=
  match s.supplied with
  | [] => otherwise
  | o :: rest =>
    if opaqueMatches o s then finish o.bytes (opaqueDelays o) s (execOpaque o { s with supplied := rest })
    else otherwise

/-- Execute the instruction at the pc (R190): one of the nine, or an opaque step. -/
def runInstr (s : State) : Host.Outcome State Fault Refusal :=
  match decode (fetchBytes s 4) with
  | .instr i _ =>
    if wellFormed s.cfg i then finish (fetchBytes s i.length) (instrDelays s.cfg i) s (exec i s)
    else runOpaque s (exec i s)
  | .rejected _ => runOpaque s (.refused .notNamed)

/-- The maskable interrupt accepted at this boundary, if one is (R191); none in the ACCEPT_DELAY shadow. -/
def acceptable (s : State) : Option Maskable := if s.hold then none else selectMaskable s

/-- `CpuStep()` (60_exceptions.md R190): reset, or the pending exceptions, or a maskable interrupt, or an instruction.
-/
def cpuStep (s : State) : Host.Outcome State Fault Refusal :=
  if s.pending.reset then doReset s
  else if s.pending ≠ Pending.empty then servicePending s
  else
    match acceptable s with
    | some m => acceptMaskable m s
    | none => runInstr s

/-- Load the bytes of an instruction at the pc, and let the coming step be the execution of an instruction: nothing
pending, no environment move before it, no maskable interrupt accepted before it (log 12). -/
def placeInstr (bytes : List Byte) (s : State) : State :=
  let t := (bytes.zipIdx).foldl (fun u p => codePut (nextPc s p.2) p.1 u) s
  { t with
    pending := Pending.empty
    inputs := if s.inputs = [] then [] else [] :: s.inputs
    hold := s.hold || (selectMaskable s).isSome }

end Sys2Proof.Machine
end

