-- ==== Sys2Proof/Machine/Step.lean ====
section
/-! DEFINITION. One step of the machine: the environment's moves before it, then the CPU's step. -/

namespace Sys2Proof.Machine

/-- The environment moves scheduled before this CPU step (00_scope.md R12), then `CpuStep()` (60_exceptions.md R190). -/
def step (s : State) : Host.Outcome State Fault Refusal := cpuStep (takeInputs s)

/-- The state with the instruction whose bits are w, numbered as spec/opcode_table.json numbers them, loaded where step
fetches its next instruction (log 12). -/
def State.withFetchWord (s : State) (nbits w : Nat) : State := placeInstr (tableBytes nbits w) s

end Sys2Proof.Machine
end

