-- ==== Sys2Proof/Safety.lean ====
section
/-! DEFINITION. What counts as a good state and as an unchanged part of one, in the terms the statements use. -/

namespace Sys2Proof.Machine

/-! ### What an instruction leaves alone -/

/-- The n bytes just below the stack pointer value S, modulo 2^16: the bytes a frame of n bytes is stored to. -/
def inFrame (S : Word) (n : Nat) (a : Word) : Bool := decide ((a - (S - BitVec.ofNat 16 n)).toNat < n)

/-- Every byte of data memory reads as before. -/
def sameData (s t : State) : Prop := ∀ a, dataByte t a = dataByte s a

/-- Every byte of data memory but the n bytes below S reads as before. -/
def sameDataOutside (S : Word) (n : Nat) (s t : State) : Prop :=
  ∀ a, inFrame S n a = false → dataByte t a = dataByte s a

/-- Every byte of code memory reads as before. -/
def sameCode (s t : State) : Prop := ∀ a, codeByte t a = codeByte s a

/-- Every general register and the Data Segment register are as before, whatever bank RS1 : RS0 selects (log 46). -/
def sameRegs (s t : State) : Prop := (∀ i, regGet t i = regGet s i) ∧ t.ds = s.ds

/-- Every special function register but PSWH and PSWL is as before. -/
def sameSfrs (s t : State) : Prop := ∀ r, r ≠ .pswh → r ≠ .pswl → sfrGet r t = sfrGet r s

/-- Both stack pointers are as before. -/
def sameStacks (s t : State) : Prop := t.ssp = s.ssp ∧ t.usp = s.usp

/-- What none of the nine instructions touches: code memory, the general registers, DS, the configuration, the schedule
of environment moves, the supplied opaque steps. -/
def untouched (s t : State) : Prop :=
  sameCode s t ∧ sameRegs s t ∧ t.cfg = s.cfg ∧ t.inputs = s.inputs ∧ t.supplied = s.supplied

/-! ### The invariant -/

/-- A configuration the spec admits: no two bits and no two registers at one place, SP_RESET is even
(70_reset_and_hazards.md R222), the general registers of the reset image are in canonical form, and a fault of the
XA-G3 is not NMI, which it does not have (60_exceptions.md R147). -/
def configWf (c : Config) : Bool :=
  mapWf c && !isOdd c.spReset && Memory.wf regFill c.image.regs &&
    (nmiPresent c || decide (c.userPswhWrite ≠ .exception .nmi))

/-- Every state a run from a good state reaches has these. -/
structure Inv (s : State) : Prop where
  config : configWf s.cfg = true
  /-- Code memory is in canonical form and inside the 24-bit address space (20_memory.md R70). -/
  codeWf : Memory.wf codeFill s.code = true
  codeWithin : Memory.within (2 ^ 24) s.code = true
  /-- Data memory is in canonical form and inside the 16-bit address space (R77). -/
  dataWf : Memory.wf dataFill s.data = true
  dataWithin : Memory.within (2 ^ 16) s.data = true
  regsWf : Memory.wf regFill s.regs = true
  /-- In Page 0 Mode bits 23 to 16 of the pc are 00h (10_state.md R21, D26). -/
  pcInPage0 : page0Mode s = true → addrHigh s.pc = 0#8
  /-- Bits that are not storage hold nothing (R39, R47). -/
  implemented : ∀ r, sfrGet r s &&& ~~~ sfrMask r s = 0#8
  /-- NMI is never pending on a derivative that does not have it (60_exceptions.md R147). -/
  noNmi : nmiPresent s.cfg = false → s.pending.nmi = false

/-- Both stack pointers and SP_RESET are even, and no opaque step is supplied (20_memory.md R79). -/
structure StacksEven (s : State) : Prop where
  ssp : isOdd s.ssp = false
  usp : isOdd s.usp = false
  spReset : isOdd s.cfg.spReset = false
  noneSupplied : s.supplied = []

/-! ### States from which the machine goes on -/

/-- Every exception, in the order of the vector table. -/
def allExceptions : List Exc := [.reset, .breakpoint, .trace, .stackOverflow, .divideByZero, .userReti, .nmi]

/-- The vectors something can take (20_memory.md R74): the exceptions, the traps, the event and software interrupts. -/
def takenVectors : List Word :=
  allExceptions.map excVector ++ (List.finRange 16).map (fun n => trapVector (BitVec.ofFin n)) ++
    allMaskable.map maskVector

/-- Every vector's ISR address is word-aligned (20_memory.md R84). -/
def vectorsEven (s : State) : Prop := ∀ va ∈ takenVectors, isOdd (codeRead16 s (va + 2#16)) = false

/-- The bytes at the pc are one of the nine instructions in a form of the spec, and not a RESET in User Mode. -/
def instrReady (s : State) : Prop :=
  ∃ i rest, decode (fetchBytes s 4) = .instr i rest ∧ wellFormed s.cfg i = true ∧ (i = .reset → systemMode s = true)

/-- What the source asks of software, as far as this step needs it: aligned stack and vectors, a named instruction; and
USER_PSWH_WRITE is not the fault outside the list of exceptions. -/
structure Ready (s : State) : Prop where
  noFault : s.cfg.userPswhWrite ≠ .fault
  stack : isOdd s.ssp = false
  vectors : vectorsEven s
  instr : instrReady s

/-! ### Orders the statements speak of -/

/-- The service precedence of an exception (60_exceptions.md R140). -/
def excPrecedence : Exc → Nat
  | .breakpoint => 0
  | .trace => 1
  | .stackOverflow => 2
  | .divideByZero => 3
  | .userReti => 4
  | .nmi => 6
  | .reset => 7

/-- m is chosen before m' at equal priority (60_exceptions.md R191): an event before a software interrupt, and of two
events the one of lower arbitration ranking. -/
def chosenBefore (m m' : Maskable) : Prop :=
  match m, m' with
  | .event e, .event e' => eventRank e < eventRank e'
  | .event _, .swi _ => True
  | .swi _, .event _ => False
  | .swi _, .swi _ => False

/-- The request bit the sequence of m clears, if it clears one (60_exceptions.md R187). -/
def clearedRequest : Maskable → Option BitName
  | .event .ext0 => some .ie0
  | .event .ext1 => some .ie1
  | .event .timer0 => some .tf0
  | .event .timer1 => some .tf1
  | _ => none

/-- The request bit a move of the environment sets, if it sets one (00_scope.md R12). -/
def moveSets : EnvMove → Option BitName
  | .extDetect .u0 => some .ie0
  | .extDetect .u1 => some .ie1
  | .timerOverflow .u0 => some .tf0
  | .timerOverflow .u1 => some .tf1
  | .timer2Overflow => some .tf2
  | .t2exFall => some .exf2
  | .serialRx .u0 => some .ri0
  | .serialRx .u1 => some .ri1
  | .serialTx .u0 => some .ti0
  | .serialTx .u1 => some .ti1
  | .serialStatus .u0 => some .ri0
  | .serialStatus .u1 => some .ri1
  | .rstRelease => none
  | .watchdogReset => none
  | .nmiAssert => none
  | .hwBreakpoint => none

/-- The exception a move of the environment raises, if it raises one (00_scope.md R12). -/
def moveRaises : EnvMove → Option Exc
  | .rstRelease => some .reset
  | .watchdogReset => some .reset
  | .nmiAssert => some .nmi
  | .hwBreakpoint => some .breakpoint
  | _ => none

/-- What the pending set p can become by the interrupt sequences of one boundary begun in s: it gains at most
StackOverflow (60_exceptions.md R144) and, at a TRACE_POINT other than the default, Trace. -/
def gainsBySequences (s : State) (p q : Pending) : Prop :=
  (∀ e, p.has e = true → q.has e = true) ∧
  ∀ e, q.has e = true → p.has e = true ∨ e = .stackOverflow ∨ (e = .trace ∧ s.cfg.tracePoint ≠ .beginsTraced)

/-- What the writes of a list leave at x, which held old: the last value written there. -/
def lastWrite {α β : Type} [DecidableEq α] (ws : List (α × β)) (x : α) (old : β) : β :=
  ws.foldl (fun v p => if p.1 = x then p.2 else v) old

/-- A push of an opaque step: whether it is on the System Stack, the stack pointer before it, the word. -/
structure PushAt where
  system : Bool
  before : Word
  value : Word
deriving DecidableEq, Repr

/-- The pushes of a list in order, from the two stack pointers they begin with (20_memory.md R78). -/
def pushesAt (s : State) : List (StackName × Word) → Word → Word → List PushAt
  | [], _, _ => []
  | (n, v) :: ws, ssp, usp =>
    if n.isSystem s then { system := true, before := ssp, value := v } :: pushesAt s ws (ssp - 2#16) usp
    else { system := false, before := usp, value := v } :: pushesAt s ws ssp (usp - 2#16)

/-- The bytes a push stores: the word at the pointer less 2, low-order byte first (20_memory.md R78, D1; log 1). -/
def PushAt.bytes (p : PushAt) : List (Word × Byte) :=
  [(p.before - 2#16, loByte p.value), (p.before - 1#16, hiByte p.value)]

/-- Whether STACK_OVF asks for StackOverflow at the push (60_exceptions.md R144). -/
def PushAt.overflows (p : PushAt) (c : Config) : Bool := stackOvf c p.system p.before (p.before - 2#16)

/-- The bytes written to PSWH by a list of register writes, in order. -/
def pswhWrites (ws : List (Sfr × Byte)) : List Byte := (ws.filter fun p => p.1 = .pswh).map Prod.snd

/-- What a write of v leaves in PSWH, which held old: v in System Mode, its RS1 and RS0 alone in User Mode (10_state.md
R28). -/
def pswhWritten (c : Config) (old v : Byte) : Byte :=
  if old.getLsbD (bitPos c .sm) then v else (v &&& rsMask c) ||| (old &&& ~~~ rsMask c)

/-- Whether a write of v to PSWH, which holds old, is an attempt on a protected bit in User Mode (10_state.md R28; log
16). -/
def pswhAttempt (c : Config) (old v : Byte) : Bool :=
  !old.getLsbD (bitPos c .sm) && decide (v &&& ~~~ rsMask c ≠ old &&& ~~~ rsMask c)

/-- What writes of PSWH in order leave in it. -/
def pswhAfter (c : Config) (vs : List Byte) (old : Byte) : Byte := vs.foldl (pswhWritten c) old

/-- Whether one of writes of PSWH in order is an attempt on a protected bit in User Mode. -/
def pswhAttempted (c : Config) : List Byte → Byte → Bool
  | [], _ => false
  | v :: vs, old => pswhAttempt c old v || pswhAttempted c vs (pswhWritten c old v)

/-- The registers whose write ACCEPT_DELAY names: PSW, IE, IPA, SWR, SWE (00_scope.md R5). -/
def delayedRegisters : List Sfr :=
  [.pswl, .pswh, .iel, .ieh, .ipa0, .ipa1, .ipa2, .ipa3, .ipa4, .ipa5, .swr, .swe]

/-- The bytes a frame of the current mode takes: 6, or 4 in Page 0 Mode (20_memory.md R81, R82). -/
def frameSize (s : State) : Nat := if page0Mode s then 4 else 6

/-- The register and the byte v of `SfrWrite(r, v)` that an instruction executes in a state, for MOV.B, OR.B, SETB and
CLR with an operand the spec names (41_sfr_access_instructions.md R120 to R123). -/
def writtenByte (i : Instr) (s : State) : Option (Sfr × Byte) :=
  match i with
  | .movb a d => (sfrAt s.cfg a).map fun r => (r, d)
  | .orb a d => (sfrAt s.cfg a).map fun r => (r, (sfrRead r s).byte ||| d)
  | .setb b => (bitAt s.cfg b).map fun p => (p.1, (sfrRead p.1 s).byte ||| bitMask p.2)
  | .clr b => (bitAt s.cfg b).map fun p => (p.1, (sfrRead p.1 s).byte &&& ~~~ bitMask p.2)
  | .nop => none
  | .bkpt => none
  | .trap _ => none
  | .reset => none
  | .reti => none

end Sys2Proof.Machine
end

