-- ==== Sys2Proof/Certificates/Slice0/Obligations.lean ====
section
/-! DEFINITION. The statements for the provers. Every one speaks of every configuration and every memory, for both
are part of the state. -/

open Sys2Proof Sys2Proof.Machine

/-! ### Encoding (30_encoding.md R105 to R107) -/

/-- Decoding the encoding of any instruction, with any bytes after it, gives the instruction and those bytes. The
encodings are general knowledge (log 27). -/
def Obligations.DecodeAfterEncodeIsIdentity : Prop :=
  ∀ (i : Instr) (rest : List Byte), decode (encode i ++ rest) = .instr i rest ∧ (encode i).length = i.length

/-- The decoder reads an instruction from its encoding alone: whatever it reads, the bytes are that instruction's
encoding and the rest; and of four bytes or more that are no encoding it says so by name. The encodings are general
knowledge (log 27). -/
def Obligations.DecoderReadsOnlyEncodings : Prop :=
  (∀ (bs : List Byte) (i : Instr) (rest : List Byte), decode bs = .instr i rest → bs = encode i ++ rest) ∧
  (∀ bs : List Byte, 4 ≤ bs.length → (∀ i rest, bs ≠ encode i ++ rest) → decode bs = .rejected .notNamed)

/-- The worked encodings of R106, as byte strings, decode to the instructions they stand for: PSWH is at 401h, PSWL at
400h, SWE at 47Ah, SWR1 is bit 350h. The encodings are general knowledge (log 27), and so are PSWL's address and the
numbering of bits in the default map (log 25). -/
def Obligations.WorkedEncodingsDecode : Prop :=
  decode [0x96, 0x48, 0x01, 0x80] = .instr (.movb 0x401 0x80) [] ∧
  decode [0x96, 0x48, 0x00, 0x00] = .instr (.movb 0x400 0x00) [] ∧
  decode [0x96, 0x46, 0x7A, 0x01] = .instr (.orb 0x47A 0x01) [] ∧
  decode [0x08, 0x13, 0x50] = .instr (.setb 0x350) [] ∧
  decode [0x08, 0x03, 0x50] = .instr (.clr 0x350) [] ∧
  decode [0xD6, 0x35] = .instr (.trap 5) [] ∧
  sfrAt Config.g3Default 0x401 = some .pswh ∧ sfrAt Config.g3Default 0x400 = some .pswl ∧
  sfrAt Config.g3Default 0x47A = some .swe ∧ bitAt Config.g3Default 0x350 = some (.swr, 0)

/-- A bit address names bit n of the register at A exactly when it is 200h + 8 (A - 400h) + n and the register is bit
addressable, in every map a chip can have; a direct address names the register it is the address of; and the addresses
the source prints are the same in every configuration. The bit numbers and the other addresses are general knowledge,
parameters of the configuration (log 25). -/
def Obligations.BitAddressesNameTheirBits : Prop :=
  (∀ (c : Config) (b : BitVec 10) (r : Sfr) (n : Nat), mapWf c = true →
    (bitAt c b = some (r, n) ↔
      bitAddressable r = true ∧ n < 8 ∧ b.toNat = 0x200 + 8 * ((sfrAddr c r).toNat - 0x400) + n)) ∧
  (∀ (c : Config) (a : BitVec 11) (r : Sfr), mapWf c = true → (sfrAt c a = some r ↔ sfrAddr c r = a)) ∧
  (∀ c : Config, sfrAddr c .pswh = 0x401#11 ∧ sfrAddr c .tcon = 0x410#11 ∧ sfrAddr c .t2con = 0x418#11 ∧
    sfrAddr c .s0con = 0x420#11 ∧ sfrAddr c .iel = 0x426#11 ∧ sfrAddr c .ieh = 0x427#11 ∧
    sfrAddr c .swr = 0x42A#11 ∧ sfrAddr c .swe = 0x47A#11)

/-! ### The step -/

/-- Where the boundary takes nothing and the bytes at the pc decode to a well-formed instruction i, step is exec of i
at the state after the environment's moves; where they do not, and the next opaque step supplied is a meaning of them,
step is execOpaque of it, and it is used up. When the instruction completes, the ACCEPT_DELAY shadow is set or cleared
and Trace is raised where TRACE_POINT says so, and nothing else is added. TRACE_POINT and ACCEPT_DELAY are parameters,
read as log 18 and log 19 say; that a boundary is between two instructions is log 7, opaque steps are D35 (log 28). -/
def Obligations.StepRunsTheDecodedInstruction : Prop :=
  (∀ (s u : State) (i : Instr) (rest : List Byte),
    u = takeInputs s → u.pending = Pending.empty → acceptable u = none →
    decode (fetchBytes u 4) = .instr i rest → wellFormed u.cfg i = true →
    (∀ t, exec i u = .next t →
      step s = .next { t with
        hold := holdAfter u.cfg (instrDelays u.cfg i)
        pending := if traceRaised (.instruction (encode i)) u t then t.pending.add .trace else t.pending }) ∧
    (∀ r, exec i u = .fault r → step s = .fault r) ∧
    (∀ r, exec i u = .refused r → step s = .refused r)) ∧
  (∀ (s u : State) (o : OpaqueStep) (os : List OpaqueStep),
    u = takeInputs s → u.pending = Pending.empty → acceptable u = none →
    (∀ i rest, decode (fetchBytes u 4) = .instr i rest → wellFormed u.cfg i = false) →
    u.supplied = o :: os → opaqueMatches o u = true →
    (∀ t, execOpaque o { u with supplied := os } = .next t →
      step s = .next { t with
        hold := holdAfter u.cfg (opaqueDelays o)
        pending := if traceRaised (.instruction o.bytes) u t then t.pending.add .trace else t.pending }) ∧
    (∀ r, execOpaque o { u with supplied := os } = .fault r → step s = .fault r) ∧
    (∀ r, execOpaque o { u with supplied := os } ≠ .refused r))

/-- An instruction that begins with TM = 1 raises Trace when it completes, at the default TRACE_POINT, and no interrupt
sequence does; at any TRACE_POINT what completes with TM = 0 before and after raises none. The default is the model's
reading of an open point (log 18). -/
def Obligations.TraceRaisedOnlyInTraceMode : Prop :=
  ∀ (s t : State) (bytes : List Byte) (delays : Bool),
    (s.cfg.tracePoint = .beginsTraced → traceMode s = true →
      (finishState bytes delays s t).pending = t.pending.add .trace) ∧
    (traceMode s = false → traceMode t = false → (finishState bytes delays s t).pending = t.pending) ∧
    (s.cfg.tracePoint = .beginsTraced → traceMode s = false →
      (finishState bytes delays s t).pending = t.pending) ∧
    (s.cfg.tracePoint = .beginsTraced ∨ (traceMode s = false ∧ traceMode t = false) →
      (traceAfter .sequence s t).pending = t.pending)

/-- ACCEPT_DELAY = one instruction: after RETI, or a write of PSW, IE, IPA, SWR or SWE, no maskable interrupt is
accepted at the next boundary; after another instruction, or with ACCEPT_DELAY = none, the boundary is as R191 says.
The instructions it names are RETI, MOV.B, OR.B, SETB and CLR with an operand that names one of those registers, and
opaque steps that write one. The parameter's reading is the model's (log 19). -/
def Obligations.AcceptDelayShadow : Prop :=
  (∀ (s t : State) (bytes : List Byte) (delays : Bool),
    (s.cfg.acceptDelay = .oneInstruction → delays = true → acceptable (finishState bytes delays s t) = none) ∧
    (s.cfg.acceptDelay = .none ∨ delays = false →
      acceptable (finishState bytes delays s t) = selectMaskable (finishState bytes delays s t))) ∧
  (∀ (c : Config) (i : Instr), instrDelays c i = true ↔
    i = .reti ∨
    (∃ a d r, (i = .movb a d ∨ i = .orb a d) ∧ sfrAt c a = some r ∧ r ∈ delayedRegisters) ∨
    (∃ b r n, (i = .setb b ∨ i = .clr b) ∧ bitAt c b = some (r, n) ∧ r ∈ delayedRegisters)) ∧
  (∀ o : OpaqueStep, opaqueDelays o = true ↔ ∃ p ∈ o.sfrs, p.1 ∈ delayedRegisters) ∧
  (∀ r : Sfr, r ∈ delayedRegisters ↔
    r = .pswl ∨ r = .pswh ∨ r = .iel ∨ r = .ieh ∨ r = .ipa0 ∨ r = .ipa1 ∨ r = .ipa2 ∨ r = .ipa3 ∨ r = .ipa4 ∨
      r = .ipa5 ∨ r = .swr ∨ r = .swe)

/-- Forms outside the spec with no opaque step supplied for them are refused, each by its own name: bytes that are none
of the nine instructions, a direct address that names no register, a bit address that names no bit of a bit-addressable
register; step refuses them as exec does. The refusals are decision D35 (log 28); what the operands name rests on the
map (log 25). -/
def Obligations.UnnamedFormsRefused : Prop :=
  (∀ s u : State, u = takeInputs s → u.pending = Pending.empty → acceptable u = none →
    (∀ o os, u.supplied = o :: os → opaqueMatches o u = false) →
    (∀ why : DecodeReject, decode (fetchBytes u 4) = .rejected why → step s = .refused .notNamed) ∧
    (∀ i rest, decode (fetchBytes u 4) = .instr i rest → wellFormed u.cfg i = false → step s = exec i u)) ∧
  (∀ (s : State) (a : BitVec 11) (d : Byte), sfrAt s.cfg a = none →
    exec (.movb a d) s = .refused .directNotSfr ∧ exec (.orb a d) s = .refused .directNotSfr) ∧
  (∀ (s : State) (b : BitVec 10), bitAt s.cfg b = none →
    exec (.setb b) s = .refused .bitNotSfr ∧ exec (.clr b) s = .refused .bitNotSfr)

/-- No step writes code memory, whatever runs, and none changes the configuration. That no instruction writes code
memory is decision D22 (log 37); that the implementation parameters are a field of the state which no step changes is
log 14. -/
def Obligations.CodeMemoryConstant : Prop :=
  ∀ s t : State, step s = .next t → (∀ a, codeByte t a = codeByte s a) ∧ t.cfg = s.cfg

/-! ### The interrupt sequence (60_exceptions.md R133, R134; 20_memory.md R81, R82) -/

/-- The primitives of R78. A push decrements the pointer by 2 modulo 2^16, writes the word at the new address and
raises StackOverflow where STACK_OVF says so; a pop reads the word at the pointer and increments it by 2. The mechanics
of push and pop are decision D3 (log 3). -/
def Obligations.PushAndPopSystemStack : Prop :=
  ∀ (s : State) (v : Word),
    (pushSys v s).ssp = s.ssp - 2#16 ∧ memRead16 (pushSys v s) (s.ssp - 2#16) = v ∧
    (∀ a, inFrame s.ssp 2 a = false → dataByte (pushSys v s) a = dataByte s a) ∧
    (pushSys v s).pending =
      (if stackOvf s.cfg true s.ssp (s.ssp - 2#16) then s.pending.add .stackOverflow else s.pending) ∧
    topSys s = memRead16 s s.ssp ∧ (dropSys s).ssp = s.ssp + 2#16 ∧
    topSys (pushSys v s) = v ∧ (dropSys (pushSys v s)).ssp = s.ssp

/-- A push by an instruction goes to the stack it names, the current one being SSP in System Mode and USP in User Mode:
that pointer is 2 lower and the word stands at it; the other pointer, the registers and every byte outside the pushed
word stay, and STACK_OVF is asked about that pointer. Two stack pointers chosen by SM are decision D4 (log 5), the push
is D3 (log 3). The form of such a push is log 29. That it changes no special function register and no x[i] is the
model's choice (log 44), x[7] among them, which is no stack pointer (log 45). -/
def Obligations.PushOnTheNamedStack : Prop :=
  (∀ (s : State) (n : StackName) (v : Word), let t := pushOn n v s
    (n.isSystem s = true → t.ssp = s.ssp - 2#16 ∧ t.usp = s.usp ∧ memRead16 t (s.ssp - 2#16) = v ∧
      sameDataOutside s.ssp 2 s t ∧
      t.pending = (if stackOvf s.cfg true s.ssp (s.ssp - 2#16) then s.pending.add .stackOverflow else s.pending)) ∧
    (n.isSystem s = false → t.usp = s.usp - 2#16 ∧ t.ssp = s.ssp ∧ memRead16 t (s.usp - 2#16) = v ∧
      sameDataOutside s.usp 2 s t ∧
      t.pending = (if stackOvf s.cfg false s.usp (s.usp - 2#16) then s.pending.add .stackOverflow else s.pending)) ∧
    psw t = psw s ∧ t.pc = s.pc ∧ sameSfrs s t ∧ untouched s t) ∧
  (∀ s : State, StackName.current.isSystem s = systemMode s ∧ StackName.system.isSystem s = true ∧
    StackName.user.isSystem s = false)

/-- The frames. In 24-bit mode 6 bytes: PC[15:0] at S - 2, zext_16 of PC[23:16] at S - 4, the old PSW at S - 6. In Page
0 Mode 4 bytes: PC[15:0] at S - 2, the old PSW at S - 4. SSP is 6 or 4 lower, the pc and the PSW are untouched until
the vector is loaded, and no other byte of memory changes. The addresses of the slots rest on the push mechanics of
decision D3 (log 3); which byte of the second word is the pad is decision D2 (log 2). That pushes change no register is
log 44. -/
def Obligations.FramesOfTheTwoModes : Prop :=
  ∀ (s : State) (ret : CodeAddr), let t := pushFrame ret s
    (page0Mode s = false →
      t.ssp = s.ssp - 6#16 ∧
      memRead16 t (s.ssp - 2#16) = addrLow ret ∧
      memRead16 t (s.ssp - 4#16) = (addrHigh ret).setWidth 16 ∧
      memRead16 t (s.ssp - 6#16) = psw s ∧ sameDataOutside s.ssp 6 s t) ∧
    (page0Mode s = true →
      t.ssp = s.ssp - 4#16 ∧
      memRead16 t (s.ssp - 2#16) = addrLow ret ∧
      memRead16 t (s.ssp - 4#16) = psw s ∧ sameDataOutside s.ssp 4 s t) ∧
    t.pc = s.pc ∧ psw t = psw s ∧ t.usp = s.usp ∧ sameSfrs s t ∧ untouched s t

/-- The one sequence: with an even System Stack pointer and an even ISR address it completes, with the frame of
PushFrame in memory, all 16 bits of the PSW and the pc from the vector, and nothing else changed but the pending set,
which may gain StackOverflow; otherwise it is refused. The two refusals are decisions D3 and D18 (log 4, log 8). A
change of RS1 : RS0 changes no x[i] (log 46). The addresses of the frame's words rest on the push mechanics of D3 (log
3); that pushes change no register is log 44. -/
def Obligations.InterruptSequence : Prop :=
  ∀ (s : State) (va : Word) (ret : CodeAddr),
    (isOdd s.ssp = false → isOdd (codeRead16 s (va + 2#16)) = false →
      ∃ t, service va ret s = .next t ∧
        psw t = codeRead16 s va ∧ t.pc = page0 (codeRead16 s (va + 2#16)) ∧
        t.ssp = s.ssp - BitVec.ofNat 16 (frameSize s) ∧ t.usp = s.usp ∧
        (∀ a, dataByte t a = dataByte (pushFrame ret s) a) ∧ sameDataOutside s.ssp (frameSize s) s t ∧
        sameSfrs s t ∧ untouched s t ∧ t.hold = s.hold ∧
        (t.pending = s.pending ∨ t.pending = s.pending.add .stackOverflow)) ∧
    (isOdd s.ssp = true → service va ret s = .refused .oddStackPointer) ∧
    (isOdd s.ssp = false → isOdd (codeRead16 s (va + 2#16)) = true → service va ret s = .refused .oddVectorTarget)

/-- At the default STACK_OVF a sequence raises StackOverflow exactly when its frame crosses 0080h: the pointer was
0080h or above and the frame reaches below. Once it is below, no further sequence raises it. The default predicate is
decision D14 (log 17). -/
def Obligations.StackOverflowOncePerCrossing : Prop :=
  ∀ (s t : State) (va : Word) (ret : CodeAddr),
    s.cfg.stackOvf = .crossing → service va ret s = .next t →
    t.pending =
      if 0x80 ≤ s.ssp.toNat ∧ s.ssp.toNat < 0x80 + frameSize s then s.pending.add .stackOverflow else s.pending

/-- Sequence and RETI are inverse: a handler that runs in System Mode and leaves PZ, SSP and the bytes of its frame as
it found them returns by RETI to the interrupted code, with its PSW and its stack pointer. PC bits 23 to 16 in Page 0
Mode are 00h by decision D26 (log 32). Where the frame lies rests on D3 (log 3). -/
def Obligations.RetiUndoesTheSequence : Prop :=
  ∀ (s t u : State) (va : Word) (ret : CodeAddr),
    service va ret s = .next t →
    systemMode u = true → page0Mode u = page0Mode s → u.ssp = t.ssp →
    (∀ a, inFrame s.ssp (frameSize s) a = true → dataByte u a = dataByte t a) →
    ∃ v, exec .reti u = .next v ∧
      v.pc = modeAddr s ret ∧ psw v = psw s ∧ v.ssp = s.ssp ∧ v.usp = u.usp ∧ sameData u v

/-- Frames of the two sizes mixed: what RETI makes of a frame of the other size. It pops by the PZ it finds. An
inference of the spec (R83), with the byte lane of D2 (log 2). -/
def Obligations.MixedFrameSizes : Prop :=
  (∀ (s t u : State) (va : Word) (ret : CodeAddr),
    page0Mode s = false → service va ret s = .next t →
    systemMode u = true → page0Mode u = true → u.ssp = t.ssp → (∀ a, dataByte u a = dataByte t a) →
    ∃ v, exec .reti u = .next v ∧
      v.pc = page0 ((addrHigh ret).setWidth 16) ∧ psw v = psw s ∧ v.ssp = s.ssp - 2#16) ∧
  (∀ (s t u : State) (va : Word) (ret : CodeAddr),
    page0Mode s = true → service va ret s = .next t →
    systemMode u = true → page0Mode u = false → u.ssp = t.ssp → (∀ a, dataByte u a = dataByte t a) →
    ∃ v, exec .reti u = .next v ∧
      v.pc = mkAddr (loByte (addrLow ret)) (memRead16 u s.ssp) ∧ psw v = psw s ∧ v.ssp = s.ssp + 2#16)

/-- The vector addresses of the table of R74. -/
def Obligations.VectorAddresses : Prop :=
  excVector .reset = 0x0000#16 ∧ excVector .breakpoint = 0x0004#16 ∧ excVector .trace = 0x0008#16 ∧
  excVector .stackOverflow = 0x000C#16 ∧ excVector .divideByZero = 0x0010#16 ∧ excVector .userReti = 0x0014#16 ∧
  excVector .nmi = 0x009C#16 ∧
  (∀ n : BitVec 4, (trapVector n).toNat = 0x40 + 4 * n.toNat) ∧
  (∀ e : EventSource, (eventVector e).toNat = 0x80 + 4 * eventSlot e) ∧
  (∀ k : Fin 7, (swiVector k).toNat = 0x100 + 4 * k.val)

/-! ### TRAP, RETI, BKPT, RESET, NOP -/

/-- TRAP #n with an even System Stack pointer and an even ISR address completes, in either mode and at any IM, with the
frame for the next instruction and the vector of trap n; otherwise it is refused. The refusals are decisions D3 and D18
(log 4, log 8); the slots of the frame rest on D3 and, for the word at S - 4, on the byte lane of D2 (log 3, log 2);
the length is general knowledge (log 27). A change of RS1 : RS0 changes no x[i] (log 46). That pushes change no
register is log 44. -/
def Obligations.TrapTakesItsVector : Prop :=
  (∀ (s : State) (n : BitVec 4), isOdd s.ssp = false → isOdd (codeRead16 s (trapVector n + 2#16)) = false →
    ∃ t, exec (.trap n) s = .next t ∧
      psw t = codeRead16 s (0x40#16 + 4#16 * n.setWidth 16) ∧
      t.pc = page0 (codeRead16 s (0x42#16 + 4#16 * n.setWidth 16)) ∧
      t.ssp = s.ssp - BitVec.ofNat 16 (frameSize s) ∧ t.usp = s.usp ∧
      memRead16 t (s.ssp - 2#16) = addrLow (s.pc + 2#24) ∧
      (page0Mode s = false → memRead16 t (s.ssp - 4#16) = (addrHigh (s.pc + 2#24)).setWidth 16) ∧
      memRead16 t t.ssp = psw s ∧
      sameDataOutside s.ssp (frameSize s) s t ∧ sameSfrs s t ∧ untouched s t ∧ t.hold = s.hold ∧
      (t.pending = s.pending ∨ t.pending = s.pending.add .stackOverflow)) ∧
  (∀ (s : State) (n : BitVec 4), isOdd s.ssp = true → exec (.trap n) s = .refused .oddStackPointer) ∧
  (∀ (s : State) (n : BitVec 4), isOdd s.ssp = false → isOdd (codeRead16 s (trapVector n + 2#16)) = true →
    exec (.trap n) s = .refused .oddVectorTarget)

/-- RETI in System Mode with an even System Stack pointer completes: the PSW from SSP, the return address from the
words above it, 6 or 4 bytes popped by PZ, the pad byte ignored; nothing else changes. With an odd pointer it is
refused. The pad byte's lane is decision D2 (log 2), the pops and the refusal are D3 (log 3, log 4). A change of RS1 :
RS0 changes no x[i] (log 46). -/
def Obligations.RetiPopsTheFrame : Prop :=
  (∀ s : State, systemMode s = true → isOdd s.ssp = false →
    ∃ t, exec .reti s = .next t ∧
      psw t = memRead16 s s.ssp ∧
      (page0Mode s = false →
        t.pc = mkAddr (dataByte s (s.ssp + 2#16)) (memRead16 s (s.ssp + 4#16)) ∧ t.ssp = s.ssp + 6#16) ∧
      (page0Mode s = true → t.pc = page0 (memRead16 s (s.ssp + 2#16)) ∧ t.ssp = s.ssp + 4#16) ∧
      t.usp = s.usp ∧ t.pending = s.pending ∧ sameData s t ∧ sameSfrs s t ∧ untouched s t ∧ t.hold = s.hold) ∧
  (∀ s : State, systemMode s = true → isOdd s.ssp = true → exec .reti s = .refused .oddStackPointer)

/-- RETI in User Mode: nothing is popped, UserRETI is raised, the pc is at the next instruction. Decision D13 (log 31).
-/
def Obligations.RetiInUserModeRaisesUserReti : Prop :=
  ∀ s : State, systemMode s = false →
    ∃ t, exec .reti s = .next t ∧
      t.pending = s.pending.add .userReti ∧ t.pc = modeAddr s (s.pc + 2#24) ∧
      psw t = psw s ∧ sameStacks s t ∧ sameData s t ∧ sameSfrs s t ∧ untouched s t ∧ t.hold = s.hold

/-- BKPT completes in every state: Breakpoint is raised, the pc is at the next instruction, nothing else changes. The
length is general knowledge (log 27). -/
def Obligations.BkptRaisesBreakpoint : Prop :=
  ∀ s : State, ∃ t, exec .bkpt s = .next t ∧
    t.pending = s.pending.add .breakpoint ∧ t.pc = modeAddr s (s.pc + 1#24) ∧
    psw t = psw s ∧ sameStacks s t ∧ sameData s t ∧ sameSfrs s t ∧ untouched s t ∧ t.hold = s.hold

/-- Two steps at BKPT with nothing else pending and TM = 0: the Breakpoint handler is entered through 0004h with a
frame that holds the whole address of the next instruction and the PSW as it was. The boundary after the instruction is
decision D6 (log 7); the word at S - 4 is laid out by D2 (log 2). A change of RS1 : RS0 changes no x[i] (log 46). The
addresses of the frame's words rest on the push mechanics of D3 (log 3); that pushes change no register is log 44. -/
def Obligations.BkptEntersItsHandler : Prop :=
  ∀ (s : State) (rest : List Byte),
    s.inputs = [] → s.pending = Pending.empty → acceptable s = none → traceMode s = false →
    decode (fetchBytes s 4) = .instr .bkpt rest →
    isOdd s.ssp = false → isOdd (codeRead16 s 0x0006#16) = false →
    ∃ t u, step s = .next t ∧ step t = .next u ∧
      psw u = codeRead16 s 0x0004#16 ∧ u.pc = page0 (codeRead16 s 0x0006#16) ∧
      u.ssp = s.ssp - BitVec.ofNat 16 (frameSize s) ∧
      memRead16 u (s.ssp - 2#16) = addrLow (s.pc + 1#24) ∧
      (page0Mode s = false → memRead16 u (s.ssp - 4#16) = (addrHigh (s.pc + 1#24)).setWidth 16) ∧
      memRead16 u u.ssp = psw s ∧
      sameDataOutside s.ssp (frameSize s) s u ∧ sameSfrs s u ∧ untouched s u

/-- Two steps at RETI in User Mode with nothing else pending and TM = 0: the User RETI handler is entered through 0014h
with the whole address of the instruction after the RETI, on top of the old frame. Decisions D6 and D13 (log 7, log
31); the word at S - 4 is laid out by D2 (log 2). A change of RS1 : RS0 changes no x[i] (log 46). The addresses of the
frame's words rest on the push mechanics of D3 (log 3); that pushes change no register is log 44. -/
def Obligations.UserRetiEntersItsHandler : Prop :=
  ∀ (s : State) (rest : List Byte),
    s.inputs = [] → s.pending = Pending.empty → acceptable s = none → traceMode s = false → systemMode s = false →
    decode (fetchBytes s 4) = .instr .reti rest →
    isOdd s.ssp = false → isOdd (codeRead16 s 0x0016#16) = false →
    ∃ t u, step s = .next t ∧ step t = .next u ∧
      psw u = codeRead16 s 0x0014#16 ∧ u.pc = page0 (codeRead16 s 0x0016#16) ∧
      u.ssp = s.ssp - BitVec.ofNat 16 (frameSize s) ∧
      memRead16 u (s.ssp - 2#16) = addrLow (s.pc + 2#24) ∧
      (page0Mode s = false → memRead16 u (s.ssp - 4#16) = (addrHigh (s.pc + 2#24)).setWidth 16) ∧
      memRead16 u u.ssp = psw s ∧
      sameDataOutside s.ssp (frameSize s) s u ∧ sameSfrs s u ∧ untouched s u

/-- RESET completes in System Mode by raising Reset; in User Mode it is refused. The refusal is decision D34 (log 30);
that the pc stays is log 35. -/
def Obligations.ResetInstructionRaisesReset : Prop :=
  (∀ s : State, systemMode s = true → ∃ t, exec .reset s = .next t ∧
    t.pending = s.pending.add .reset ∧ t.pc = s.pc ∧ psw t = psw s ∧ sameStacks s t ∧ sameData s t ∧ sameSfrs s t ∧
    untouched s t ∧ t.hold = s.hold) ∧
  (∀ s : State, systemMode s = false → exec .reset s = .refused .resetInUserMode)

/-- NOP changes nothing but the pc. That NOP does nothing else is general knowledge (log 27). -/
def Obligations.NopAdvancesThePc : Prop :=
  ∀ s : State, ∃ t, exec .nop s = .next t ∧ t.pc = modeAddr s (s.pc + 1#24) ∧
    psw t = psw s ∧ sameStacks s t ∧ t.pending = s.pending ∧ sameData s t ∧ sameSfrs s t ∧ untouched s t ∧
    t.hold = s.hold ∧ t.freeCtr = s.freeCtr

/-! ### MOV.B, OR.B, SETB, CLR on special function registers -/

/-- MOV.B to a register other than PSWL, and in System Mode for PSWH: the register takes the implemented bits of the
constant; PSWL's flags are open, every other register, both stacks and all of memory are as before. Open flags: log 15;
which bits are implemented: log 26; the pc after a change of PZ: log 32; a change of RS1 : RS0 changes no x[i]: log 46.
-/
def Obligations.MovbWritesTheRegister : Prop :=
  ∀ (s : State) (a : BitVec 11) (d : Byte) (r : Sfr),
    sfrAt s.cfg a = some r → r ≠ .pswl → (r = .pswh → systemMode s = true) →
    ∃ t, exec (.movb a d) s = .next t ∧
      sfrGet r t = d &&& sfrMask r s ∧ (∀ r', r' ≠ r → r' ≠ .pswl → sfrGet r' t = sfrGet r' s) ∧
      t.pc = modeAddr t (modeAddr s (s.pc + 4#24)) ∧ sameStacks s t ∧ t.pending = s.pending ∧
      sameData s t ∧ untouched s t ∧ t.hold = s.hold

/-- OR.B likewise: the bits that are 1 in the constant are set and the others stay. As for MOV.B: log 15, log 26, log
32, log 46. -/
def Obligations.OrbSetsBitsOfTheRegister : Prop :=
  ∀ (s : State) (a : BitVec 11) (d : Byte) (r : Sfr),
    sfrAt s.cfg a = some r → r ≠ .pswl → (r = .pswh → systemMode s = true) →
    ∃ t, exec (.orb a d) s = .next t ∧
      sfrGet r t = (sfrGet r s ||| d) &&& sfrMask r s ∧
      (∀ r', r' ≠ r → r' ≠ .pswl → sfrGet r' t = sfrGet r' s) ∧
      t.pc = modeAddr t (modeAddr s (s.pc + 4#24)) ∧ sameStacks s t ∧ t.pending = s.pending ∧
      sameData s t ∧ untouched s t ∧ t.hold = s.hold

/-- MOV.B and OR.B to PSWL complete in either mode: the flags are open, everything else is as before. Open flags: log
15. -/
def Obligations.MovbAndOrbOnPswlComplete : Prop :=
  ∀ (s : State) (a : BitVec 11) (d : Byte) (i : Instr),
    sfrAt s.cfg a = some .pswl → i = .movb a d ∨ i = .orb a d →
    ∃ t, exec i s = .next t ∧ t.pswh = s.pswh ∧ t.pc = modeAddr s (s.pc + 4#24) ∧ sameStacks s t ∧
      t.pending = s.pending ∧ sameData s t ∧ sameSfrs s t ∧ untouched s t ∧ t.hold = s.hold

/-- SETB sets its bit and changes no other implemented bit of the register and no other register. That no flag of PSWL
changes but by its own bit is the model's choice (log 15): N22 of 91_not_in_source.md says not to assume it. Which bits
are implemented: log 26; a change of RS1 : RS0 changes no x[i]: log 46. PSWH in User Mode is UserModeWriteOfPswh. -/
def Obligations.SetbSetsOneBit : Prop :=
  ∀ (s : State) (b : BitVec 10) (r : Sfr) (n : Nat),
    bitAt s.cfg b = some (r, n) → (r = .pswh → systemMode s = true) →
    ∃ t, exec (.setb b) s = .next t ∧
      (∀ k, (sfrMask r s).getLsbD k = true →
        (sfrGet r t).getLsbD k = (decide (k = n) || (sfrGet r s).getLsbD k)) ∧
      (∀ r', r' ≠ r → sfrGet r' t = sfrGet r' s) ∧
      t.pc = modeAddr s (s.pc + 3#24) ∧ sameStacks s t ∧ t.pending = s.pending ∧
      sameData s t ∧ untouched s t ∧ t.hold = s.hold

/-- CLR clears its bit and changes no other implemented bit of the register and no other register. That no flag of PSWL
changes but by its own bit is the model's choice (log 15): N22 of 91_not_in_source.md says not to assume it. Which bits
are implemented: log 26; a change of RS1 : RS0 changes no x[i]: log 46. PSWH in User Mode is UserModeWriteOfPswh. -/
def Obligations.ClrClearsOneBit : Prop :=
  ∀ (s : State) (b : BitVec 10) (r : Sfr) (n : Nat),
    bitAt s.cfg b = some (r, n) → (r = .pswh → systemMode s = true) →
    ∃ t, exec (.clr b) s = .next t ∧
      (∀ k, (sfrMask r s).getLsbD k = true →
        (sfrGet r t).getLsbD k = (!decide (k = n) && (sfrGet r s).getLsbD k)) ∧
      (∀ r', r' ≠ r → sfrGet r' t = sfrGet r' s) ∧
      t.pc = modeAddr s (s.pc + 3#24) ∧ sameStacks s t ∧ t.pending = s.pending ∧
      sameData s t ∧ untouched s t ∧ t.hold = s.hold

/-- A write of PSWH in User Mode, by any of the four instructions: RS1 and RS0 take the written bits and the other six
stay, the pc is at the next instruction, and SETB and CLR leave the flags; an attempt on those six does what
USER_PSWH_WRITE says. That an attempt is a written byte that differs there is the model's reading (log 16). That SETB
and CLR leave the flags is the model's choice (log 15): N22 of 91_not_in_source.md says not to assume it. Which bits of
PSWH are RS1 and RS0 is general knowledge, a parameter of the configuration (log 25), so the bits are named; a change
of them changes no x[i] (log 46). -/
def Obligations.UserModeWriteOfPswh : Prop :=
  ∀ (s : State) (i : Instr) (v : Byte), writtenByte i s = some (.pswh, v) → systemMode s = false →
    let attempt := (v &&& ~~~ rsMask s.cfg) ≠ (s.pswh &&& ~~~ rsMask s.cfg)
    let completes := fun (p : Pending) => ∃ t, exec i s = .next t ∧
      t.pswh = (v &&& rsMask s.cfg) ||| (s.pswh &&& ~~~ rsMask s.cfg) ∧
      (mapWf s.cfg = true →
        (∀ b ∈ [BitName.sm, .tm, .im3, .im2, .im1, .im0], bitOf b t = bitOf b s) ∧
        ∀ b ∈ [BitName.rs1, .rs0], bitOf b t = v.getLsbD (bitPos s.cfg b)) ∧
      t.pc = modeAddr s (s.pc + BitVec.ofNat 24 i.length) ∧
      t.pending = p ∧ sameStacks s t ∧ sameData s t ∧ sameSfrs s t ∧
      untouched s t ∧ t.hold = s.hold ∧ ((∃ b, i = .setb b ∨ i = .clr b) → t.pswl = s.pswl)
    (¬ attempt ∨ s.cfg.userPswhWrite = .ignore → completes s.pending) ∧
    (∀ e, attempt → s.cfg.userPswhWrite = .exception e → completes (s.pending.add e)) ∧
    (attempt → s.cfg.userPswhWrite = .fault → exec i s = .fault .protectedPswhWrite)

/-- The IPA registers of the XA-G3: MOV.B stores w & 77h, so bits 3 and 7 read 0 afterwards; 0001b and 1001b in either
nibble give the same contents and priority 9; reset leaves every IPA register 0. IPA3 is of these only where the
configuration has it; where it is absent a write to it stores nothing (log 43). Reset leaves 0 for every source by D17
(log 35), R39 speaks of power-up alone. -/
def Obligations.IpaRegistersOfTheG3 : Prop :=
  ∀ s : State, s.cfg.derivative = .g3 →
    (∀ r ∈ [Sfr.ipa0, .ipa1, .ipa2, .ipa3, .ipa4, .ipa5], (r = .ipa3 → s.cfg.ipa3Present = true) →
      (∀ a w, sfrAt s.cfg a = some r → ∃ t, exec (.movb a w) s = .next t ∧ sfrGet r t = w &&& 0x77#8 ∧
        (sfrRead r t).byte = w &&& 0x77#8) ∧
      (∀ (e : EventSource) (a : BitVec 11) (w : Byte), ipaOf e = r → sfrAt s.cfg a = some r →
        (eventSlot e % 2 = 0 → w.extractLsb' 0 4 = 0x1#4 ∨ w.extractLsb' 0 4 = 0x9#4) →
        (eventSlot e % 2 = 1 → w.extractLsb' 4 4 = 0x1#4 ∨ w.extractLsb' 4 4 = 0x9#4) →
        ∃ t, exec (.movb a w) s = .next t ∧ eventField e t = 0x1#4 ∧ eventPrio e t = 9)) ∧
    (∀ r ∈ [Sfr.ipa0, .ipa1, .ipa2, .ipa3, .ipa4, .ipa5], ∀ t, doReset s = .next t → sfrGet r t = 0#8) ∧
    (∀ a w, s.cfg.ipa3Present = false → sfrAt s.cfg a = some .ipa3 →
      ∃ t, exec (.movb a w) s = .next t ∧ sfrGet .ipa3 t = 0#8)

/-- In User Mode no instruction but TRAP changes a bit of PSWH other than RS1 and RS0: not SM, TM or IM3 to IM0; only
TRAP enters System Mode. An opaque step changes none of them either. Which bits RS1, RS0 and TM are is general
knowledge, a parameter of the configuration (log 25); RETI in User Mode is decision D13 (log 31), opaque steps are D35
(log 29). -/
def Obligations.UserModeKeepsTheProtectedBits : Prop :=
  let kept := fun s t : State =>
    t.pswh &&& ~~~ rsMask s.cfg = s.pswh &&& ~~~ rsMask s.cfg ∧
      (mapWf s.cfg = true → systemMode t = false ∧ traceMode t = traceMode s ∧ intMask t = intMask s)
  (∀ (i : Instr) (s t : State), systemMode s = false → exec i s = .next t → (∀ n, i ≠ .trap n) → kept s t) ∧
  (∀ (o : OpaqueStep) (s t : State), mapWf s.cfg = true → systemMode s = false → execOpaque o s = .next t → kept s t)

/-! ### Priorities and the selection of a maskable interrupt -/

/-- The priority function: the field itself in the family; on the XA-G3 0 for 0 and 8 + f for f from 1 to 7, which is
the family's of the nibble with its top bit forced to 1, or 0 when it is zero; so an event of the XA-G3 has priority 0
or 9 to 15. The last two clauses are the spec's own inferences from the table of values. -/
def Obligations.PriorityFunction : Prop :=
  (∀ f : BitVec 4, prio .family f = f.toNat) ∧
  (prio .g3 0#4 = 0) ∧
  (∀ f : BitVec 4, 1 ≤ f.toNat → f.toNat ≤ 7 → prio .g3 f = 8 + f.toNat ∧ prio .g3 f = prio .family (f ||| 8#4)) ∧
  (∀ f : BitVec 4, prio .g3 f = 0 ∨ (9 ≤ prio .g3 f ∧ prio .g3 f ≤ 15))

/-- The table of R170: the request and enable bits, vectors and fixed priorities of the seven software interrupts, the
same in every configuration. Whether the family has them is the parameter SWI_PRESENT, and the XA-G3 has them (log 20).
-/
def Obligations.SoftwareInterruptTable : Prop :=
  (∀ (c : Config) (k : Fin 7), bitPlace c (swiRequest k) = (.swr, k.val) ∧ bitPlace c (swiEnable k) = (.swe, k.val)) ∧
  (∀ k : Fin 7, (swiVector k).toNat = 0x100 + 4 * k.val ∧ swiPrio k = k.val + 1) ∧
  (∀ c : Config, (c.derivative = .family → swiPresent c = c.swiPresent) ∧ (c.derivative = .g3 → swiPresent c = true))

/-- The table of the event interrupt sources: ranking, vector, enable bit, IPA register, nibble and request of each.
The family's table is decision D32 (log 41); that Timer 2's request is TF2 or EXF2 is D27 (log 36). -/
def Obligations.EventSourceTable : Prop :=
  (∀ e : EventSource, (eventRank e, (eventVector e).toNat, eventEnable e, ipaOf e) =
    match e with
    | .ext0 => (2, 0x80, .ex0, .ipa0)
    | .timer0 => (3, 0x84, .et0, .ipa0)
    | .ext1 => (4, 0x88, .ex1, .ipa1)
    | .timer1 => (5, 0x8C, .et1, .ipa1)
    | .timer2 => (6, 0x90, .et2, .ipa2)
    | .serial0Rx => (7, 0xA0, .eri0, .ipa4)
    | .serial0Tx => (8, 0xA4, .eti0, .ipa4)
    | .serial1Rx => (9, 0xA8, .eri1, .ipa5)
    | .serial1Tx => (10, 0xAC, .eti1, .ipa5)) ∧
  (∀ (s : State) (e : EventSource), eventField e s =
    if e ∈ [EventSource.ext0, .ext1, .timer2, .serial0Rx, .serial1Rx] then (sfrGet (ipaOf e) s).extractLsb' 0 4
    else (sfrGet (ipaOf e) s).extractLsb' 4 4) ∧
  (∀ s : State, eventRequest .ext0 s = bitOf .ie0 s ∧ eventRequest .timer0 s = bitOf .tf0 s ∧
    eventRequest .ext1 s = bitOf .ie1 s ∧ eventRequest .timer1 s = bitOf .tf1 s ∧
    eventRequest .timer2 s = (bitOf .tf2 s || bitOf .exf2 s) ∧
    eventRequest .serial0Rx s = bitOf .ri0 s ∧ eventRequest .serial0Tx s = bitOf .ti0 s ∧
    eventRequest .serial1Rx s = bitOf .ri1 s ∧ eventRequest .serial1Tx s = bitOf .ti1 s)

/-- The selection: nothing when nothing is eligible; otherwise an eligible interrupt of greatest priority, and of those
the one chosen first: an event before a software interrupt, of two events the lower arbitration ranking. An event is
eligible when it is requested, enabled by its own bit and by EA, and of priority above IM; a software interrupt when it
is present, requested, enabled, of priority above IM, and EA is 1 where EA gates it. An event before a software
interrupt of equal priority is decision D9 (log 21); EA_GATES_SWI is a parameter (log 20). -/
def Obligations.SelectMaskableChoosesTheBest : Prop :=
  ∀ s : State,
    (selectMaskable s = none ↔ ∀ m, eligible m s = false) ∧
    (∀ m, selectMaskable s = some m ↔
      eligible m s = true ∧
      ∀ m', eligible m' s = true → m' ≠ m →
        maskPrio m' s < maskPrio m s ∨ (maskPrio m' s = maskPrio m s ∧ chosenBefore m m')) ∧
    (∀ e, eligible (.event e) s = eligibleEvent e s ∧ maskPrio (.event e) s = eventPrio e s ∧
      eligibleEvent e s =
        (eventRequest e s && bitOf (eventEnable e) s && bitOf .ea s && decide (intMask s < eventPrio e s))) ∧
    (∀ k, eligible (.swi k) s = eligibleSwi k s ∧ maskPrio (.swi k) s = k.val + 1 ∧
      eligibleSwi k s =
        (swiPresent s.cfg && bitOf (swiRequest k) s && bitOf (swiEnable k) s && decide (intMask s < k.val + 1) &&
          (bitOf .ea s || !s.cfg.eaGatesSwi)))

/-- Enabling, in every map that keeps its bits apart. EA = 0 disables every event interrupt; an individual enable that
is 0 disables its own source and no other; a source whose two enables are 1 is serviced only with a priority above IM;
and one that is requested with both enables 1 and a priority above IM, and competes with no other interrupt, is
accepted at the boundary. -/
def Obligations.EventInterruptEnabling : Prop :=
  ∀ (s : State) (e : EventSource), mapWf s.cfg = true →
    (bitOf .ea s = false → acceptable s ≠ some (.event e)) ∧
    (bitOf (eventEnable e) s = false → acceptable s ≠ some (.event e)) ∧
    (eligibleEvent e (clearBit .ea s) = false ∧ eligibleEvent e (clearBit (eventEnable e) s) = false) ∧
    (∀ e', e' ≠ e → eligibleEvent e' (clearBit (eventEnable e) s) = eligibleEvent e' s) ∧
    (eventPrio e s ≤ intMask s → acceptable s ≠ some (.event e)) ∧
    (s.hold = false → eventRequest e s = true → bitOf .ea s = true → bitOf (eventEnable e) s = true →
      intMask s < eventPrio e s → (∀ m, m ≠ .event e → eligible m s = false) → acceptable s = some (.event e))

/-- An event's priority is prio of its field. It decides whether the source may interrupt the running code (priority
above IM) and which of several eligible sources goes first (the highest priority); priority 0 never exceeds IM. In the
family each of the 16 levels can be set for a source by one MOV.B to its IPA register, and no other source's priority
changes by that. -/
def Obligations.EventPriority : Prop :=
  ∀ (s : State) (e : EventSource),
    eventPrio e s = prio s.cfg.derivative (eventField e s) ∧
    (eventPrio e s ≤ intMask s → selectMaskable s ≠ some (.event e)) ∧
    (∀ e', eligibleEvent e s = true → eventPrio e' s < eventPrio e s → selectMaskable s ≠ some (.event e')) ∧
    (eligibleEvent e s = true → (∀ m, m ≠ .event e → eligible m s = true → maskPrio m s < eventPrio e s) →
      selectMaskable s = some (.event e)) ∧
    (eventPrio e s = 0 → selectMaskable s ≠ some (.event e)) ∧
    (∀ (a : BitVec 11) (p : Nat), s.cfg.derivative = .family → sfrAt s.cfg a = some (ipaOf e) → p < 16 →
      ∃ v t, exec (.movb a v) s = .next t ∧ eventPrio e t = p ∧ ∀ e', e' ≠ e → eventPrio e' t = eventPrio e' s)

/-- Event interrupts that occur together, with no software interrupt in their way and bits that the map keeps apart:
the one of the highest priority is serviced, and of those at one level the one of the lowest arbitration ranking. Every
other request stays as it was and competes at the next boundary against the IM that the winner's vector loaded. -/
def Obligations.SimultaneousEvents : Prop :=
  ∀ (s : State) (e : EventSource), mapWf s.cfg = true → s.pending = Pending.empty → s.hold = false →
    eligibleEvent e s = true →
    (∀ e', e' ≠ e → eligibleEvent e' s = true →
      eventPrio e' s < eventPrio e s ∨ (eventPrio e' s = eventPrio e s ∧ eventRank e < eventRank e')) →
    (∀ k, eligibleSwi k s = true → swiPrio k < eventPrio e s) →
    isOdd s.ssp = false → isOdd (codeRead16 s (eventVector e + 2#16)) = false →
    ∃ t, cpuStep s = .next t ∧ t.pc = page0 (codeRead16 s (eventVector e + 2#16)) ∧
      psw t = codeRead16 s (eventVector e) ∧
      ∀ e', e' ≠ e →
        eventRequest e' t = eventRequest e' s ∧
        eligibleEvent e' t =
          (eventRequest e' s && bitOf (eventEnable e') s && bitOf .ea s && decide (intMask t < eventPrio e' s))

/-- IM = 15 masks every maskable interrupt, IM of 7 or more every software interrupt, and priority 0 every event. -/
def Obligations.InterruptMaskMasks : Prop :=
  ∀ s : State,
    (intMask s = 15 → selectMaskable s = none) ∧
    (∀ k, 7 ≤ intMask s → selectMaskable s ≠ some (.swi k)) ∧
    (∀ e, eventPrio e s = 0 → selectMaskable s ≠ some (.event e)) ∧
    (∀ m, selectMaskable s = some m → intMask s < maskPrio m s)

/-- On the XA-G3 an event's priority is 0 or from 9 to 15, so an eligible event goes before every software interrupt.
-/
def Obligations.G3EventsOutrankSoftwareInterrupts : Prop :=
  ∀ s : State, s.cfg.derivative = .g3 →
    (∀ e, eventPrio e s = 0 ∨ (9 ≤ eventPrio e s ∧ eventPrio e s ≤ 15)) ∧
    (∀ e, eligibleEvent e s = true → ∃ e', selectMaskable s = some (.event e'))

/-- The acceptance of a maskable interrupt: its sequence with the pc as return address; IEn and TFn are cleared by the
sequence of their own source, and no other bit of any register but the PSW changes. Clearing as part of the sequence is
decision D10 (log 22); the frame's slots rest on D3 and D2 (log 3, log 2); a Trace by the sequence needs a TRACE_POINT
other than the default (log 18). A change of RS1 : RS0 changes no x[i] (log 46). That pushes change no register is log
44. -/
def Obligations.AcceptanceClearsItsRequestAlone : Prop :=
  ∀ (s : State) (m : Maskable), s.pending = Pending.empty → acceptable s = some m →
    isOdd s.ssp = false → isOdd (codeRead16 s (maskVector m + 2#16)) = false →
    ∃ t, cpuStep s = .next t ∧
      psw t = codeRead16 s (maskVector m) ∧ t.pc = page0 (codeRead16 s (maskVector m + 2#16)) ∧
      t.ssp = s.ssp - BitVec.ofNat 16 (frameSize s) ∧ t.usp = s.usp ∧
      memRead16 t (s.ssp - 2#16) = addrLow s.pc ∧
      (page0Mode s = false → memRead16 t (s.ssp - 4#16) = (addrHigh s.pc).setWidth 16) ∧
      memRead16 t t.ssp = psw s ∧ (∀ a, dataByte t a = dataByte (pushFrame s.pc s) a) ∧
      sameDataOutside s.ssp (frameSize s) s t ∧ untouched s t ∧ t.hold = s.hold ∧
      gainsBySequences s Pending.empty t.pending ∧
      (∀ r, r ≠ .pswh → r ≠ .pswl → r ≠ .tcon → sfrGet r t = sfrGet r s) ∧
      (clearedRequest m = none → sfrGet .tcon t = sfrGet .tcon s) ∧
      (∀ b, clearedRequest m = some b →
        sfrGet .tcon t = sfrGet .tcon s &&& ~~~ bitMask (bitPos s.cfg b) ∧ bitOf b t = false) ∧
      (mapWf s.cfg = true → ∀ b, clearedRequest m ≠ some b → bitReg s.cfg b ≠ .pswh → bitOf b t = bitOf b s)

/-- A handler whose vector's IM is below the interrupt's priority, for a request the sequence does not clear: the same
interrupt is selected again at the next boundary, and it is accepted there, before the handler's first instruction,
unless the sequence has left an exception pending, which goes first: StackOverflow (log 17), or Trace at a TRACE_POINT
other than the default (log 18). Which requests are cleared is decision D10 (log 22), the order at a boundary D30 (log
33). -/
def Obligations.HandlerBelowItsPriorityInterruptsItself : Prop :=
  ∀ (s t : State) (m : Maskable), s.pending = Pending.empty → acceptable s = some m → clearedRequest m = none →
    cpuStep s = .next t → intMask t < maskPrio m s →
    acceptable t = some m ∧ (t.pending = Pending.empty → cpuStep t = acceptMaskable m t)

/-- SETB of SWRn requests software interrupt n: it is eligible afterwards exactly when it is present and enabled, n is
above IM, and EA is 1 where EA gates it. EA_GATES_SWI is a parameter (log 20). -/
def Obligations.SetbOfSwrRequestsItsInterrupt : Prop :=
  ∀ (s : State) (k : Fin 7) (b : BitVec 10), bitAt s.cfg b = some (.swr, k.val) → ∃ t, exec (.setb b) s = .next t ∧
    eligibleSwi k t =
      (swiPresent s.cfg && bitOf (swiEnable k) s && decide (intMask s < k.val + 1) && (bitOf .ea s || !s.cfg.eaGatesSwi)) ∧
    (∀ j, j ≠ k → eligibleSwi j t = eligibleSwi j s) ∧ (∀ e, eligibleEvent e t = eligibleEvent e s)

/-! ### Exceptions at a boundary, reset -/

/-- All pending exceptions are serviced at one boundary, one frame each, with no instruction between; the PSW and the
pc are then those of the vector of highest service precedence, so its handler runs first. The first frame, which lies
highest, is the interrupted program's: its pc and its PSW; and no byte outside the frames changes. A StackOverflow
raised by these pushes stays pending (log 17), and so does a Trace that a TRACE_POINT other than the default raises
(log 18). The slots of the frames rest on D3 and, for the word at S - 4, on D2 (log 3, log 2). A change of RS1 : RS0
changes no x[i] (log 46). That pushes change no register is log 44. -/
def Obligations.HighestPrecedenceHandlerRunsFirst : Prop :=
  ∀ (s : State) (e : Exc), s.pending.reset = false → s.pending.has e = true →
    (∀ e', s.pending.has e' = true → excPrecedence e' ≤ excPrecedence e) →
    (nmiPresent s.cfg = false → s.pending.nmi = false) →
    isOdd s.ssp = false → vectorsEven s →
    let size := frameSize s * (allExceptions.filter s.pending.has).length
    ∃ t, cpuStep s = .next t ∧
      psw t = codeRead16 s (excVector e) ∧ t.pc = page0 (codeRead16 s (excVector e + 2#16)) ∧
      t.ssp = s.ssp - BitVec.ofNat 16 size ∧ t.usp = s.usp ∧
      memRead16 t (s.ssp - 2#16) = addrLow s.pc ∧
      (page0Mode s = false → memRead16 t (s.ssp - 4#16) = (addrHigh s.pc).setWidth 16) ∧
      memRead16 t (s.ssp - BitVec.ofNat 16 (frameSize s)) = psw s ∧
      sameDataOutside s.ssp size s t ∧
      gainsBySequences s Pending.empty t.pending ∧
      sameSfrs s t ∧ untouched s t

/-- Breakpoint with Trace in 24-bit mode: the first frame, at S - 6 to S - 1, is the interrupted program's, the second,
below it, holds the Breakpoint handler's entry and its vector's PSW, and the Trace handler runs first. The addresses of
the frames' words rest on the push mechanics of D3 (log 3), the pad byte's lane is D2 (log 2). Page 0 Mode, whose
frames are of 4 bytes, is left out; the first frame there is in HighestPrecedenceHandlerRunsFirst. -/
def Obligations.BreakpointWithTrace : Prop :=
  ∀ s : State, s.pending = (Pending.empty.add .breakpoint).add .trace → page0Mode s = false →
    isOdd s.ssp = false → isOdd (codeRead16 s 0x0006#16) = false → isOdd (codeRead16 s 0x000A#16) = false →
    ∃ t, cpuStep s = .next t ∧ t.ssp = s.ssp - 12#16 ∧
      psw t = codeRead16 s 0x0008#16 ∧ t.pc = page0 (codeRead16 s 0x000A#16) ∧
      memRead16 t (s.ssp - 2#16) = addrLow s.pc ∧ memRead16 t (s.ssp - 4#16) = (addrHigh s.pc).setWidth 16 ∧
      memRead16 t (s.ssp - 6#16) = psw s ∧
      memRead16 t (s.ssp - 8#16) = codeRead16 s 0x0006#16 ∧ memRead16 t (s.ssp - 10#16) = 0#16 ∧
      memRead16 t (s.ssp - 12#16) = codeRead16 s 0x0004#16 ∧ sameDataOutside s.ssp 12 s t

/-- No enable, priority or request masks an exception: what a boundary with an exception pending does is the same
whatever the control registers but SCR hold and whatever the ACCEPT_DELAY shadow, and it leaves them as they are. No
maskable interrupt is accepted there. IM is not varied here, for the first frame saves it: that exceptions are taken at
any IM is HighestPrecedenceHandlerRunsFirst. The order at a boundary is decision D30 (log 33); that the shadow delays
no exception, and that an exception's sequence leaves it as it is, are the model's choices (D23, log 19). -/
def Obligations.ExceptionsAreNotMaskable : Prop :=
  ∀ (s : State) (x : Sfrs) (h : Bool),
    s.pending ≠ Pending.empty → s.pending.reset = false → x.scr = s.sfr.scr →
    cpuStep { s with sfr := x, hold := h } =
      match cpuStep s with
      | .next t => .next { t with sfr := x, hold := h }
      | .fault r => .fault r
      | .refused r => .refused r

/-- DoReset: with Reset pending, whatever else is, the boundary discards the other exceptions, sets both stack pointers
to SP_RESET, EA, every enable and every IPA register to 0, takes the PSW and the pc from the vector at 0000h and pushes
nothing: both memories are as before. An odd start address is refused. The three reset sources are not distinguishable
afterwards: from states that differ in nothing but what raised Reset, the boundary leads to the same state. The refusal
is decision D18 (log 8); all sources reset alike by D17 (log 35); that data memory keeps its bytes is the model's
choice, R54 calls it unspecified (log 47). -/
def Obligations.ResetSequence : Prop :=
  (∀ s : State, s.pending.reset = true →
    (isOdd (codeRead16 s 0x0002#16) = false →
      ∃ t, cpuStep s = .next t ∧
        t.pending = Pending.empty ∧ t.ssp = s.cfg.spReset ∧ t.usp = s.cfg.spReset ∧
        psw t = codeRead16 s 0x0000#16 ∧ t.pc = page0 (codeRead16 s 0x0002#16) ∧
        (∀ r ∈ [Sfr.iel, .ieh, .ipa0, .ipa1, .ipa2, .ipa3, .ipa4, .ipa5], sfrGet r t = 0#8) ∧
        sameData s t ∧ sameCode s t ∧ t.cfg = s.cfg ∧ t.inputs = s.inputs ∧ t.supplied = s.supplied) ∧
    (isOdd (codeRead16 s 0x0002#16) = true → cpuStep s = .refused .oddVectorTarget)) ∧
  (∀ s t : State, systemMode s = true → exec .reset s = .next t →
    cpuStep t = cpuStep (envMove .rstRelease s) ∧
    cpuStep (envMove .rstRelease s) = cpuStep (envMove .watchdogReset s))

/-- Two steps at RESET in System Mode, with TM = 1 or 0: the second is the reset sequence, and a Trace exception the
same instruction raised is dropped. Trace at the default point is log 18, the reset values for this source log 35; that
data memory keeps its bytes is the model's choice (log 47). -/
def Obligations.ResetInstructionResets : Prop :=
  ∀ (s : State) (rest : List Byte),
    s.inputs = [] → s.pending = Pending.empty → acceptable s = none → systemMode s = true →
    decode (fetchBytes s 4) = .instr .reset rest → isOdd (codeRead16 s 0x0002#16) = false →
    ∃ t u, step s = .next t ∧ step t = .next u ∧
      u.pending = Pending.empty ∧ psw u = codeRead16 s 0x0000#16 ∧ u.pc = page0 (codeRead16 s 0x0002#16) ∧
      u.ssp = s.cfg.spReset ∧ u.usp = s.cfg.spReset ∧ bitOf .ea u = false ∧ sameData s u ∧ sameCode s u

/-- State.reset is what the reset sequence makes of itself: with Reset pending it steps to State.reset. The reset
vector's two words in it (8F00h, 0120h), SP_RESET and the values of the registers whose reset value the spec leaves
open are the model's choice (log 9, log 11, log 14). -/
def Obligations.ResetStateIsTheResetSequences : Prop :=
  step { State.reset with pending := Pending.empty.add .reset } = .next State.reset ∧
  psw State.reset = 0x8F00#16 ∧ systemMode State.reset = true ∧ intMask State.reset = 15 ∧ selectMaskable State.reset = none

/-! ### Opaque steps -/

/-- What byte string an opaque step is a meaning of: the one at the pc, 1 to 6 bytes, as long as its first two bytes
say. Where those begin one of the nine instructions its length is that one's, and two steps whose strings begin with
the same two bytes are equally long. The lengths other than the nine's are a parameter (log 42); opaque steps are the
model's form of D35 (log 28). -/
def Obligations.OpaqueLengthsFollowTheFirstTwoBytes : Prop :=
  (∀ (o : OpaqueStep) (s : State), opaqueMatches o s = true →
    1 ≤ o.bytes.length ∧ o.bytes.length ≤ 6 ∧ fetchBytes s o.bytes.length = o.bytes ∧
    ∀ i rest, decode [codeByte s (nextPc s 0), codeByte s (nextPc s 1), 0, 0] = .instr i rest →
      o.bytes.length = i.length) ∧
  (∀ (o o' : OpaqueStep) (s s' : State), s'.cfg = s.cfg → opaqueMatches o s = true → opaqueMatches o' s' = true →
    o'.bytes.take 2 = o.bytes.take 2 → o'.bytes.length = o.bytes.length)

/-- Everything one execution of an opaque step does, but for a divide whose divisor is zero. It completes unless a
write of PSWH is an attempt in User Mode on a protected bit and the configuration stops on that. The general registers
and DS hold what it writes last. Data memory holds its stores and then its pushes, each word at its stack's pointer
less 2, and is else as before; a stack pointer holds what it writes last, less 2 for each word pushed there, and the
word pushed last stands at its stack's pointer. PSWH holds what its writes leave, in User Mode their RS1 and RS0; every
other register but PSWL takes the storage bits of what it writes last. Pending are the exceptions that were,
StackOverflow where STACK_OVF asks for it at a push, and what USER_PSWH_WRITE says of an attempt. The pc is the target
or the next instruction, in the mode it leaves. The order of the parts and their form are the model's reading of D35
(log 29), the flags are open (log 15), attempts are log 16 and overflows log 17. That no store or push changes a
register is log 44, that a write of x[7] is none of a stack pointer log 45, that a change of RS1 : RS0 changes no x[i]
log 46. Where a push stores rests on D3 (log 3). -/
def Obligations.OpaqueStepEffect : Prop :=
  ∀ (o : OpaqueStep) (s : State), o.divisor ≠ some 0 →
    let sp := fun system => lastWrite (o.sps.map fun p => (p.1.isSystem s, p.2)) system (if system then s.ssp else s.usp)
    let pushed := fun system => 2 * o.pushes.countP fun p => decide (p.1.isSystem s = system)
    let pushes := pushesAt s o.pushes (sp true) (sp false)
    let attempted := pswhAttempted s.cfg (pswhWrites o.sfrs) s.pswh
    (attempted = true → s.cfg.userPswhWrite = .fault → execOpaque o s = .fault .protectedPswhWrite) ∧
    ((attempted = true → s.cfg.userPswhWrite ≠ .fault) →
      ∃ t, execOpaque o s = .next t ∧
        (∀ i, regGet t i = lastWrite o.regs i (regGet s i)) ∧ t.ds = o.ds.getD s.ds ∧
        t.ssp = sp true - BitVec.ofNat 16 (pushed true) ∧ t.usp = sp false - BitVec.ofNat 16 (pushed false) ∧
        (∀ a, dataByte t a = lastWrite (o.stores ++ pushes.flatMap PushAt.bytes) a (dataByte s a)) ∧
        (∀ a, inFrame (sp true) (pushed true) a = false → inFrame (sp false) (pushed false) a = false →
          dataByte t a = lastWrite o.stores a (dataByte s a)) ∧
        (∀ ws n v, o.pushes = ws ++ [(n, v)] → memRead16 t (if n.isSystem s then t.ssp else t.usp) = v) ∧
        (∀ r, r ≠ .pswh → r ≠ .pswl →
          sfrGet r t = lastWrite (o.sfrs.map fun p => (p.1, p.2 &&& sfrMask p.1 s)) r (sfrGet r s)) ∧
        t.pswh = pswhAfter s.cfg (pswhWrites o.sfrs) s.pswh ∧
        t.pc = modeAddr t (o.target.getD (nextPc s o.bytes.length)) ∧
        (∀ e, t.pending.has e = (s.pending.has e ||
          (decide (e = .stackOverflow) && pushes.any fun p => p.overflows s.cfg) ||
          (attempted && decide (s.cfg.userPswhWrite = .exception e)))) ∧
        sameCode s t ∧ t.cfg = s.cfg ∧ t.inputs = s.inputs ∧ t.supplied = s.supplied ∧ t.hold = s.hold)

/-- A divide with divisor zero, supplied as an opaque step. Its execution raises DivideByZero and goes on to the next
instruction; its destinations, of whatever kind, and the flags are open, and everything else is as before; a free value
in PSWH may be an attempt in User Mode, of which USER_PSWH_WRITE decides (log 16). With no stack pointer or special
function register among the destinations, the next boundary enters the Divide-by-zero handler through 0010h with the
whole address of the instruction after it. The opaque step is the model's form of D25 and D35 (log 28, log 29); the
word at S - 4 is laid out by D2 (log 2). That a destination in memory is no register is log 44, that x[7] is no stack
pointer log 45, that a change of RS1 : RS0 changes no x[i] log 46. The addresses of the frame's words rest on D3 (log
3). -/
def Obligations.DivideByZeroEntersItsHandler : Prop :=
  (∀ (s : State) (o : OpaqueStep), o.divisor = some 0 →
    (s.cfg.userPswhWrite ≠ .fault ∨ (pswhWrites o.sfrs).length ≤ if systemMode s then 1 else 0) →
    ∃ t, execOpaque o s = .next t ∧
      t.pending.has .divideByZero = true ∧ (∀ e, s.pending.has e = true → t.pending.has e = true) ∧
      (∀ e, t.pending.has e = true → s.pending.has e = true ∨ e = .divideByZero ∨
        (s.cfg.userPswhWrite = .exception e ∧ ∃ p ∈ o.sfrs, p.1 = .pswh)) ∧
      ((∀ p ∈ o.sfrs, p.1 ≠ .pswh) → t.pending = s.pending.add .divideByZero ∧ t.pswh = s.pswh) ∧
      t.pc = modeAddr t (nextPc s o.bytes.length) ∧
      (∀ i, i ∉ o.regs.map Prod.fst → regGet t i = regGet s i) ∧ (o.ds = none → t.ds = s.ds) ∧
      (∀ a, a ∉ o.stores.map Prod.fst → dataByte t a = dataByte s a) ∧
      (∀ r, r ∉ o.sfrs.map Prod.fst → r ≠ .pswh → r ≠ .pswl → sfrGet r t = sfrGet r s) ∧
      ((∀ p ∈ o.sps, p.1.isSystem s = false) → t.ssp = s.ssp) ∧
      ((∀ p ∈ o.sps, p.1.isSystem s = true) → t.usp = s.usp) ∧
      sameCode s t ∧ t.cfg = s.cfg ∧ t.inputs = s.inputs ∧ t.supplied = s.supplied ∧ t.hold = s.hold) ∧
  (∀ (s : State) (o : OpaqueStep) (os : List OpaqueStep) (why : DecodeReject),
    s.inputs = [] → s.pending = Pending.empty → acceptable s = none → traceMode s = false →
    decode (fetchBytes s 4) = .rejected why → s.supplied = o :: os → opaqueMatches o s = true → o.divisor = some 0 →
    o.sps = [] → o.sfrs = [] → isOdd s.ssp = false → isOdd (codeRead16 s 0x0012#16) = false →
    ∃ t u, step s = .next t ∧ step t = .next u ∧
      t.pending = Pending.empty.add .divideByZero ∧ t.pswh = s.pswh ∧
      psw u = codeRead16 s 0x0010#16 ∧ u.pc = page0 (codeRead16 s 0x0012#16) ∧
      u.ssp = s.ssp - BitVec.ofNat 16 (frameSize s) ∧
      memRead16 u (s.ssp - 2#16) = addrLow (s.pc + BitVec.ofNat 24 o.bytes.length) ∧
      (page0Mode s = false →
        memRead16 u (s.ssp - 4#16) = (addrHigh (s.pc + BitVec.ofNat 24 o.bytes.length)).setWidth 16) ∧
      hiByte (memRead16 u u.ssp) = s.pswh ∧
      (∀ a, a ∉ o.stores.map Prod.fst → inFrame s.ssp (frameSize s) a = false → dataByte u a = dataByte s a) ∧
      sameSfrs s u ∧ sameCode s u ∧ u.supplied = os ∧
      u.usp = s.usp ∧ (o.ds = none → u.ds = s.ds) ∧ (∀ i, i ∉ o.regs.map Prod.fst → regGet u i = regGet s i))

/-! ### The environment -/

/-- The environment's moves of R12, each with its condition, in terms of the bit it sets or the exception it raises.
That EXEN2 is the condition of T2EX is the model's (log 24). -/
def Obligations.EnvironmentMoves : Prop :=
  ∀ s : State,
    (envMove .rstRelease s = raise .reset s ∧ envMove .watchdogReset s = raise .reset s ∧
      envMove .hwBreakpoint s = raise .breakpoint s) ∧
    (envMove .nmiAssert s = if s.cfg.derivative = .family then raise .nmi s else s) ∧
    (bitOf .ie0 (envMove (.extDetect .u0) s) = true ∧ bitOf .ie1 (envMove (.extDetect .u1) s) = true) ∧
    (bitOf .tf0 (envMove (.timerOverflow .u0) s) = (bitOf .tf0 s || bitOf .tr0 s) ∧
      bitOf .tf1 (envMove (.timerOverflow .u1) s) = (bitOf .tf1 s || bitOf .tr1 s)) ∧
    (bitOf .tf2 (envMove .timer2Overflow s) = (bitOf .tf2 s ||
      (bitOf .tr2 s && !(bitOf .rclk0 s || bitOf .rclk1 s || bitOf .tclk0 s || bitOf .tclk1 s)))) ∧
    (bitOf .exf2 (envMove .t2exFall s) = (bitOf .exf2 s || bitOf .exen2 s)) ∧
    (bitOf .ri0 (envMove (.serialRx .u0) s) = (bitOf .ri0 s || bitOf .ren0 s) ∧
      bitOf .ri1 (envMove (.serialRx .u1) s) = (bitOf .ri1 s || bitOf .ren1 s)) ∧
    (bitOf .ti0 (envMove (.serialTx .u0) s) = true ∧ bitOf .ti1 (envMove (.serialTx .u1) s) = true) ∧
    (bitOf .ri0 (envMove (.serialStatus .u0) s) = (bitOf .ri0 s || bitOf .stint0 s) ∧
      bitOf .ri1 (envMove (.serialStatus .u1) s) = (bitOf .ri1 s || bitOf .stint1 s))

/-- The environment sets no bit but the one its move names and clears none, never writes a register other than TCON,
T2CON, S0CON and S1CON, never writes memory, never changes the pc, the PSW or a stack pointer, and raises no exception
but the one its move names. A move that cannot happen does nothing (log 23). -/
def Obligations.EnvironmentFrame : Prop :=
  ∀ (m : EnvMove) (s : State), let t := envMove m s
    (∀ b, bitOf b s = true → bitOf b t = true) ∧
    (mapWf s.cfg = true → ∀ b, moveSets m ≠ some b → bitOf b t = bitOf b s) ∧
    (∀ r, r ≠ .tcon → r ≠ .t2con → r ≠ .s0con → r ≠ .s1con → sfrGet r t = sfrGet r s) ∧
    (moveSets m = none → ∀ r, sfrGet r t = sfrGet r s) ∧
    sameData s t ∧ sameCode s t ∧ sameRegs s t ∧ t.pc = s.pc ∧ psw t = psw s ∧ sameStacks s t ∧ t.cfg = s.cfg ∧
    t.inputs = s.inputs ∧ t.supplied = s.supplied ∧ t.hold = s.hold ∧
    (∀ e, s.pending.has e = true → t.pending.has e = true) ∧
    (∀ e, moveRaises m ≠ some e → t.pending.has e = s.pending.has e)

/-! ### Invariants and safety -/

/-- Every step keeps the invariant, whatever the environment does and whatever opaque step runs. Its clauses rest on
log 13, log 25, log 26 and log 32. -/
def Obligations.EveryStepKeepsTheInvariant : Prop := ∀ s t : State, Inv s → step s = .next t → Inv t

/-- Every step keeps the stack pointers even, with no opaque step supplied. A frame is pushed only on an even pointer
(log 4); an opaque step could make one odd (log 29). -/
def Obligations.EveryStepKeepsTheStacksEven : Prop := ∀ s t : State, StacksEven s → step s = .next t → StacksEven t

/-- The two invariants hold at reset. State.reset holds the values of log 9, log 11 and log 14. -/
def Obligations.InvariantsHoldAtReset : Prop := Inv State.reset ∧ StacksEven State.reset

/-- From a state in which software has done what the source asks (aligned stack and vectors, one of the nine
instructions at the pc), the step completes, whatever is pending and whatever the environment does. The states left out
are those the model refuses (log 4, log 8, log 28, log 30) and the fault of log 16. -/
def Obligations.ReadyStatesStep : Prop := ∀ s : State, Ready s → ∃ t, step s = .next t
end

