-- ==== Sys2Proof/Laws/State.lean ====
section
/-! SUPPORT. For each update of the state, what each field is afterwards: one small lemma per field. -/

namespace Sys2Proof.Machine

variable (s : State)

/-! ### setPsw -/

@[simp] theorem setPsw_cfg (w : Word) : (setPsw w s).cfg = s.cfg := rfl
@[simp] theorem setPsw_pc (w : Word) : (setPsw w s).pc = s.pc := rfl
@[simp] theorem setPsw_pswh (w : Word) : (setPsw w s).pswh = hiByte w := rfl
@[simp] theorem setPsw_pswl (w : Word) : (setPsw w s).pswl = loByte w := rfl
@[simp] theorem setPsw_ssp (w : Word) : (setPsw w s).ssp = s.ssp := rfl
@[simp] theorem setPsw_usp (w : Word) : (setPsw w s).usp = s.usp := rfl
@[simp] theorem setPsw_regs (w : Word) : (setPsw w s).regs = s.regs := rfl
@[simp] theorem setPsw_ds (w : Word) : (setPsw w s).ds = s.ds := rfl
@[simp] theorem setPsw_sfr (w : Word) : (setPsw w s).sfr = s.sfr := rfl
@[simp] theorem setPsw_pending (w : Word) : (setPsw w s).pending = s.pending := rfl
@[simp] theorem setPsw_code (w : Word) : (setPsw w s).code = s.code := rfl
@[simp] theorem setPsw_data (w : Word) : (setPsw w s).data = s.data := rfl
@[simp] theorem setPsw_inputs (w : Word) : (setPsw w s).inputs = s.inputs := rfl
@[simp] theorem setPsw_supplied (w : Word) : (setPsw w s).supplied = s.supplied := rfl
@[simp] theorem setPsw_hold (w : Word) : (setPsw w s).hold = s.hold := rfl
@[simp] theorem setPsw_freeCtr (w : Word) : (setPsw w s).freeCtr = s.freeCtr := rfl

/-! ### freeFlags -/

@[simp] theorem freeFlags_cfg : (freeFlags s).cfg = s.cfg := rfl
@[simp] theorem freeFlags_pc : (freeFlags s).pc = s.pc := rfl
@[simp] theorem freeFlags_pswh : (freeFlags s).pswh = s.pswh := rfl
@[simp] theorem freeFlags_pswl : (freeFlags s).pswl = Config.freeByte s.freeCtr := rfl
@[simp] theorem freeFlags_ssp : (freeFlags s).ssp = s.ssp := rfl
@[simp] theorem freeFlags_usp : (freeFlags s).usp = s.usp := rfl
@[simp] theorem freeFlags_regs : (freeFlags s).regs = s.regs := rfl
@[simp] theorem freeFlags_ds : (freeFlags s).ds = s.ds := rfl
@[simp] theorem freeFlags_sfr : (freeFlags s).sfr = s.sfr := rfl
@[simp] theorem freeFlags_pending : (freeFlags s).pending = s.pending := rfl
@[simp] theorem freeFlags_code : (freeFlags s).code = s.code := rfl
@[simp] theorem freeFlags_data : (freeFlags s).data = s.data := rfl
@[simp] theorem freeFlags_inputs : (freeFlags s).inputs = s.inputs := rfl
@[simp] theorem freeFlags_supplied : (freeFlags s).supplied = s.supplied := rfl
@[simp] theorem freeFlags_hold : (freeFlags s).hold = s.hold := rfl
@[simp] theorem freeFlags_freeCtr : (freeFlags s).freeCtr = s.freeCtr + 1 := rfl

/-! ### setPc -/

@[simp] theorem setPc_cfg (a : CodeAddr) : (setPc a s).cfg = s.cfg := rfl
@[simp] theorem setPc_pc (a : CodeAddr) : (setPc a s).pc = modeAddr s a := rfl
@[simp] theorem setPc_pswh (a : CodeAddr) : (setPc a s).pswh = s.pswh := rfl
@[simp] theorem setPc_pswl (a : CodeAddr) : (setPc a s).pswl = s.pswl := rfl
@[simp] theorem setPc_ssp (a : CodeAddr) : (setPc a s).ssp = s.ssp := rfl
@[simp] theorem setPc_usp (a : CodeAddr) : (setPc a s).usp = s.usp := rfl
@[simp] theorem setPc_regs (a : CodeAddr) : (setPc a s).regs = s.regs := rfl
@[simp] theorem setPc_ds (a : CodeAddr) : (setPc a s).ds = s.ds := rfl
@[simp] theorem setPc_sfr (a : CodeAddr) : (setPc a s).sfr = s.sfr := rfl
@[simp] theorem setPc_pending (a : CodeAddr) : (setPc a s).pending = s.pending := rfl
@[simp] theorem setPc_code (a : CodeAddr) : (setPc a s).code = s.code := rfl
@[simp] theorem setPc_data (a : CodeAddr) : (setPc a s).data = s.data := rfl
@[simp] theorem setPc_inputs (a : CodeAddr) : (setPc a s).inputs = s.inputs := rfl
@[simp] theorem setPc_supplied (a : CodeAddr) : (setPc a s).supplied = s.supplied := rfl
@[simp] theorem setPc_hold (a : CodeAddr) : (setPc a s).hold = s.hold := rfl
@[simp] theorem setPc_freeCtr (a : CodeAddr) : (setPc a s).freeCtr = s.freeCtr := rfl

/-! ### codePut -/

@[simp] theorem codePut_cfg (a : CodeAddr) (v : Byte) : (codePut a v s).cfg = s.cfg := rfl
@[simp] theorem codePut_pc (a : CodeAddr) (v : Byte) : (codePut a v s).pc = s.pc := rfl
@[simp] theorem codePut_pswh (a : CodeAddr) (v : Byte) : (codePut a v s).pswh = s.pswh := rfl
@[simp] theorem codePut_pswl (a : CodeAddr) (v : Byte) : (codePut a v s).pswl = s.pswl := rfl
@[simp] theorem codePut_ssp (a : CodeAddr) (v : Byte) : (codePut a v s).ssp = s.ssp := rfl
@[simp] theorem codePut_usp (a : CodeAddr) (v : Byte) : (codePut a v s).usp = s.usp := rfl
@[simp] theorem codePut_regs (a : CodeAddr) (v : Byte) : (codePut a v s).regs = s.regs := rfl
@[simp] theorem codePut_ds (a : CodeAddr) (v : Byte) : (codePut a v s).ds = s.ds := rfl
@[simp] theorem codePut_sfr (a : CodeAddr) (v : Byte) : (codePut a v s).sfr = s.sfr := rfl
@[simp] theorem codePut_pending (a : CodeAddr) (v : Byte) : (codePut a v s).pending = s.pending := rfl
@[simp] theorem codePut_code (a : CodeAddr) (v : Byte) : (codePut a v s).code = Memory.write codeFill s.code a.toNat v := rfl
@[simp] theorem codePut_data (a : CodeAddr) (v : Byte) : (codePut a v s).data = s.data := rfl
@[simp] theorem codePut_inputs (a : CodeAddr) (v : Byte) : (codePut a v s).inputs = s.inputs := rfl
@[simp] theorem codePut_supplied (a : CodeAddr) (v : Byte) : (codePut a v s).supplied = s.supplied := rfl
@[simp] theorem codePut_hold (a : CodeAddr) (v : Byte) : (codePut a v s).hold = s.hold := rfl
@[simp] theorem codePut_freeCtr (a : CodeAddr) (v : Byte) : (codePut a v s).freeCtr = s.freeCtr := rfl

/-! ### dataPut -/

@[simp] theorem dataPut_cfg (a : Word) (v : Byte) : (dataPut a v s).cfg = s.cfg := rfl
@[simp] theorem dataPut_pc (a : Word) (v : Byte) : (dataPut a v s).pc = s.pc := rfl
@[simp] theorem dataPut_pswh (a : Word) (v : Byte) : (dataPut a v s).pswh = s.pswh := rfl
@[simp] theorem dataPut_pswl (a : Word) (v : Byte) : (dataPut a v s).pswl = s.pswl := rfl
@[simp] theorem dataPut_ssp (a : Word) (v : Byte) : (dataPut a v s).ssp = s.ssp := rfl
@[simp] theorem dataPut_usp (a : Word) (v : Byte) : (dataPut a v s).usp = s.usp := rfl
@[simp] theorem dataPut_regs (a : Word) (v : Byte) : (dataPut a v s).regs = s.regs := rfl
@[simp] theorem dataPut_ds (a : Word) (v : Byte) : (dataPut a v s).ds = s.ds := rfl
@[simp] theorem dataPut_sfr (a : Word) (v : Byte) : (dataPut a v s).sfr = s.sfr := rfl
@[simp] theorem dataPut_pending (a : Word) (v : Byte) : (dataPut a v s).pending = s.pending := rfl
@[simp] theorem dataPut_code (a : Word) (v : Byte) : (dataPut a v s).code = s.code := rfl
@[simp] theorem dataPut_data (a : Word) (v : Byte) : (dataPut a v s).data = Memory.write dataFill s.data a.toNat v := rfl
@[simp] theorem dataPut_inputs (a : Word) (v : Byte) : (dataPut a v s).inputs = s.inputs := rfl
@[simp] theorem dataPut_supplied (a : Word) (v : Byte) : (dataPut a v s).supplied = s.supplied := rfl
@[simp] theorem dataPut_hold (a : Word) (v : Byte) : (dataPut a v s).hold = s.hold := rfl
@[simp] theorem dataPut_freeCtr (a : Word) (v : Byte) : (dataPut a v s).freeCtr = s.freeCtr := rfl

/-! ### memWrite16 -/

@[simp] theorem memWrite16_cfg (a v : Word) : (memWrite16 a v s).cfg = s.cfg := rfl
@[simp] theorem memWrite16_pc (a v : Word) : (memWrite16 a v s).pc = s.pc := rfl
@[simp] theorem memWrite16_pswh (a v : Word) : (memWrite16 a v s).pswh = s.pswh := rfl
@[simp] theorem memWrite16_pswl (a v : Word) : (memWrite16 a v s).pswl = s.pswl := rfl
@[simp] theorem memWrite16_ssp (a v : Word) : (memWrite16 a v s).ssp = s.ssp := rfl
@[simp] theorem memWrite16_usp (a v : Word) : (memWrite16 a v s).usp = s.usp := rfl
@[simp] theorem memWrite16_regs (a v : Word) : (memWrite16 a v s).regs = s.regs := rfl
@[simp] theorem memWrite16_ds (a v : Word) : (memWrite16 a v s).ds = s.ds := rfl
@[simp] theorem memWrite16_sfr (a v : Word) : (memWrite16 a v s).sfr = s.sfr := rfl
@[simp] theorem memWrite16_pending (a v : Word) : (memWrite16 a v s).pending = s.pending := rfl
@[simp] theorem memWrite16_code (a v : Word) : (memWrite16 a v s).code = s.code := rfl
@[simp] theorem memWrite16_inputs (a v : Word) : (memWrite16 a v s).inputs = s.inputs := rfl
@[simp] theorem memWrite16_supplied (a v : Word) : (memWrite16 a v s).supplied = s.supplied := rfl
@[simp] theorem memWrite16_hold (a v : Word) : (memWrite16 a v s).hold = s.hold := rfl
@[simp] theorem memWrite16_freeCtr (a v : Word) : (memWrite16 a v s).freeCtr = s.freeCtr := rfl

/-! ### regPut -/

@[simp] theorem regPut_cfg (i v : Nat) : (regPut i v s).cfg = s.cfg := rfl
@[simp] theorem regPut_pc (i v : Nat) : (regPut i v s).pc = s.pc := rfl
@[simp] theorem regPut_pswh (i v : Nat) : (regPut i v s).pswh = s.pswh := rfl
@[simp] theorem regPut_pswl (i v : Nat) : (regPut i v s).pswl = s.pswl := rfl
@[simp] theorem regPut_ssp (i v : Nat) : (regPut i v s).ssp = s.ssp := rfl
@[simp] theorem regPut_usp (i v : Nat) : (regPut i v s).usp = s.usp := rfl
@[simp] theorem regPut_regs (i v : Nat) : (regPut i v s).regs = Memory.write regFill s.regs i v := rfl
@[simp] theorem regPut_ds (i v : Nat) : (regPut i v s).ds = s.ds := rfl
@[simp] theorem regPut_sfr (i v : Nat) : (regPut i v s).sfr = s.sfr := rfl
@[simp] theorem regPut_pending (i v : Nat) : (regPut i v s).pending = s.pending := rfl
@[simp] theorem regPut_code (i v : Nat) : (regPut i v s).code = s.code := rfl
@[simp] theorem regPut_data (i v : Nat) : (regPut i v s).data = s.data := rfl
@[simp] theorem regPut_inputs (i v : Nat) : (regPut i v s).inputs = s.inputs := rfl
@[simp] theorem regPut_supplied (i v : Nat) : (regPut i v s).supplied = s.supplied := rfl
@[simp] theorem regPut_hold (i v : Nat) : (regPut i v s).hold = s.hold := rfl
@[simp] theorem regPut_freeCtr (i v : Nat) : (regPut i v s).freeCtr = s.freeCtr := rfl

/-! ### raise -/

@[simp] theorem raise_cfg (e : Exc) : (raise e s).cfg = s.cfg := rfl
@[simp] theorem raise_pc (e : Exc) : (raise e s).pc = s.pc := rfl
@[simp] theorem raise_pswh (e : Exc) : (raise e s).pswh = s.pswh := rfl
@[simp] theorem raise_pswl (e : Exc) : (raise e s).pswl = s.pswl := rfl
@[simp] theorem raise_ssp (e : Exc) : (raise e s).ssp = s.ssp := rfl
@[simp] theorem raise_usp (e : Exc) : (raise e s).usp = s.usp := rfl
@[simp] theorem raise_regs (e : Exc) : (raise e s).regs = s.regs := rfl
@[simp] theorem raise_ds (e : Exc) : (raise e s).ds = s.ds := rfl
@[simp] theorem raise_sfr (e : Exc) : (raise e s).sfr = s.sfr := rfl
@[simp] theorem raise_pending (e : Exc) : (raise e s).pending = s.pending.add e := rfl
@[simp] theorem raise_code (e : Exc) : (raise e s).code = s.code := rfl
@[simp] theorem raise_data (e : Exc) : (raise e s).data = s.data := rfl
@[simp] theorem raise_inputs (e : Exc) : (raise e s).inputs = s.inputs := rfl
@[simp] theorem raise_supplied (e : Exc) : (raise e s).supplied = s.supplied := rfl
@[simp] theorem raise_hold (e : Exc) : (raise e s).hold = s.hold := rfl
@[simp] theorem raise_freeCtr (e : Exc) : (raise e s).freeCtr = s.freeCtr := rfl

/-! ### clearPending -/

@[simp] theorem clearPending_cfg : (clearPending s).cfg = s.cfg := rfl
@[simp] theorem clearPending_pc : (clearPending s).pc = s.pc := rfl
@[simp] theorem clearPending_pswh : (clearPending s).pswh = s.pswh := rfl
@[simp] theorem clearPending_pswl : (clearPending s).pswl = s.pswl := rfl
@[simp] theorem clearPending_ssp : (clearPending s).ssp = s.ssp := rfl
@[simp] theorem clearPending_usp : (clearPending s).usp = s.usp := rfl
@[simp] theorem clearPending_regs : (clearPending s).regs = s.regs := rfl
@[simp] theorem clearPending_ds : (clearPending s).ds = s.ds := rfl
@[simp] theorem clearPending_sfr : (clearPending s).sfr = s.sfr := rfl
@[simp] theorem clearPending_pending : (clearPending s).pending = Pending.empty := rfl
@[simp] theorem clearPending_code : (clearPending s).code = s.code := rfl
@[simp] theorem clearPending_data : (clearPending s).data = s.data := rfl
@[simp] theorem clearPending_inputs : (clearPending s).inputs = s.inputs := rfl
@[simp] theorem clearPending_supplied : (clearPending s).supplied = s.supplied := rfl
@[simp] theorem clearPending_hold : (clearPending s).hold = s.hold := rfl
@[simp] theorem clearPending_freeCtr : (clearPending s).freeCtr = s.freeCtr := rfl

/-! ### dropSys -/

@[simp] theorem dropSys_cfg : (dropSys s).cfg = s.cfg := rfl
@[simp] theorem dropSys_pc : (dropSys s).pc = s.pc := rfl
@[simp] theorem dropSys_pswh : (dropSys s).pswh = s.pswh := rfl
@[simp] theorem dropSys_pswl : (dropSys s).pswl = s.pswl := rfl
@[simp] theorem dropSys_ssp : (dropSys s).ssp = s.ssp + 2#16 := rfl
@[simp] theorem dropSys_usp : (dropSys s).usp = s.usp := rfl
@[simp] theorem dropSys_regs : (dropSys s).regs = s.regs := rfl
@[simp] theorem dropSys_ds : (dropSys s).ds = s.ds := rfl
@[simp] theorem dropSys_sfr : (dropSys s).sfr = s.sfr := rfl
@[simp] theorem dropSys_pending : (dropSys s).pending = s.pending := rfl
@[simp] theorem dropSys_code : (dropSys s).code = s.code := rfl
@[simp] theorem dropSys_data : (dropSys s).data = s.data := rfl
@[simp] theorem dropSys_inputs : (dropSys s).inputs = s.inputs := rfl
@[simp] theorem dropSys_supplied : (dropSys s).supplied = s.supplied := rfl
@[simp] theorem dropSys_hold : (dropSys s).hold = s.hold := rfl
@[simp] theorem dropSys_freeCtr : (dropSys s).freeCtr = s.freeCtr := rfl

/-! ### loadVector -/

@[simp] theorem loadVector_cfg (va : Word) : (loadVector va s).cfg = s.cfg := rfl
@[simp] theorem loadVector_pc (va : Word) : (loadVector va s).pc = page0 (codeRead16 s (va + 2#16)) := rfl
@[simp] theorem loadVector_pswh (va : Word) : (loadVector va s).pswh = hiByte (codeRead16 s va) := rfl
@[simp] theorem loadVector_pswl (va : Word) : (loadVector va s).pswl = loByte (codeRead16 s va) := rfl
@[simp] theorem loadVector_ssp (va : Word) : (loadVector va s).ssp = s.ssp := rfl
@[simp] theorem loadVector_usp (va : Word) : (loadVector va s).usp = s.usp := rfl
@[simp] theorem loadVector_regs (va : Word) : (loadVector va s).regs = s.regs := rfl
@[simp] theorem loadVector_ds (va : Word) : (loadVector va s).ds = s.ds := rfl
@[simp] theorem loadVector_sfr (va : Word) : (loadVector va s).sfr = s.sfr := rfl
@[simp] theorem loadVector_pending (va : Word) : (loadVector va s).pending = s.pending := rfl
@[simp] theorem loadVector_code (va : Word) : (loadVector va s).code = s.code := rfl
@[simp] theorem loadVector_data (va : Word) : (loadVector va s).data = s.data := rfl
@[simp] theorem loadVector_inputs (va : Word) : (loadVector va s).inputs = s.inputs := rfl
@[simp] theorem loadVector_supplied (va : Word) : (loadVector va s).supplied = s.supplied := rfl
@[simp] theorem loadVector_hold (va : Word) : (loadVector va s).hold = s.hold := rfl
@[simp] theorem loadVector_freeCtr (va : Word) : (loadVector va s).freeCtr = s.freeCtr := rfl

/-! ### sfrPut -/

@[simp] theorem sfrPut_cfg (r : Sfr) (v : Byte) : (sfrPut r v s).cfg = s.cfg := by cases r <;> rfl
@[simp] theorem sfrPut_pc (r : Sfr) (v : Byte) : (sfrPut r v s).pc = s.pc := by cases r <;> rfl
@[simp] theorem sfrPut_ssp (r : Sfr) (v : Byte) : (sfrPut r v s).ssp = s.ssp := by cases r <;> rfl
@[simp] theorem sfrPut_usp (r : Sfr) (v : Byte) : (sfrPut r v s).usp = s.usp := by cases r <;> rfl
@[simp] theorem sfrPut_regs (r : Sfr) (v : Byte) : (sfrPut r v s).regs = s.regs := by cases r <;> rfl
@[simp] theorem sfrPut_ds (r : Sfr) (v : Byte) : (sfrPut r v s).ds = s.ds := by cases r <;> rfl
@[simp] theorem sfrPut_pending (r : Sfr) (v : Byte) : (sfrPut r v s).pending = s.pending := by cases r <;> rfl
@[simp] theorem sfrPut_code (r : Sfr) (v : Byte) : (sfrPut r v s).code = s.code := by cases r <;> rfl
@[simp] theorem sfrPut_data (r : Sfr) (v : Byte) : (sfrPut r v s).data = s.data := by cases r <;> rfl
@[simp] theorem sfrPut_inputs (r : Sfr) (v : Byte) : (sfrPut r v s).inputs = s.inputs := by cases r <;> rfl
@[simp] theorem sfrPut_supplied (r : Sfr) (v : Byte) : (sfrPut r v s).supplied = s.supplied := by cases r <;> rfl
@[simp] theorem sfrPut_hold (r : Sfr) (v : Byte) : (sfrPut r v s).hold = s.hold := by cases r <;> rfl
@[simp] theorem sfrPut_freeCtr (r : Sfr) (v : Byte) : (sfrPut r v s).freeCtr = s.freeCtr := by cases r <;> rfl

/-! ### raiseBit -/

@[simp] theorem raiseBit_cfg (b : BitName) : (raiseBit b s).cfg = s.cfg := by simp [raiseBit]
@[simp] theorem raiseBit_pc (b : BitName) : (raiseBit b s).pc = s.pc := by simp [raiseBit]
@[simp] theorem raiseBit_ssp (b : BitName) : (raiseBit b s).ssp = s.ssp := by simp [raiseBit]
@[simp] theorem raiseBit_usp (b : BitName) : (raiseBit b s).usp = s.usp := by simp [raiseBit]
@[simp] theorem raiseBit_regs (b : BitName) : (raiseBit b s).regs = s.regs := by simp [raiseBit]
@[simp] theorem raiseBit_ds (b : BitName) : (raiseBit b s).ds = s.ds := by simp [raiseBit]
@[simp] theorem raiseBit_pending (b : BitName) : (raiseBit b s).pending = s.pending := by simp [raiseBit]
@[simp] theorem raiseBit_code (b : BitName) : (raiseBit b s).code = s.code := by simp [raiseBit]
@[simp] theorem raiseBit_data (b : BitName) : (raiseBit b s).data = s.data := by simp [raiseBit]
@[simp] theorem raiseBit_inputs (b : BitName) : (raiseBit b s).inputs = s.inputs := by simp [raiseBit]
@[simp] theorem raiseBit_supplied (b : BitName) : (raiseBit b s).supplied = s.supplied := by simp [raiseBit]
@[simp] theorem raiseBit_hold (b : BitName) : (raiseBit b s).hold = s.hold := by simp [raiseBit]
@[simp] theorem raiseBit_freeCtr (b : BitName) : (raiseBit b s).freeCtr = s.freeCtr := by simp [raiseBit]

/-! ### clearBit -/

@[simp] theorem clearBit_cfg (b : BitName) : (clearBit b s).cfg = s.cfg := by simp [clearBit]
@[simp] theorem clearBit_pc (b : BitName) : (clearBit b s).pc = s.pc := by simp [clearBit]
@[simp] theorem clearBit_ssp (b : BitName) : (clearBit b s).ssp = s.ssp := by simp [clearBit]
@[simp] theorem clearBit_usp (b : BitName) : (clearBit b s).usp = s.usp := by simp [clearBit]
@[simp] theorem clearBit_regs (b : BitName) : (clearBit b s).regs = s.regs := by simp [clearBit]
@[simp] theorem clearBit_ds (b : BitName) : (clearBit b s).ds = s.ds := by simp [clearBit]
@[simp] theorem clearBit_pending (b : BitName) : (clearBit b s).pending = s.pending := by simp [clearBit]
@[simp] theorem clearBit_code (b : BitName) : (clearBit b s).code = s.code := by simp [clearBit]
@[simp] theorem clearBit_data (b : BitName) : (clearBit b s).data = s.data := by simp [clearBit]
@[simp] theorem clearBit_inputs (b : BitName) : (clearBit b s).inputs = s.inputs := by simp [clearBit]
@[simp] theorem clearBit_supplied (b : BitName) : (clearBit b s).supplied = s.supplied := by simp [clearBit]
@[simp] theorem clearBit_hold (b : BitName) : (clearBit b s).hold = s.hold := by simp [clearBit]
@[simp] theorem clearBit_freeCtr (b : BitName) : (clearBit b s).freeCtr = s.freeCtr := by simp [clearBit]

/-! ### pushSys -/

@[simp] theorem pushSys_cfg (v : Word) : (pushSys v s).cfg = s.cfg := by unfold pushSys; dsimp only; split <;> rfl
@[simp] theorem pushSys_pc (v : Word) : (pushSys v s).pc = s.pc := by unfold pushSys; dsimp only; split <;> rfl
@[simp] theorem pushSys_pswh (v : Word) : (pushSys v s).pswh = s.pswh := by unfold pushSys; dsimp only; split <;> rfl
@[simp] theorem pushSys_pswl (v : Word) : (pushSys v s).pswl = s.pswl := by unfold pushSys; dsimp only; split <;> rfl
@[simp] theorem pushSys_usp (v : Word) : (pushSys v s).usp = s.usp := by unfold pushSys; dsimp only; split <;> rfl
@[simp] theorem pushSys_regs (v : Word) : (pushSys v s).regs = s.regs := by unfold pushSys; dsimp only; split <;> rfl
@[simp] theorem pushSys_ds (v : Word) : (pushSys v s).ds = s.ds := by unfold pushSys; dsimp only; split <;> rfl
@[simp] theorem pushSys_sfr (v : Word) : (pushSys v s).sfr = s.sfr := by unfold pushSys; dsimp only; split <;> rfl
@[simp] theorem pushSys_code (v : Word) : (pushSys v s).code = s.code := by unfold pushSys; dsimp only; split <;> rfl
@[simp] theorem pushSys_inputs (v : Word) : (pushSys v s).inputs = s.inputs := by unfold pushSys; dsimp only; split <;> rfl
@[simp] theorem pushSys_supplied (v : Word) : (pushSys v s).supplied = s.supplied := by unfold pushSys; dsimp only; split <;> rfl
@[simp] theorem pushSys_hold (v : Word) : (pushSys v s).hold = s.hold := by unfold pushSys; dsimp only; split <;> rfl
@[simp] theorem pushSys_freeCtr (v : Word) : (pushSys v s).freeCtr = s.freeCtr := by unfold pushSys; dsimp only; split <;> rfl

/-! ### pushUser -/

@[simp] theorem pushUser_cfg (v : Word) : (pushUser v s).cfg = s.cfg := by unfold pushUser; dsimp only; split <;> rfl
@[simp] theorem pushUser_pc (v : Word) : (pushUser v s).pc = s.pc := by unfold pushUser; dsimp only; split <;> rfl
@[simp] theorem pushUser_pswh (v : Word) : (pushUser v s).pswh = s.pswh := by unfold pushUser; dsimp only; split <;> rfl
@[simp] theorem pushUser_pswl (v : Word) : (pushUser v s).pswl = s.pswl := by unfold pushUser; dsimp only; split <;> rfl
@[simp] theorem pushUser_ssp (v : Word) : (pushUser v s).ssp = s.ssp := by unfold pushUser; dsimp only; split <;> rfl
@[simp] theorem pushUser_regs (v : Word) : (pushUser v s).regs = s.regs := by unfold pushUser; dsimp only; split <;> rfl
@[simp] theorem pushUser_ds (v : Word) : (pushUser v s).ds = s.ds := by unfold pushUser; dsimp only; split <;> rfl
@[simp] theorem pushUser_sfr (v : Word) : (pushUser v s).sfr = s.sfr := by unfold pushUser; dsimp only; split <;> rfl
@[simp] theorem pushUser_code (v : Word) : (pushUser v s).code = s.code := by unfold pushUser; dsimp only; split <;> rfl
@[simp] theorem pushUser_inputs (v : Word) : (pushUser v s).inputs = s.inputs := by unfold pushUser; dsimp only; split <;> rfl
@[simp] theorem pushUser_supplied (v : Word) : (pushUser v s).supplied = s.supplied := by unfold pushUser; dsimp only; split <;> rfl
@[simp] theorem pushUser_hold (v : Word) : (pushUser v s).hold = s.hold := by unfold pushUser; dsimp only; split <;> rfl
@[simp] theorem pushUser_freeCtr (v : Word) : (pushUser v s).freeCtr = s.freeCtr := by unfold pushUser; dsimp only; split <;> rfl

/-! ### pushFrame -/

@[simp] theorem pushFrame_cfg (ret : CodeAddr) : (pushFrame ret s).cfg = s.cfg := by unfold pushFrame; dsimp only; split <;> simp
@[simp] theorem pushFrame_pc (ret : CodeAddr) : (pushFrame ret s).pc = s.pc := by unfold pushFrame; dsimp only; split <;> simp
@[simp] theorem pushFrame_pswh (ret : CodeAddr) : (pushFrame ret s).pswh = s.pswh := by unfold pushFrame; dsimp only; split <;> simp
@[simp] theorem pushFrame_pswl (ret : CodeAddr) : (pushFrame ret s).pswl = s.pswl := by unfold pushFrame; dsimp only; split <;> simp
@[simp] theorem pushFrame_usp (ret : CodeAddr) : (pushFrame ret s).usp = s.usp := by unfold pushFrame; dsimp only; split <;> simp
@[simp] theorem pushFrame_regs (ret : CodeAddr) : (pushFrame ret s).regs = s.regs := by unfold pushFrame; dsimp only; split <;> simp
@[simp] theorem pushFrame_ds (ret : CodeAddr) : (pushFrame ret s).ds = s.ds := by unfold pushFrame; dsimp only; split <;> simp
@[simp] theorem pushFrame_sfr (ret : CodeAddr) : (pushFrame ret s).sfr = s.sfr := by unfold pushFrame; dsimp only; split <;> simp
@[simp] theorem pushFrame_code (ret : CodeAddr) : (pushFrame ret s).code = s.code := by unfold pushFrame; dsimp only; split <;> simp
@[simp] theorem pushFrame_inputs (ret : CodeAddr) : (pushFrame ret s).inputs = s.inputs := by unfold pushFrame; dsimp only; split <;> simp
@[simp] theorem pushFrame_supplied (ret : CodeAddr) : (pushFrame ret s).supplied = s.supplied := by unfold pushFrame; dsimp only; split <;> simp
@[simp] theorem pushFrame_hold (ret : CodeAddr) : (pushFrame ret s).hold = s.hold := by unfold pushFrame; dsimp only; split <;> simp
@[simp] theorem pushFrame_freeCtr (ret : CodeAddr) : (pushFrame ret s).freeCtr = s.freeCtr := by unfold pushFrame; dsimp only; split <;> simp

/-! ### popFrame -/

@[simp] theorem popFrame_cfg : (popFrame s).cfg = s.cfg := by unfold popFrame; dsimp only; split <;> rfl
@[simp] theorem popFrame_usp : (popFrame s).usp = s.usp := by unfold popFrame; dsimp only; split <;> rfl
@[simp] theorem popFrame_regs : (popFrame s).regs = s.regs := by unfold popFrame; dsimp only; split <;> rfl
@[simp] theorem popFrame_ds : (popFrame s).ds = s.ds := by unfold popFrame; dsimp only; split <;> rfl
@[simp] theorem popFrame_sfr : (popFrame s).sfr = s.sfr := by unfold popFrame; dsimp only; split <;> rfl
@[simp] theorem popFrame_pending : (popFrame s).pending = s.pending := by unfold popFrame; dsimp only; split <;> rfl
@[simp] theorem popFrame_code : (popFrame s).code = s.code := by unfold popFrame; dsimp only; split <;> rfl
@[simp] theorem popFrame_data : (popFrame s).data = s.data := by unfold popFrame; dsimp only; split <;> rfl
@[simp] theorem popFrame_inputs : (popFrame s).inputs = s.inputs := by unfold popFrame; dsimp only; split <;> rfl
@[simp] theorem popFrame_supplied : (popFrame s).supplied = s.supplied := by unfold popFrame; dsimp only; split <;> rfl
@[simp] theorem popFrame_hold : (popFrame s).hold = s.hold := by unfold popFrame; dsimp only; split <;> rfl
@[simp] theorem popFrame_freeCtr : (popFrame s).freeCtr = s.freeCtr := by unfold popFrame; dsimp only; split <;> rfl

@[simp] theorem pushSys_ssp (v : Word) : (pushSys v s).ssp = s.ssp - 2#16 := by unfold pushSys; dsimp only; split <;> rfl
@[simp] theorem pushUser_usp (v : Word) : (pushUser v s).usp = s.usp - 2#16 := by unfold pushUser; dsimp only; split <;> rfl

/-! ### useFree -/

@[simp] theorem useFree_cfg : (useFree s).cfg = s.cfg := rfl
@[simp] theorem useFree_pc : (useFree s).pc = s.pc := rfl
@[simp] theorem useFree_pswh : (useFree s).pswh = s.pswh := rfl
@[simp] theorem useFree_pswl : (useFree s).pswl = s.pswl := rfl
@[simp] theorem useFree_ssp : (useFree s).ssp = s.ssp := rfl
@[simp] theorem useFree_usp : (useFree s).usp = s.usp := rfl
@[simp] theorem useFree_regs : (useFree s).regs = s.regs := rfl
@[simp] theorem useFree_ds : (useFree s).ds = s.ds := rfl
@[simp] theorem useFree_sfr : (useFree s).sfr = s.sfr := rfl
@[simp] theorem useFree_pending : (useFree s).pending = s.pending := rfl
@[simp] theorem useFree_code : (useFree s).code = s.code := rfl
@[simp] theorem useFree_data : (useFree s).data = s.data := rfl
@[simp] theorem useFree_inputs : (useFree s).inputs = s.inputs := rfl
@[simp] theorem useFree_supplied : (useFree s).supplied = s.supplied := rfl
@[simp] theorem useFree_hold : (useFree s).hold = s.hold := rfl
@[simp] theorem useFree_freeCtr : (useFree s).freeCtr = s.freeCtr + 1 := rfl

/-! ### setSp -/

@[simp] theorem setSp_cfg (n : StackName) (v : Word) : (setSp n v s).cfg = s.cfg := by unfold setSp; split <;> rfl
@[simp] theorem setSp_pc (n : StackName) (v : Word) : (setSp n v s).pc = s.pc := by unfold setSp; split <;> rfl
@[simp] theorem setSp_pswh (n : StackName) (v : Word) : (setSp n v s).pswh = s.pswh := by unfold setSp; split <;> rfl
@[simp] theorem setSp_pswl (n : StackName) (v : Word) : (setSp n v s).pswl = s.pswl := by unfold setSp; split <;> rfl
@[simp] theorem setSp_regs (n : StackName) (v : Word) : (setSp n v s).regs = s.regs := by unfold setSp; split <;> rfl
@[simp] theorem setSp_ds (n : StackName) (v : Word) : (setSp n v s).ds = s.ds := by unfold setSp; split <;> rfl
@[simp] theorem setSp_sfr (n : StackName) (v : Word) : (setSp n v s).sfr = s.sfr := by unfold setSp; split <;> rfl
@[simp] theorem setSp_pending (n : StackName) (v : Word) : (setSp n v s).pending = s.pending := by unfold setSp; split <;> rfl
@[simp] theorem setSp_code (n : StackName) (v : Word) : (setSp n v s).code = s.code := by unfold setSp; split <;> rfl
@[simp] theorem setSp_data (n : StackName) (v : Word) : (setSp n v s).data = s.data := by unfold setSp; split <;> rfl
@[simp] theorem setSp_inputs (n : StackName) (v : Word) : (setSp n v s).inputs = s.inputs := by unfold setSp; split <;> rfl
@[simp] theorem setSp_supplied (n : StackName) (v : Word) : (setSp n v s).supplied = s.supplied := by unfold setSp; split <;> rfl
@[simp] theorem setSp_hold (n : StackName) (v : Word) : (setSp n v s).hold = s.hold := by unfold setSp; split <;> rfl
@[simp] theorem setSp_freeCtr (n : StackName) (v : Word) : (setSp n v s).freeCtr = s.freeCtr := by unfold setSp; split <;> rfl

/-! ### pushOn -/

@[simp] theorem pushOn_cfg (n : StackName) (v : Word) : (pushOn n v s).cfg = s.cfg := by unfold pushOn; split <;> simp
@[simp] theorem pushOn_pc (n : StackName) (v : Word) : (pushOn n v s).pc = s.pc := by unfold pushOn; split <;> simp
@[simp] theorem pushOn_pswh (n : StackName) (v : Word) : (pushOn n v s).pswh = s.pswh := by unfold pushOn; split <;> simp
@[simp] theorem pushOn_pswl (n : StackName) (v : Word) : (pushOn n v s).pswl = s.pswl := by unfold pushOn; split <;> simp
@[simp] theorem pushOn_regs (n : StackName) (v : Word) : (pushOn n v s).regs = s.regs := by unfold pushOn; split <;> simp
@[simp] theorem pushOn_ds (n : StackName) (v : Word) : (pushOn n v s).ds = s.ds := by unfold pushOn; split <;> simp
@[simp] theorem pushOn_sfr (n : StackName) (v : Word) : (pushOn n v s).sfr = s.sfr := by unfold pushOn; split <;> simp
@[simp] theorem pushOn_code (n : StackName) (v : Word) : (pushOn n v s).code = s.code := by unfold pushOn; split <;> simp
@[simp] theorem pushOn_inputs (n : StackName) (v : Word) : (pushOn n v s).inputs = s.inputs := by unfold pushOn; split <;> simp
@[simp] theorem pushOn_supplied (n : StackName) (v : Word) : (pushOn n v s).supplied = s.supplied := by unfold pushOn; split <;> simp
@[simp] theorem pushOn_hold (n : StackName) (v : Word) : (pushOn n v s).hold = s.hold := by unfold pushOn; split <;> simp
@[simp] theorem pushOn_freeCtr (n : StackName) (v : Word) : (pushOn n v s).freeCtr = s.freeCtr := by unfold pushOn; split <;> simp

/-! ### traceAfter -/

@[simp] theorem traceAfter_cfg (x : Completed) (t : State) : (traceAfter x s t).cfg = t.cfg := by unfold traceAfter; split <;> rfl
@[simp] theorem traceAfter_pc (x : Completed) (t : State) : (traceAfter x s t).pc = t.pc := by unfold traceAfter; split <;> rfl
@[simp] theorem traceAfter_pswh (x : Completed) (t : State) : (traceAfter x s t).pswh = t.pswh := by unfold traceAfter; split <;> rfl
@[simp] theorem traceAfter_pswl (x : Completed) (t : State) : (traceAfter x s t).pswl = t.pswl := by unfold traceAfter; split <;> rfl
@[simp] theorem traceAfter_ssp (x : Completed) (t : State) : (traceAfter x s t).ssp = t.ssp := by unfold traceAfter; split <;> rfl
@[simp] theorem traceAfter_usp (x : Completed) (t : State) : (traceAfter x s t).usp = t.usp := by unfold traceAfter; split <;> rfl
@[simp] theorem traceAfter_regs (x : Completed) (t : State) : (traceAfter x s t).regs = t.regs := by unfold traceAfter; split <;> rfl
@[simp] theorem traceAfter_ds (x : Completed) (t : State) : (traceAfter x s t).ds = t.ds := by unfold traceAfter; split <;> rfl
@[simp] theorem traceAfter_sfr (x : Completed) (t : State) : (traceAfter x s t).sfr = t.sfr := by unfold traceAfter; split <;> rfl
@[simp] theorem traceAfter_code (x : Completed) (t : State) : (traceAfter x s t).code = t.code := by unfold traceAfter; split <;> rfl
@[simp] theorem traceAfter_data (x : Completed) (t : State) : (traceAfter x s t).data = t.data := by unfold traceAfter; split <;> rfl
@[simp] theorem traceAfter_inputs (x : Completed) (t : State) : (traceAfter x s t).inputs = t.inputs := by unfold traceAfter; split <;> rfl
@[simp] theorem traceAfter_supplied (x : Completed) (t : State) : (traceAfter x s t).supplied = t.supplied := by unfold traceAfter; split <;> rfl
@[simp] theorem traceAfter_hold (x : Completed) (t : State) : (traceAfter x s t).hold = t.hold := by unfold traceAfter; split <;> rfl
@[simp] theorem traceAfter_freeCtr (x : Completed) (t : State) : (traceAfter x s t).freeCtr = t.freeCtr := by unfold traceAfter; split <;> rfl

end Sys2Proof.Machine
end

