-- ==== Sys2Proof/Laws/Memory.lean ====
section
/-! SUPPORT. The laws of the sparse contents: read after write, and that every operation keeps the canonical form and
stays inside the address space. -/

namespace Sys2Proof.Machine

section Sparse

variable {α : Type} (fill : Nat → α)

theorem Memory.read_dropWhile_ge (m : Memory α) {a b : Nat} (h : b ≤ a) :
    Memory.read fill (m.dropWhile fun c => decide (c.1 ≤ a)) b = fill b := by
  induction m with
  | nil => rfl
  | cons c m ih =>
    by_cases hc : c.1 ≤ a
    · simpa [List.dropWhile_cons, hc] using ih
    · have h1 : b ≠ c.1 := by omega
      have h2 : b < c.1 := by omega
      simp [hc, Memory.read, h1, h2]

theorem Memory.read_dropWhile_lt (m : Memory α) {a b : Nat} (h : a < b) :
    Memory.read fill (m.dropWhile fun c => decide (c.1 ≤ a)) b = Memory.read fill m b := by
  induction m with
  | nil => rfl
  | cons c m ih =>
    by_cases hc : c.1 ≤ a
    · have h1 : b ≠ c.1 := by omega
      have h2 : ¬ b < c.1 := by omega
      simpa [List.dropWhile_cons, hc, Memory.read, h1, h2] using ih
    · simp [hc]

variable [DecidableEq α]

/-- A read after a write to the same address gives the value written. -/
@[simp] theorem Memory.read_write_same (m : Memory α) (a : Nat) (v : α) :
    Memory.read fill (Memory.write fill m a v) a = v := by
  induction m with
  | nil => by_cases hv : v = fill a <;> simp [Memory.write, Memory.read, hv]
  | cons c m ih =>
    obtain ⟨k, w⟩ := c
    rcases lt_trichotomy a k with h | h | h
    · by_cases hv : v = fill a <;> simp [Memory.write, Memory.read, hv, h, Nat.ne_of_lt h]
    · subst h
      by_cases hv : v = fill a
      · simp [Memory.write, hv, Memory.read_dropWhile_ge]
      · simp [Memory.write, hv, Memory.read]
    · have h1 : ¬ a < k := by omega
      have h2 : a ≠ k := by omega
      simp [Memory.write, Memory.read, h1, h2, ih]

/-- A write leaves every other address alone. -/
theorem Memory.read_write_ne (m : Memory α) {a b : Nat} (v : α) (hab : b ≠ a) :
    Memory.read fill (Memory.write fill m a v) b = Memory.read fill m b := by
  induction m with
  | nil =>
    by_cases hv : v = fill a
    · simp [Memory.write, hv]
    · simp [Memory.write, Memory.read, hv, hab]
  | cons c m ih =>
    obtain ⟨k, w⟩ := c
    rcases lt_trichotomy a k with h | h | h
    · by_cases hv : v = fill a
      · simp [Memory.write, hv, h]
      · rcases Nat.lt_or_gt_of_ne hab with hb | hb
        · have h1 : b ≠ k := by omega
          have h2 : b < k := by omega
          simp [Memory.write, Memory.read, hv, h, hab, hb, h1, h2]
        · have h1 : ¬ b < a := by omega
          simp [Memory.write, Memory.read, hv, h, hab, h1]
    · subst h
      by_cases hv : v = fill a
      · rcases Nat.lt_or_gt_of_ne hab with hb | hb
        · rw [Memory.write, if_neg (by omega), if_pos rfl, if_pos hv, Memory.read_dropWhile_ge fill m (by omega)]
          simp [Memory.read, hab, hb]
        · rw [Memory.write, if_neg (by omega), if_pos rfl, if_pos hv, Memory.read_dropWhile_lt fill m hb]
          have h1 : ¬ b < a := by omega
          simp [Memory.read, hab, h1]
      · simp [Memory.write, Memory.read, hv, hab]
    · have h1 : ¬ a < k := by omega
      have h2 : a ≠ k := by omega
      simp only [Memory.write, Memory.read, h1, h2, if_false, ih]

theorem Memory.wfFrom_mono {m : Memory α} {lo lo' : Nat} (h : Memory.wfFrom fill lo m = true) (hlo : lo' ≤ lo) :
    Memory.wfFrom fill lo' m = true := by
  cases m with
  | nil => rfl
  | cons c m =>
    simp only [Memory.wfFrom, Bool.and_eq_true, decide_eq_true_eq] at h ⊢
    exact ⟨⟨by omega, h.1.2⟩, h.2⟩

theorem Memory.wfFrom_dropWhile {m : Memory α} {lo : Nat} {p : Nat × α → Bool} (h : Memory.wfFrom fill lo m = true) :
    Memory.wfFrom fill lo (m.dropWhile p) = true := by
  induction m generalizing lo with
  | nil => rfl
  | cons c m ih =>
    by_cases hp : p c
    · simp only [List.dropWhile_cons, hp, if_true]
      simp only [Memory.wfFrom, Bool.and_eq_true, decide_eq_true_eq] at h
      exact Memory.wfFrom_mono fill (ih h.2) (by omega)
    · simpa [List.dropWhile_cons, hp] using h

theorem Memory.wfFrom_write {m : Memory α} {lo : Nat} (a : Nat) (v : α) (hlo : lo ≤ a)
    (h : Memory.wfFrom fill lo m = true) : Memory.wfFrom fill lo (Memory.write fill m a v) = true := by
  induction m generalizing lo with
  | nil => by_cases hv : v = fill a <;> simp [Memory.write, Memory.wfFrom, hv, hlo]
  | cons c m ih =>
    obtain ⟨k, w⟩ := c
    simp only [Memory.wfFrom, Bool.and_eq_true, decide_eq_true_eq] at h
    obtain ⟨⟨h1, h2⟩, h3⟩ := h
    rcases lt_trichotomy a k with hk | hk | hk
    · have ha : a + 1 ≤ k := hk
      by_cases hv : v = fill a <;> simp [Memory.write, Memory.wfFrom, hv, hk, hlo, h1, h2, h3, ha]
    · subst hk
      by_cases hv : v = fill a
      · have := Memory.wfFrom_dropWhile fill (p := fun c => decide (c.1 ≤ a)) h3
        simpa [Memory.write, hv] using Memory.wfFrom_mono fill this (by omega)
      · simp [Memory.write, Memory.wfFrom, hv, hlo, h3]
    · have g1 : ¬ a < k := by omega
      have g2 : a ≠ k := by omega
      simp [Memory.write, Memory.wfFrom, g1, g2, h1, h2, ih (lo := k + 1) (by omega) h3]

/-- A write keeps the canonical form. -/
theorem Memory.wf_write {m : Memory α} (a : Nat) (v : α) (h : Memory.wf fill m = true) :
    Memory.wf fill (Memory.write fill m a v) = true := Memory.wfFrom_write fill a v (Nat.zero_le a) h

/-- A write inside the address space stays inside it. -/
theorem Memory.within_write {m : Memory α} {bound : Nat} (a : Nat) (v : α) (ha : a < bound)
    (h : Memory.within bound m = true) : Memory.within bound (Memory.write fill m a v) = true := by
  simp only [Memory.within, List.all_eq_true, decide_eq_true_eq] at h ⊢
  induction m with
  | nil => by_cases hv : v = fill a <;> simp [Memory.write, hv, ha]
  | cons c m ih =>
    obtain ⟨k, w⟩ := c
    have hm := ih fun x hx => h x (List.mem_cons_of_mem _ hx)
    intro x hx
    unfold Memory.write at hx
    split at hx
    · split at hx
      · exact h x hx
      · rcases List.mem_cons.1 hx with rfl | hx
        · exact ha
        · exact h x hx
    · split at hx
      · split at hx
        · exact h x (List.mem_cons_of_mem _ ((List.dropWhile_suffix _).subset hx))
        · rcases List.mem_cons.1 hx with rfl | hx
          · exact ha
          · exact h x (List.mem_cons_of_mem _ hx)
      · rcases List.mem_cons.1 hx with rfl | hx
        · exact h _ (List.mem_cons_self ..)
        · exact hm x hx

end Sparse

/-! ### Bytes and words of the two memories -/

variable (s : State)

@[simp] theorem dataByte_dataPut_same (a : Word) (v : Byte) : dataByte (dataPut a v s) a = v := by
  simp [dataByte, dataPut]

theorem dataByte_dataPut_ne {a b : Word} (v : Byte) (h : b ≠ a) : dataByte (dataPut a v s) b = dataByte s b := by
  have : b.toNat ≠ a.toNat := fun e => h (BitVec.eq_of_toNat_eq e)
  simp [dataByte, dataPut, Memory.read_write_ne _ _ _ this]

/-- What MemWrite can do to a byte: the two bytes of the word take the value's halves, every other stays. -/
theorem dataByte_memWrite16 (a v : Word) (b : Word) :
    dataByte (memWrite16 a v s) b =
      if b = a + 1#16 then hiByte v else if b = a then loByte v else dataByte s b := by
  unfold memWrite16
  by_cases h1 : b = a + 1#16
  · subst h1; simp
  · rw [dataByte_dataPut_ne _ _ h1, if_neg h1]
    by_cases h2 : b = a
    · subst h2; simp
    · rw [dataByte_dataPut_ne _ _ h2, if_neg h2]

@[simp] theorem mkWord_hiByte_loByte (w : Word) : mkWord (hiByte w) (loByte w) = w := by
  unfold mkWord hiByte loByte; ext i hi
  simp only [BitVec.getElem_append, BitVec.getElem_extractLsb']
  split
  · simp only [Nat.zero_add]; rfl
  · rename_i h; rw [show 8 + (i - 8) = i by omega]; rfl

@[simp] theorem hiByte_mkWord (a b : Byte) : hiByte (mkWord a b) = a := by
  unfold mkWord hiByte; ext i hi
  simp only [BitVec.getElem_extractLsb', BitVec.getLsbD_append]
  simp [BitVec.getLsbD_eq_getElem hi]

@[simp] theorem loByte_mkWord (a b : Byte) : loByte (mkWord a b) = b := by
  unfold mkWord loByte; ext i hi
  simp only [BitVec.getElem_extractLsb', BitVec.getLsbD_append]
  simp [hi]

/-- A word read after it is written gives the value written. -/
@[simp] theorem memRead16_memWrite16_same (a v : Word) : memRead16 (memWrite16 a v s) a = v := by
  simp [memRead16, dataByte_memWrite16]

/-- Code memory is not touched by a store to data memory. -/
theorem codeByte_congr {s t : State} (h : t.code = s.code) (a : CodeAddr) : codeByte t a = codeByte s a := by
  simp [codeByte, h]

theorem codeRead16_congr {s t : State} (h : t.code = s.code) (a : Word) : codeRead16 t a = codeRead16 s a := by
  simp [codeRead16, codeByte_congr h]

theorem dataByte_congr {s t : State} (h : t.data = s.data) (a : Word) : dataByte t a = dataByte s a := by
  simp [dataByte, h]

theorem memRead16_congr {s t : State} (h : t.data = s.data) (a : Word) : memRead16 t a = memRead16 s a := by
  simp [memRead16, dataByte_congr h]

@[simp] theorem regGet_regPut_same (i v : Nat) : regGet (regPut i v s) i = v := by simp [regGet, regPut]

theorem regGet_regPut_ne {i j : Nat} (v : Nat) (h : j ≠ i) : regGet (regPut i v s) j = regGet s j := by
  simp [regGet, regPut, Memory.read_write_ne _ _ _ h]

end Sys2Proof.Machine
end

