-- ==== Sys2Proof/Laws/Sfr.lean ====
section
/-! SUPPORT. The laws of the special function registers: read after write, the address map, named bits, SfrWrite. -/

namespace Sys2Proof.Machine

variable (s : State)

/-! ### Read after write -/

@[simp] theorem sfrGet_sfrPut_same (r : Sfr) (v : Byte) : sfrGet r (sfrPut r v s) = v := by cases r <;> rfl

theorem sfrGet_sfrPut_ne {r r' : Sfr} (v : Byte) (h : r' ≠ r) : sfrGet r' (sfrPut r v s) = sfrGet r' s := by
  cases r <;> cases r' <;> first | rfl | exact absurd rfl h

/-- A register reads the same in states with the same PSW and the same registers. -/
theorem sfrGet_congr {s t : State} (hh : t.pswh = s.pswh) (hl : t.pswl = s.pswl) (hs : t.sfr = s.sfr) (r : Sfr) :
    sfrGet r t = sfrGet r s := by
  cases r <;> simp [sfrGet, hh, hl, hs]

/-- A register other than PSWH and PSWL reads the same in states with the same registers. -/
theorem sfrGet_congr_sfr {s t : State} (hs : t.sfr = s.sfr) {r : Sfr} (hh : r ≠ .pswh) (hl : r ≠ .pswl) :
    sfrGet r t = sfrGet r s := by
  cases r <;> first | exact absurd rfl hh | exact absurd rfl hl | simp [sfrGet, hs]

@[simp] theorem sfrGet_pswh : sfrGet .pswh s = s.pswh := rfl

@[simp] theorem sfrGet_pswl : sfrGet .pswl s = s.pswl := rfl

theorem sfrMask_congr {s t : State} (h : t.cfg = s.cfg) (r : Sfr) : sfrMask r t = sfrMask r s := by
  simp [sfrMask, h]

/-! ### The address map -/

/-- A direct address names at most the register it is the address of. -/
theorem sfrAddr_of_sfrAt {c : Config} {a : BitVec 11} {r : Sfr} (h : sfrAt c a = some r) : sfrAddr c r = a := by
  have := List.find?_some h
  simpa using this

theorem mem_allSfrs (r : Sfr) : r ∈ allSfrs := by cases r <;> decide

theorem mem_allBits (b : BitName) : b ∈ allBits := by cases b <;> decide

/-- In a map a chip can have, no two registers have one address. -/
theorem sfrAddr_injective {c : Config} (h : mapWf c = true) {r r' : Sfr} (e : sfrAddr c r = sfrAddr c r') : r = r' := by
  simp only [mapWf, Bool.and_eq_true, decide_eq_true_eq] at h
  exact List.inj_on_of_nodup_map h.1.2 (mem_allSfrs r) (mem_allSfrs r') e

/-- In a map a chip can have, no two named bits have one place. -/
theorem bitPlace_injective {c : Config} (h : mapWf c = true) {b b' : BitName} (e : bitPlace c b = bitPlace c b') :
    b = b' := by
  simp only [mapWf, Bool.and_eq_true, decide_eq_true_eq] at h
  exact List.inj_on_of_nodup_map h.1.1 (mem_allBits b) (mem_allBits b') e

/-- The registers lie in the space of the special function registers, the bit-addressable ones below 440h. -/
theorem sfrAddr_range {c : Config} (h : mapWf c = true) (r : Sfr) :
    0x400 ≤ (sfrAddr c r).toNat ∧ (bitAddressable r = true → (sfrAddr c r).toNat < 0x440) := by
  simp only [mapWf, Bool.and_eq_true, decide_eq_true_eq, List.all_eq_true] at h
  have := h.2 r (mem_allSfrs r)
  simp only [Bool.or_eq_true, Bool.not_eq_true', decide_eq_true_eq] at this
  exact ⟨this.1, fun hb => this.2.resolve_left (by simp [hb])⟩

/-- In a map a chip can have, every register is found at its own address. -/
theorem sfrAt_sfrAddr {c : Config} (h : mapWf c = true) (r : Sfr) : sfrAt c (sfrAddr c r) = some r := by
  cases hf : sfrAt c (sfrAddr c r) with
  | none =>
    have := List.find?_eq_none.1 hf r (mem_allSfrs r)
    simp at this
  | some r' => rw [sfrAddr_injective h (sfrAddr_of_sfrAt hf)]

/-- What a bit address can name: the register at its byte's address, bit addressable, and a bit number below 8. -/
theorem bitAt_eq_some {c : Config} {b : BitVec 10} {r : Sfr} {n : Nat} (h : bitAt c b = some (r, n)) :
    0x200 ≤ b.toNat ∧ sfrAt c (bitByte b) = some r ∧ bitAddressable r = true ∧ n = b.toNat % 8 := by
  unfold bitAt at h
  split at h
  · cases h
  · split at h
    · rename_i h1 r' h2
      split at h
      · cases h; exact ⟨by omega, h2, ‹_›, rfl⟩
      · cases h
    · cases h

/-! ### Places of named bits -/

/-- A named bit is in its general-knowledge register, or, where the source leaves the choice, in that one's pair. -/
theorem bitReg_cases (c : Config) (b : BitName) :
    bitReg c b = (familyPlace b).1 ∨ (twoHomes b = true ∧ bitReg c b = pairedReg (familyPlace b).1) := by
  unfold bitReg
  split
  · exact .inl rfl
  · split
    · split
      · exact .inr ⟨‹_›, rfl⟩
      · exact .inl rfl
    · exact .inl rfl

/-- A bit with one home is in its general-knowledge register. -/
theorem bitReg_of_oneHome {b : BitName} (h : twoHomes b = false) (c : Config) : bitReg c b = (familyPlace b).1 := by
  rcases bitReg_cases c b with e | ⟨h', _⟩
  · exact e
  · rw [h] at h'; cases h'

/-- An individual enable is in IEL or IEH, a bit of Timer 2 with two homes in T2CON or T2MOD. -/
theorem bitReg_of_twoHomes {b : BitName} (h : twoHomes b = true) (c : Config) :
    bitReg c b = .iel ∨ bitReg c b = .ieh ∨ bitReg c b = .t2con ∨ bitReg c b = .t2mod := by
  rcases bitReg_cases c b with e | ⟨_, e⟩ <;> rw [e] <;> cases b <;> simp_all [twoHomes, familyPlace, pairedReg]

theorem bitPos_lt (c : Config) (b : BitName) : bitPos c b < 8 := by
  unfold bitPos
  split
  · exact Fin.isLt _
  · cases b <;> decide

/-- A place the source fixes is the same in every configuration. -/
theorem bitPos_of_fixed {b : BitName} (h : placeFixed b = true) (c : Config) : bitPos c b = (familyPlace b).2 := by
  simp [bitPos, moveOf, h]

/-- No named bit is in a register whose contents are not named bits. -/
theorem bitReg_ne_unnamed (c : Config) (b : BitName) :
    bitReg c b ≠ .pswl ∧ bitReg c b ≠ .ipa0 ∧ bitReg c b ≠ .ipa1 ∧ bitReg c b ≠ .ipa2 ∧ bitReg c b ≠ .ipa3 ∧
      bitReg c b ≠ .ipa4 ∧ bitReg c b ≠ .ipa5 := by
  rcases bitReg_cases c b with e | ⟨_, e⟩ <;> rw [e] <;> cases b <;> decide

/-- Whether a named bit is in PSWH does not depend on the configuration. -/
theorem bitReg_eq_pswh (c : Config) (b : BitName) : bitReg c b = .pswh ↔ (familyPlace b).1 = .pswh := by
  rcases bitReg_cases c b with e | ⟨h, e⟩
  · rw [e]
  · rw [e]; cases b <;> simp_all [twoHomes, familyPlace, pairedReg]

/-! ### Storage -/

theorem bitMask_getLsbD {n k : Nat} (hn : n < 8) : (bitMask n).getLsbD k = decide (k = n) := by
  unfold bitMask
  rw [BitVec.getLsbD_shiftLeft, BitVec.getLsbD_one]
  by_cases h : k = n
  · subst h; simp [hn]
  · by_cases l : k < n
    · simp [h, l]
    · have : ¬ k - n = 0 := by omega
      simp [h, this]

/-- A bit of the mask of named bits stands where a named bit of the register does. -/
theorem namedMask_getLsbD (c : Config) (r : Sfr) (k : Nat) :
    (namedMask c r).getLsbD k = true ↔ ∃ b, bitPlace c b = (r, k) := by
  have key : ∀ (bs : List BitName) (m : Byte),
      (bs.foldl (fun m b => if bitReg c b = r then m ||| bitMask (bitPos c b) else m) m).getLsbD k = true ↔
        m.getLsbD k = true ∨ ∃ b ∈ bs, bitPlace c b = (r, k) := by
    intro bs
    induction bs with
    | nil => simp
    | cons b bs ih =>
      intro m
      rw [List.foldl_cons, ih]
      by_cases h : bitReg c b = r
      · simp only [h, if_true, BitVec.getLsbD_or, bitMask_getLsbD (bitPos_lt c b), Bool.or_eq_true, decide_eq_true_eq,
          List.mem_cons, exists_eq_or_imp, bitPlace, Prod.mk.injEq, true_and, eq_comm (a := k), or_assoc]
      · simp [h, bitPlace]
  rw [namedMask, key]
  simp [mem_allBits]

/-- A named bit is storage. -/
theorem implMask_named (c : Config) (b : BitName) : (implMask c (bitReg c b)).getLsbD (bitPos c b) = true := by
  have hn : (namedMask c (bitReg c b)).getLsbD (bitPos c b) = true := (namedMask_getLsbD c _ _).2 ⟨b, rfl⟩
  have hu := bitReg_ne_unnamed c b
  have hl := bitPos_lt c b
  unfold implMask
  split
  all_goals first
    | exact hn
    | (rename_i e; exact absurd e hu.1)
    | simp_all; done
    | skip
  · rename_i e
    generalize bitPos c b = k at hl
    interval_cases k <;> rfl
  all_goals
    rename_i e
    have hb : twoHomes b = false := by
      cases ht : twoHomes b with
      | false => rfl
      | true => rcases bitReg_of_twoHomes ht c with h | h | h | h <;> rw [h] at e <;> cases e
    rw [bitReg_of_oneHome hb c] at e
    have hf : placeFixed b = true := by cases b <;> first | rfl | cases e
    rw [bitPos_of_fixed hf]
    cases b <;> first | rfl | cases e

@[simp] theorem sfrMask_pswh : sfrMask .pswh s = 0xFF#8 := rfl

@[simp] theorem sfrMask_pswl : sfrMask .pswl s = 0xFF#8 := rfl

/-- A bit that reads as any value is no storage. -/
theorem openMask_and_implMask (c : Config) (r : Sfr) : openMask c r &&& implMask c r = 0#8 := by
  cases r <;> simp [openMask, implMask]
  split <;> simp

/-- What is read and written back stores the stored bits. -/
theorem sfrRead_and_sfrMask (r : Sfr) : (sfrRead r s).byte &&& sfrMask r s = sfrGet r s &&& sfrMask r s := by
  have h : (Config.freeByte s.freeCtr &&& openMask s.cfg r) &&& sfrMask r s = 0#8 := by
    rw [BitVec.and_assoc, sfrMask, openMask_and_implMask]; simp
  unfold sfrRead ReadByte.byte
  ext i hi
  have := congrArg (fun x : Byte => x[i]) h
  simp only [BitVec.getElem_and, BitVec.getElem_or, BitVec.getElem_zero] at this ⊢
  rw [Bool.and_or_distrib_right, this, Bool.or_false]

@[simp] theorem sfrRead_pswh : (sfrRead .pswh s).byte = s.pswh := by simp [sfrRead, ReadByte.byte, openMask, implMask]

@[simp] theorem sfrRead_pswl : (sfrRead .pswl s).byte = s.pswl := by simp [sfrRead, ReadByte.byte, openMask, implMask]

/-! ### Named bits -/

@[simp] theorem bitOf_raiseBit_same (b : BitName) : bitOf b (raiseBit b s) = true := by
  simp [bitOf, raiseBit, bitMask_getLsbD (bitPos_lt _ _)]

/-- After a named bit is set, it is 1 and every bit at another place is as it was. -/
theorem bitOf_raiseBit (b c : BitName) :
    bitOf c (raiseBit b s) = (decide (bitPlace s.cfg c = bitPlace s.cfg b) || bitOf c s) := by
  unfold bitOf raiseBit
  rw [sfrPut_cfg]
  by_cases h : bitReg s.cfg c = bitReg s.cfg b
  · rw [h, sfrGet_sfrPut_same, BitVec.getLsbD_or, bitMask_getLsbD (bitPos_lt _ _), Bool.or_comm]
    simp [bitPlace, h]
  · rw [sfrGet_sfrPut_ne _ _ h]
    simp [bitPlace, h]

/-- After a named bit is cleared, it is 0 and every bit at another place is as it was. -/
theorem bitOf_clearBit (b c : BitName) :
    bitOf c (clearBit b s) = (!decide (bitPlace s.cfg c = bitPlace s.cfg b) && bitOf c s) := by
  unfold bitOf clearBit
  rw [sfrPut_cfg]
  by_cases h : bitReg s.cfg c = bitReg s.cfg b
  · rw [h, sfrGet_sfrPut_same, BitVec.getLsbD_and, BitVec.getLsbD_not, bitMask_getLsbD (bitPos_lt _ _), Bool.and_comm]
    simp [bitPlace, h, bitPos_lt]
  · rw [sfrGet_sfrPut_ne _ _ h]
    simp [bitPlace, h]

/-- A named bit is the same in states of one configuration with the same PSWH and the same registers. -/
theorem bitOf_congr {s t : State} (hc : t.cfg = s.cfg) (hh : t.pswh = s.pswh) (hs : t.sfr = s.sfr) (b : BitName) :
    bitOf b t = bitOf b s := by
  unfold bitOf
  rw [hc]
  by_cases h : bitReg s.cfg b = .pswh
  · rw [h, sfrGet_pswh, sfrGet_pswh, hh]
  · rw [sfrGet_congr_sfr hs h (bitReg_ne_unnamed _ b).1]

/-- A named bit outside PSWH is the same in states of one configuration with the same registers. -/
theorem bitOf_congr_sfr {s t : State} (hc : t.cfg = s.cfg) (hs : t.sfr = s.sfr) {b : BitName}
    (hb : (familyPlace b).1 ≠ .pswh) : bitOf b t = bitOf b s := by
  unfold bitOf
  rw [hc, sfrGet_congr_sfr hs (fun h => hb ((bitReg_eq_pswh _ b).1 h)) (bitReg_ne_unnamed _ b).1]

theorem page0Mode_congr {s t : State} (hc : t.cfg = s.cfg) (h : t.sfr.scr = s.sfr.scr) : page0Mode t = page0Mode s := by
  simp [page0Mode, bitOf, hc, bitReg, twoHomes, familyPlace, sfrGet, h]

theorem systemMode_congr {s t : State} (h : t.pswh = s.pswh) : systemMode t = systemMode s := by
  simp [systemMode, bitOf, bitReg, twoHomes, bitPos, moveOf, placeFixed, familyPlace, sfrGet, h]

theorem traceMode_congr {s t : State} (hc : t.cfg = s.cfg) (h : t.pswh = s.pswh) : traceMode t = traceMode s := by
  simp [traceMode, bitOf, hc, bitReg, twoHomes, familyPlace, sfrGet, h]

theorem intMask_congr {s t : State} (h : t.pswh = s.pswh) : intMask t = intMask s := by
  simp [intMask, bitOf, bitReg, twoHomes, bitPos, moveOf, placeFixed, familyPlace, sfrGet, h]

theorem modeAddr_congr {s t : State} (hc : t.cfg = s.cfg) (h : t.sfr.scr = s.sfr.scr) (a : CodeAddr) :
    modeAddr t a = modeAddr s a := by
  simp [modeAddr, page0Mode_congr hc h]

@[simp] theorem addrLow_page0 (a : Word) : addrLow (page0 a) = a := by
  unfold addrLow page0; ext i hi
  simp only [BitVec.getElem_extractLsb', BitVec.getLsbD_setWidth, Nat.zero_add]
  simp [hi, show i < 24 by omega]

@[simp] theorem addrHigh_page0 (a : Word) : addrHigh (page0 a) = 0#8 := by
  unfold addrHigh page0; ext i hi
  simp [BitVec.getElem_extractLsb', BitVec.getLsbD_setWidth]

@[simp] theorem mkAddr_addrHigh_addrLow (a : CodeAddr) : mkAddr (addrHigh a) (addrLow a) = a := by
  unfold addrHigh addrLow mkAddr; ext i hi
  simp only [BitVec.getElem_append, BitVec.getElem_extractLsb']
  split
  · simp only [Nat.zero_add]; rfl
  · rename_i h; rw [show 16 + (i - 16) = i by omega]; rfl

/-- Putting an address into the current mode twice is putting it there once. -/
@[simp] theorem modeAddr_modeAddr (a : CodeAddr) : modeAddr s (modeAddr s a) = modeAddr s a := by
  unfold modeAddr
  split
  · rw [addrLow_page0]
  · rfl

/-! ### SfrWrite -/

/-- Everything SfrWrite can do. To a register but PSWH: it takes the implemented bits. To PSWH in System Mode: it takes
the byte. To PSWH in User Mode: it takes RS1 and RS0, raising the configured exception if there is an attempt on a
protected bit. A fault only where the configuration says so. -/
theorem sfrWrite_cases (r : Sfr) (v : Byte) :
    (r ≠ .pswh ∧ sfrWrite r v s = .next (sfrPut r (v &&& sfrMask r s) s)) ∨
    (r = .pswh ∧ systemMode s = true ∧ sfrWrite r v s = .next (sfrPut .pswh v s)) ∨
    (r = .pswh ∧ systemMode s = false ∧ (changesProtected v s = false ∨ s.cfg.userPswhWrite = .ignore) ∧
      sfrWrite r v s = .next (sfrPut .pswh (userPswh v s) s)) ∨
    (∃ e, r = .pswh ∧ systemMode s = false ∧ changesProtected v s = true ∧ s.cfg.userPswhWrite = .exception e ∧
      sfrWrite r v s = .next (raise e (sfrPut .pswh (userPswh v s) s))) ∨
    (r = .pswh ∧ systemMode s = false ∧ changesProtected v s = true ∧ s.cfg.userPswhWrite = .fault ∧
      sfrWrite r v s = .fault .protectedPswhWrite) := by
  by_cases hr : r = .pswh
  · subst hr
    right
    by_cases hm : systemMode s = true
    · left; exact ⟨rfl, hm, by simp [sfrWrite, pswhWrite, hm]; rfl⟩
    · have hm : systemMode s = false := by simpa using hm
      right
      by_cases hc : changesProtected v s = true
      · cases hu : s.cfg.userPswhWrite with
        | ignore =>
          left; exact ⟨rfl, hm, .inr rfl, by simp [sfrWrite, pswhWrite, hm, hc, hu]; rfl⟩
        | exception e =>
          right; left; exact ⟨e, rfl, hm, hc, rfl, by simp [sfrWrite, pswhWrite, hm, hc, hu]; rfl⟩
        | fault =>
          right; right; exact ⟨rfl, hm, hc, rfl, by simp [sfrWrite, pswhWrite, hm, hc, hu]⟩
      · have hc : changesProtected v s = false := by simpa using hc
        left; exact ⟨rfl, hm, .inl hc, by simp [sfrWrite, pswhWrite, hm, hc]; rfl⟩
  · left
    refine ⟨hr, ?_⟩
    cases r <;> first | rfl | exact absurd rfl hr

@[simp] theorem ReadByte.set_byte (x : ReadByte) (d : Byte) : (x.set d).byte = x.byte ||| d := by
  simp only [ReadByte.byte, ReadByte.set]; ext i hi; simp only [BitVec.getElem_or]
  cases x.stored[i] <;> cases x.other[i] <;> cases d[i] <;> rfl

@[simp] theorem ReadByte.clear_byte (x : ReadByte) (d : Byte) : (x.clear d).byte = x.byte &&& ~~~ d := by
  simp only [ReadByte.byte, ReadByte.clear]; ext i hi
  simp only [BitVec.getElem_or, BitVec.getElem_and, Bool.and_or_distrib_right]

/-- The write of a byte computed from the byte read is SfrWrite of that byte: its bits that are not storage are
ignored. -/
theorem sfrWriteBack_eq (r : Sfr) {v : ReadByte} (h : v.other &&& sfrMask r s = v.stored &&& v.other &&& sfrMask r s) :
    sfrWriteBack r v s = sfrWrite r v.byte s := by
  have e : v.byte &&& sfrMask r s = v.stored &&& sfrMask r s := by
    ext i hi
    have := congrArg (fun x : Byte => x[i]) h
    simp only [ReadByte.byte, BitVec.getElem_and, BitVec.getElem_or] at this ⊢
    generalize v.stored[i] = x, v.other[i] = y, (sfrMask r s)[i] = z at *
    revert this; revert x y z; decide
  unfold sfrWriteBack
  by_cases hr : r = .pswh
  · subst hr
    rw [sfrMask_pswh, (by decide : ∀ x : Byte, x &&& 0xFF#8 = x), (by decide : ∀ x : Byte, x &&& 0xFF#8 = x)] at e
    rw [e]
  · cases r <;> first | exact absurd rfl hr | simp only [sfrWrite, e]

/-- Of a byte read, and of what is set or cleared in it, the bits that are not storage are ignored by the write back. -/
theorem sfrWriteBack_read (r : Sfr) (d : Byte) :
    sfrWriteBack r ((sfrRead r s).set d) s = sfrWrite r ((sfrRead r s).byte ||| d) s ∧
      sfrWriteBack r ((sfrRead r s).clear d) s = sfrWrite r ((sfrRead r s).byte &&& ~~~ d) s := by
  have h : (sfrRead r s).other &&& sfrMask r s = 0#8 := by
    show (Config.freeByte s.freeCtr &&& openMask s.cfg r) &&& sfrMask r s = 0#8
    rw [BitVec.and_assoc, sfrMask, openMask_and_implMask]; simp
  have hb : ∀ i (hi : i < 8), ((sfrRead r s).other[i] && (sfrMask r s)[i]) = false := fun i hi => by
    simpa using congrArg (fun x : Byte => x[i]) h
  rw [← ReadByte.set_byte, ← ReadByte.clear_byte]
  constructor <;> apply sfrWriteBack_eq <;> ext i hi <;> have := hb i hi <;>
    simp only [ReadByte.set, ReadByte.clear, BitVec.getElem_and, BitVec.getElem_or, BitVec.getElem_not] <;>
    cases hm : (sfrMask r s)[i] <;> simp_all

/-- An attempt on a protected bit is a written byte that differs from PSWH outside RS1 and RS0. -/
theorem changesProtected_eq_true (v : Byte) :
    changesProtected v s = true ↔ v &&& ~~~ rsMask s.cfg ≠ s.pswh &&& ~~~ rsMask s.cfg := by
  have hx : ∀ x y m : Byte, (x ^^^ y) &&& m = (x &&& m) ^^^ (y &&& m) := by
    intro x y m; ext i hi; simp [Bool.and_xor_distrib_right]
  rw [changesProtected, bne_iff_ne, not_iff_not, hx]
  exact BitVec.xor_eq_zero_iff

/-- Everything SfrWrite that completes leaves alone: all but the register written and the pending set. -/
theorem sfrWrite_frame {r : Sfr} {v : Byte} {s t : State} (h : sfrWrite r v s = .next t) :
    t.cfg = s.cfg ∧ t.pc = s.pc ∧ t.ssp = s.ssp ∧ t.usp = s.usp ∧ t.regs = s.regs ∧ t.ds = s.ds ∧ t.code = s.code ∧
      t.data = s.data ∧ t.inputs = s.inputs ∧ t.supplied = s.supplied ∧ t.hold = s.hold ∧ t.freeCtr = s.freeCtr ∧
      ∀ r', r' ≠ r → sfrGet r' t = sfrGet r' s := by
  rcases sfrWrite_cases s r v with ⟨hr, e⟩ | ⟨rfl, hm, e⟩ | ⟨rfl, hm, hc, e⟩ | ⟨x, rfl, hm, hc, hu, e⟩ | ⟨rfl, hm, hc, hu, e⟩
  · rw [e] at h; cases h; simp; exact fun r' h => sfrGet_sfrPut_ne s _ h
  · rw [e] at h; cases h; simp; exact fun r' h => sfrGet_sfrPut_ne s _ h
  · rw [e] at h; cases h; simp; exact fun r' h => sfrGet_sfrPut_ne s _ h
  · rw [e] at h; cases h; simp
    intro r' h
    rw [sfrGet_congr (t := raise x (sfrPut .pswh (userPswh v s) s)) (s := sfrPut .pswh (userPswh v s) s) rfl rfl rfl]
    exact sfrGet_sfrPut_ne s _ h
  · rw [e] at h; cases h

end Sys2Proof.Machine
end

