-- ==== Sys2Proof/Laws/Ops.lean ====
section
/-! SUPPORT. One lemma for each shared operation that says once everything it can do: sequencing, pushes, the frame, the
interrupt sequence, the pops of RETI, reset. -/

namespace Sys2Proof.Machine

variable (s : State)

/-! ### Sequencing -/

@[simp] theorem andThen_next (f : State → Host.Outcome State Fault Refusal) : andThen (.next s) f = f s := rfl

@[simp] theorem andThen_fault (r : Fault) (f : State → Host.Outcome State Fault Refusal) :
    andThen (.fault r) f = .fault r := rfl

@[simp] theorem andThen_refused (r : Refusal) (f : State → Host.Outcome State Fault Refusal) :
    andThen (.refused r) f = .refused r := rfl

/-- A sequence answers a next state only through a next state of its first part. -/
theorem andThen_eq_next {o : Host.Outcome State Fault Refusal} {f : State → Host.Outcome State Fault Refusal}
    {t : State} (h : andThen o f = .next t) : ∃ u, o = .next u ∧ f u = .next t := by
  cases o with
  | next u => exact ⟨u, rfl, h⟩
  | fault r => cases h
  | refused r => cases h

/-! ### The pending set -/

@[simp] theorem Pending.has_empty (e : Exc) : Pending.empty.has e = false := by cases e <;> rfl

/-- A set with an exception added holds that one and those it held. -/
theorem Pending.has_add (p : Pending) (e e' : Exc) : (p.add e).has e' = (decide (e' = e) || p.has e') := by
  cases e <;> cases e' <;> rfl

@[simp] theorem Pending.add_add (p : Pending) (e : Exc) : (p.add e).add e = p.add e := by cases e <;> rfl

theorem Pending.add_ne_empty (p : Pending) (e : Exc) : p.add e ≠ Pending.empty := by
  intro h
  have := Pending.has_add p e e
  rw [h] at this
  simp at this

@[simp] theorem Pending.has_reset (p : Pending) : p.has .reset = p.reset := rfl

/-- A set with a member is not empty. -/
theorem Pending.ne_empty_of_has {p : Pending} {e : Exc} (h : p.has e = true) : p ≠ Pending.empty := by
  rintro rfl; simp at h

/-- An empty set is one with no member. -/
theorem Pending.eq_empty_of_has {p : Pending} (h : ∀ e, p.has e = false) : p = Pending.empty := by
  obtain ⟨a, b, c, d, e, f, g⟩ := p
  have := h .reset; have := h .breakpoint; have := h .trace; have := h .stackOverflow
  have := h .divideByZero; have := h .userReti; have := h .nmi
  simp_all [Pending.has, Pending.empty]

/-! ### Words and their halves -/

@[simp] theorem psw_setPsw (w : Word) : psw (setPsw w s) = w := by simp [psw]

@[simp] theorem psw_loadVector (va : Word) : psw (loadVector va s) = codeRead16 s va := by simp [psw]

theorem psw_congr {s t : State} (hh : t.pswh = s.pswh) (hl : t.pswl = s.pswl) : psw t = psw s := by
  simp [psw, hh, hl]

/-! ### Pushes -/

/-- Everything a push on the System Stack does to memory: the two bytes of the word, and no other. -/
theorem dataByte_pushSys (v a : Word) :
    dataByte (pushSys v s) a =
      if a = s.ssp - 1#16 then hiByte v else if a = s.ssp - 2#16 then loByte v else dataByte s a := by
  have h : dataByte (pushSys v s) a = dataByte (memWrite16 (s.ssp - 2#16) v { s with ssp := s.ssp - 2#16 }) a := by
    unfold pushSys; dsimp only; split
    · exact dataByte_congr rfl a
    · rfl
  have e : s.ssp - 2#16 + 1#16 = s.ssp - 1#16 := by bv_omega
  rw [h, dataByte_memWrite16, e]
  rfl

/-- Everything a push on the user stack does to memory. -/
theorem dataByte_pushUser (v a : Word) :
    dataByte (pushUser v s) a =
      if a = s.usp - 1#16 then hiByte v else if a = s.usp - 2#16 then loByte v else dataByte s a := by
  have h : dataByte (pushUser v s) a = dataByte (memWrite16 (s.usp - 2#16) v { s with usp := s.usp - 2#16 }) a := by
    unfold pushUser; dsimp only; split
    · exact dataByte_congr rfl a
    · rfl
  have e : s.usp - 2#16 + 1#16 = s.usp - 1#16 := by bv_omega
  rw [h, dataByte_memWrite16, e]
  rfl

/-- A push on the System Stack raises StackOverflow where STACK_OVF says so, and no other exception. -/
theorem pushSys_pending (v : Word) :
    (pushSys v s).pending =
      if stackOvf s.cfg true s.ssp (s.ssp - 2#16) then s.pending.add .stackOverflow else s.pending := by
  unfold pushSys; dsimp only; split <;> rfl

theorem pushUser_pending (v : Word) :
    (pushUser v s).pending =
      if stackOvf s.cfg false s.usp (s.usp - 2#16) then s.pending.add .stackOverflow else s.pending := by
  unfold pushUser; dsimp only; split <;> rfl

/-- The word of memory at a from its two bytes. -/
theorem memRead16_eq {a : Word} {h l : Byte} (h1 : dataByte s (a + 1#16) = h) (h2 : dataByte s a = l) :
    memRead16 s a = mkWord h l := by
  rw [memRead16, h1, h2]

/-- Everything a push by an instruction can be: one on the System Stack or one on the user stack. -/
theorem pushOn_cases (n : StackName) (v : Word) :
    (n.isSystem s = true ∧ pushOn n v s = pushSys v s) ∨ (n.isSystem s = false ∧ pushOn n v s = pushUser v s) := by
  cases h : n.isSystem s <;> simp [pushOn, h]

/-- Everything a write of a stack pointer can be. -/
theorem setSp_cases (n : StackName) (v : Word) :
    (n.isSystem s = true ∧ setSp n v s = { s with ssp := v }) ∨
      (n.isSystem s = false ∧ setSp n v s = { s with usp := v }) := by
  cases h : n.isSystem s <;> simp [setSp, h]

/-! ### The frame -/

@[simp] theorem page0Mode_pushSys (v : Word) : page0Mode (pushSys v s) = page0Mode s := page0Mode_congr (by simp) (by simp)

/-- The bytes of the frame in 24-bit mode, one by one, and that no other byte changes. -/
theorem dataByte_pushFrame_native (ret : CodeAddr) (h : page0Mode s = false) (a : Word) :
    dataByte (pushFrame ret s) a =
      if a = s.ssp - 5#16 then s.pswh else if a = s.ssp - 6#16 then s.pswl
      else if a = s.ssp - 3#16 then 0#8 else if a = s.ssp - 4#16 then addrHigh ret
      else if a = s.ssp - 1#16 then hiByte (addrLow ret) else if a = s.ssp - 2#16 then loByte (addrLow ret)
      else dataByte s a := by
  have e1 : s.ssp - 2#16 - 1#16 = s.ssp - 3#16 := by bv_omega
  have e2 : s.ssp - 2#16 - 2#16 = s.ssp - 4#16 := by bv_omega
  have e3 : s.ssp - 4#16 - 1#16 = s.ssp - 5#16 := by bv_omega
  have e4 : s.ssp - 4#16 - 2#16 = s.ssp - 6#16 := by bv_omega
  simp [pushFrame, h, dataByte_pushSys, e1, e2, e3, e4, psw]

/-- The bytes of the frame in Page 0 Mode. -/
theorem dataByte_pushFrame_page0 (ret : CodeAddr) (h : page0Mode s = true) (a : Word) :
    dataByte (pushFrame ret s) a =
      if a = s.ssp - 3#16 then s.pswh else if a = s.ssp - 4#16 then s.pswl
      else if a = s.ssp - 1#16 then hiByte (addrLow ret) else if a = s.ssp - 2#16 then loByte (addrLow ret)
      else dataByte s a := by
  have e1 : s.ssp - 2#16 - 1#16 = s.ssp - 3#16 := by bv_omega
  have e2 : s.ssp - 2#16 - 2#16 = s.ssp - 4#16 := by bv_omega
  simp [pushFrame, h, dataByte_pushSys, e1, e2, psw]

theorem pushFrame_ssp (ret : CodeAddr) :
    (pushFrame ret s).ssp = if page0Mode s then s.ssp - 4#16 else s.ssp - 6#16 := by
  cases h : page0Mode s <;> simp [pushFrame, h] <;> bv_omega

/-- The frame's pushes add StackOverflow to the pending set, or leave the set as it is. -/
theorem pushFrame_pending (ret : CodeAddr) :
    (pushFrame ret s).pending = s.pending ∨ (pushFrame ret s).pending = s.pending.add .stackOverflow := by
  cases h : page0Mode s <;> simp only [pushFrame, h, Bool.false_eq_true, if_false, if_true, pushSys_pending] <;>
    split_ifs <;> simp

/-! ### The interrupt sequence -/

/-- Everything the interrupt sequence can answer: with an even System Stack pointer and an even ISR address the state
with the frame pushed and the vector loaded, otherwise the refusal that names what is odd. -/
theorem service_cases (va : Word) (ret : CodeAddr) :
    (isOdd s.ssp = false ∧ isOdd (codeRead16 s (va + 2#16)) = false ∧
      service va ret s = .next (loadVector va (pushFrame ret s))) ∨
    (isOdd s.ssp = true ∧ service va ret s = .refused .oddStackPointer) ∨
    (isOdd s.ssp = false ∧ isOdd (codeRead16 s (va + 2#16)) = true ∧ service va ret s = .refused .oddVectorTarget) := by
  unfold service
  cases isOdd s.ssp <;> cases isOdd (codeRead16 s (va + 2#16)) <;> simp

theorem service_eq_next {s t : State} {va : Word} {ret : CodeAddr} (h : service va ret s = .next t) :
    isOdd s.ssp = false ∧ isOdd (codeRead16 s (va + 2#16)) = false ∧ t = loadVector va (pushFrame ret s) := by
  rcases service_cases s va ret with ⟨h1, h2, e⟩ | ⟨_, e⟩ | ⟨_, _, e⟩
  · rw [e] at h; cases h; exact ⟨h1, h2, rfl⟩
  · rw [e] at h; cases h
  · rw [e] at h; cases h

theorem service_of_even {s : State} {va : Word} {ret : CodeAddr} (h1 : isOdd s.ssp = false)
    (h2 : isOdd (codeRead16 s (va + 2#16)) = false) : service va ret s = .next (loadVector va (pushFrame ret s)) := by
  simp [service, h1, h2]

/-- The pc, the PSW and the stack pointer after a sequence. -/
theorem service_next_pc {s t : State} {va : Word} {ret : CodeAddr} (h : service va ret s = .next t) :
    t.pc = page0 (codeRead16 s (va + 2#16)) ∧ psw t = codeRead16 s va ∧
      t.ssp = if page0Mode s then s.ssp - 4#16 else s.ssp - 6#16 := by
  obtain ⟨_, _, rfl⟩ := service_eq_next h
  refine ⟨?_, ?_, ?_⟩
  · simp [codeRead16_congr (show (pushFrame ret s).code = s.code by simp)]
  · simp [codeRead16_congr (show (pushFrame ret s).code = s.code by simp)]
  · simp [pushFrame_ssp]

/-- What a sequence leaves alone. -/
theorem service_frame {s t : State} {va : Word} {ret : CodeAddr} (h : service va ret s = .next t) :
    t.cfg = s.cfg ∧ t.usp = s.usp ∧ t.regs = s.regs ∧ t.ds = s.ds ∧ t.sfr = s.sfr ∧ t.code = s.code ∧
      t.inputs = s.inputs ∧ t.supplied = s.supplied ∧ t.hold = s.hold ∧ t.freeCtr = s.freeCtr ∧
      (t.pending = s.pending ∨ t.pending = s.pending.add .stackOverflow) ∧
      t.data = (pushFrame ret s).data := by
  obtain ⟨_, _, rfl⟩ := service_eq_next h
  simpa using pushFrame_pending s ret

/-! ### A sequence at a boundary -/

/-- Trace is added where TRACE_POINT says so, and no other exception. -/
theorem traceAfter_pending (x : Completed) (t : State) :
    (traceAfter x s t).pending = if traceRaised x s t then t.pending.add .trace else t.pending := by
  unfold traceAfter; split <;> rfl

/-- At the default TRACE_POINT a sequence raises no Trace. -/
theorem traceRaised_sequence {s : State} (h : s.cfg.tracePoint = .beginsTraced) (t : State) :
    traceRaised .sequence s t = false := by simp [traceRaised, h]

/-- With TM = 0 before and after, nothing raises Trace. -/
theorem traceRaised_of_untraced {s t : State} (hs : traceMode s = false) (ht : traceMode t = false) (x : Completed) :
    traceRaised x s t = false := by
  unfold traceRaised; split <;> simp [hs, ht]

/-- Everything a sequence at a boundary can answer: the sequence's next state, with Trace where TRACE_POINT says so, or
the sequence's refusal. -/
theorem takeInterrupt_eq_next {s t : State} {va : Word} (h : takeInterrupt va s = .next t) :
    ∃ u, service va s.pc s = .next u ∧ t = traceAfter .sequence s u := by
  obtain ⟨u, h1, h2⟩ := andThen_eq_next h
  cases h2
  exact ⟨u, h1, rfl⟩

theorem takeInterrupt_of_service {s u : State} {va : Word} (h : service va s.pc s = .next u) :
    takeInterrupt va s = .next (traceAfter .sequence s u) := by simp [takeInterrupt, h]

/-- A stack pointer stays even or odd by a push or a pop of a word. -/
@[simp] theorem isOdd_sub_two (a : Word) : isOdd (a - 2#16) = isOdd a := by
  have : ∀ x : Word, isOdd x = decide (x.toNat % 2 = 1) := fun x => by simp [isOdd, BitVec.getLsbD, Nat.testBit_zero]
  rw [this, this]; congr 1; apply propext; bv_omega

@[simp] theorem isOdd_add_two (a : Word) : isOdd (a + 2#16) = isOdd a := by
  have : ∀ x : Word, isOdd x = decide (x.toNat % 2 = 1) := fun x => by simp [isOdd, BitVec.getLsbD, Nat.testBit_zero]
  rw [this, this]; congr 1; apply propext; bv_omega

theorem isOdd_pushFrame (ret : CodeAddr) : isOdd (pushFrame ret s).ssp = isOdd s.ssp := by
  cases h : page0Mode s <;> simp [pushFrame, h]

/-! ### Return -/

/-- Everything the pops of RETI do. -/
theorem popFrame_eq :
    psw (popFrame s) = memRead16 s s.ssp ∧
      (page0Mode s = true → (popFrame s).pc = page0 (memRead16 s (s.ssp + 2#16)) ∧ (popFrame s).ssp = s.ssp + 4#16) ∧
      (page0Mode s = false →
        (popFrame s).pc = mkAddr (dataByte s (s.ssp + 2#16)) (memRead16 s (s.ssp + 4#16)) ∧ (popFrame s).ssp = s.ssp + 6#16) := by
  have r1 : memRead16 (dropSys s) (s.ssp + 2#16) = memRead16 s (s.ssp + 2#16) := memRead16_congr (by simp) _
  have e4 : s.ssp + 2#16 + 2#16 = s.ssp + 4#16 := by bv_omega
  have e6 : s.ssp + 4#16 + 2#16 = s.ssp + 6#16 := by bv_omega
  have r2 : memRead16 (dropSys (dropSys s)) (s.ssp + 4#16) = memRead16 s (s.ssp + 4#16) := memRead16_congr (by simp) _
  cases h : page0Mode s
  · refine ⟨by simp [popFrame, h, topSys], by simp, fun _ => ?_⟩
    constructor
    · simp only [popFrame, h, Bool.false_eq_true, if_false, setPsw_pc, topSys, dropSys_ssp, e4, r1, r2]
      rw [memRead16, loByte_mkWord]
    · simp [popFrame, h, e4, e6]
  · refine ⟨by simp [popFrame, h, topSys], fun _ => ?_, by simp⟩
    constructor
    · simp only [popFrame, h, if_true, setPsw_pc, topSys, dropSys_ssp, r1]
    · simp [popFrame, h, e4]

theorem isOdd_popFrame : isOdd (popFrame s).ssp = isOdd s.ssp := by
  cases h : page0Mode s <;> simp [popFrame, h]

/-! ### Reset -/

/-- Everything reset can answer. -/
theorem doReset_eq_next {s t : State} (h : doReset s = .next t) :
    isOdd (codeRead16 s 0x0002#16) = false ∧
      t.cfg = s.cfg ∧ psw t = codeRead16 s 0#16 ∧ t.pc = page0 (codeRead16 s 0x0002#16) ∧
      t.ssp = s.cfg.spReset ∧ t.usp = s.cfg.spReset ∧ t.regs = s.cfg.image.regs ∧ t.ds = s.cfg.image.ds ∧
      t.sfr = resetSfrs s.cfg ∧ t.pending = Pending.empty ∧ t.code = s.code ∧ t.data = s.data ∧
      t.inputs = s.inputs ∧ t.supplied = s.supplied ∧ t.hold = false ∧ t.freeCtr = s.freeCtr := by
  unfold doReset at h
  split at h
  · cases h
  · rename_i h1
    cases h
    refine ⟨by simpa using h1, rfl, ?_, ?_, rfl, rfl, rfl, rfl, rfl, rfl, rfl, rfl, rfl, rfl, rfl, rfl⟩
    · simp only [psw_loadVector]; exact codeRead16_congr rfl _
    · simp only [loadVector_pc]; exact congrArg page0 (codeRead16_congr rfl _)

/-- Reset completes when the start address is even. -/
theorem doReset_of_even {s : State} (h : isOdd (codeRead16 s 0x0002#16) = false) : ∃ t, doReset s = .next t := by
  simp [doReset, h]

end Sys2Proof.Machine
end

