-- ==== Sys2Proof/Laws/Controller.lean ====
section
/-! SUPPORT. What the selection of a maskable interrupt and its acceptance can do. -/

namespace Sys2Proof.Machine

variable (s : State)

/-! ### The first member of greatest priority -/

/-- Nothing is best exactly when nothing is eligible. -/
theorem bestOf_eq_none (ms : List Maskable) : bestOf s ms = none ↔ ∀ m ∈ ms, eligible m s = false := by
  induction ms with
  | nil => simp [bestOf]
  | cons m ms ih =>
    cases he : eligible m s
    · simp [bestOf, he, ih]
    · cases hb : bestOf s ms <;> simp [bestOf, he, hb]
      split <;> simp

/-- What is best is an eligible member, of priority at least every eligible member's, and above that of every eligible
member that stands before it. -/
theorem bestOf_eq_some {ms : List Maskable} {b : Maskable} (h : bestOf s ms = some b) :
    b ∈ ms ∧ eligible b s = true ∧ (∀ m ∈ ms, eligible m s = true → maskPrio m s ≤ maskPrio b s) ∧
      ∃ pre post, ms = pre ++ b :: post ∧ ∀ m ∈ pre, eligible m s = true → maskPrio m s < maskPrio b s := by
  induction ms generalizing b with
  | nil => simp [bestOf] at h
  | cons m ms ih =>
    cases he : eligible m s
    · simp only [bestOf, he, Bool.false_eq_true, if_false] at h
      obtain ⟨h1, h2, h3, pre, post, e, h4⟩ := ih h
      refine ⟨List.mem_cons_of_mem _ h1, h2, ?_, m :: pre, post, by simp [e], ?_⟩
      · intro x hx hxe
        rcases List.mem_cons.1 hx with rfl | hx
        · simp [he] at hxe
        · exact h3 x hx hxe
      · intro x hx hxe
        rcases List.mem_cons.1 hx with rfl | hx
        · simp [he] at hxe
        · exact h4 x hx hxe
    · simp only [bestOf, he, if_true] at h
      cases hb : bestOf s ms with
      | none =>
        simp only [hb, Option.some.injEq] at h
        subst h
        refine ⟨List.mem_cons_self .., he, ?_, [], ms, rfl, by simp⟩
        intro x hx hxe
        rcases List.mem_cons.1 hx with rfl | hx
        · exact le_refl _
        · simp [(bestOf_eq_none s ms).1 hb x hx] at hxe
      | some c =>
        obtain ⟨h1, h2, h3, pre, post, e, h4⟩ := ih hb
        simp only [hb] at h
        split at h
        · rename_i hlt
          cases h
          refine ⟨List.mem_cons_of_mem _ h1, h2, ?_, m :: pre, post, by simp [e], ?_⟩
          · intro x hx hxe
            rcases List.mem_cons.1 hx with rfl | hx
            · exact le_of_lt hlt
            · exact h3 x hx hxe
          · intro x hx hxe
            rcases List.mem_cons.1 hx with rfl | hx
            · exact hlt
            · exact h4 x hx hxe
        · rename_i hlt
          cases h
          refine ⟨List.mem_cons_self .., he, ?_, [], ms, rfl, by simp⟩
          intro x hx hxe
          rcases List.mem_cons.1 hx with rfl | hx
          · exact le_refl _
          · exact le_trans (h3 x hx hxe) (not_lt.1 hlt)

/-- Every maskable interrupt is in the list. -/
theorem mem_allMaskable (m : Maskable) : m ∈ allMaskable := by
  cases m with
  | event e => cases e <;> decide
  | swi k => revert k; decide

/-- What is selected is eligible, and no eligible interrupt has a greater priority. -/
theorem selectMaskable_spec {s : State} {m : Maskable} (h : selectMaskable s = some m) :
    eligible m s = true ∧ ∀ m', eligible m' s = true → maskPrio m' s ≤ maskPrio m s := by
  obtain ⟨_, h2, h3, _⟩ := bestOf_eq_some s h
  exact ⟨h2, fun m' => h3 m' (mem_allMaskable m')⟩

/-- The priorities of two software interrupts differ. -/
theorem swiPrio_injective {j k : Fin 7} (h : swiPrio j = swiPrio k) : j = k := by
  simp only [swiPrio] at h; omega

/-- An eligible interrupt is of priority above IM. -/
theorem intMask_lt_of_eligible {m : Maskable} (h : eligible m s = true) : intMask s < maskPrio m s := by
  cases m with
  | event e => simp only [eligible, eligibleEvent, Bool.and_eq_true, decide_eq_true_eq] at h; exact h.2
  | swi k => simp only [eligible, eligibleSwi, Bool.and_eq_true, decide_eq_true_eq] at h; exact h.1.2

/-- Eligibility is the conjunction of the request and its enables, which the controller's registers alone decide, with
the comparison of the priority with IM. -/
def armed (m : Maskable) (s : State) : Bool :=
  match m with
  | .event e => eventRequest e s && bitOf (eventEnable e) s && bitOf .ea s
  | .swi k => swiPresent s.cfg && bitOf (swiRequest k) s && bitOf (swiEnable k) s && (bitOf .ea s || !s.cfg.eaGatesSwi)

theorem eligible_iff (m : Maskable) : eligible m s = true ↔ armed m s = true ∧ intMask s < maskPrio m s := by
  cases m with
  | event e => simp [eligible, eligibleEvent, armed, maskPrio]
  | swi k => simp [eligible, eligibleSwi, armed, maskPrio]; tauto

/-- Requests, enables and priorities depend on the registers and the configuration alone. -/
theorem armed_congr {s t : State} (hc : t.cfg = s.cfg) (hs : t.sfr = s.sfr) (m : Maskable) :
    armed m t = armed m s ∧ maskPrio m t = maskPrio m s := by
  have hb : ∀ b, (familyPlace b).1 ≠ .pswh → bitOf b t = bitOf b s := fun b hb => bitOf_congr_sfr hc hs hb
  have hea : bitOf .ea t = bitOf .ea s := hb _ (by decide)
  cases m with
  | event e =>
    have hr : eventRequest e t = eventRequest e s := by
      cases e <;> simp only [eventRequest] <;> repeat rw [hb _ (by decide)]
    have he : bitOf (eventEnable e) t = bitOf (eventEnable e) s := hb _ (by cases e <;> decide)
    have hf : sfrGet (ipaOf e) t = sfrGet (ipaOf e) s :=
      sfrGet_congr_sfr hs (by cases e <;> decide) (by cases e <;> decide)
    constructor
    · simp [armed, hr, he, hea]
    · simp [maskPrio, eventPrio, eventField, hf, hc]
  | swi k =>
    constructor
    · have h1 : bitOf (swiRequest k) t = bitOf (swiRequest k) s :=
        hb _ ((by decide : ∀ k, (familyPlace (swiRequest k)).1 ≠ .pswh) k)
      have h2 : bitOf (swiEnable k) t = bitOf (swiEnable k) s :=
        hb _ ((by decide : ∀ k, (familyPlace (swiEnable k)).1 ≠ .pswh) k)
      simp [armed, h1, h2, hea, hc]
    · rfl

/-! ### Acceptance -/

/-- Everything the acceptance of a maskable interrupt can answer: the sequence's next state, with Trace where
TRACE_POINT says so and the request it clears cleared, or the sequence's refusal. -/
theorem acceptMaskable_eq_next {s t : State} {m : Maskable} (h : acceptMaskable m s = .next t) :
    ∃ u, service (maskVector m) s.pc s = .next u ∧ t = clearOnService m (traceAfter .sequence s u) := by
  obtain ⟨v, h1, h2⟩ := andThen_eq_next h
  obtain ⟨u, h3, rfl⟩ := takeInterrupt_eq_next h1
  cases h2
  exact ⟨u, h3, rfl⟩

/-- Clearing a request touches the registers alone. -/
theorem clearOnService_frame (m : Maskable) :
    (clearOnService m s).cfg = s.cfg ∧ (clearOnService m s).pc = s.pc ∧ (clearOnService m s).pswh = s.pswh ∧
      (clearOnService m s).pswl = s.pswl ∧ (clearOnService m s).ssp = s.ssp ∧ (clearOnService m s).usp = s.usp ∧
      (clearOnService m s).regs = s.regs ∧ (clearOnService m s).ds = s.ds ∧ (clearOnService m s).pending = s.pending ∧
      (clearOnService m s).code = s.code ∧ (clearOnService m s).data = s.data ∧
      (clearOnService m s).inputs = s.inputs ∧ (clearOnService m s).supplied = s.supplied ∧
      (clearOnService m s).hold = s.hold ∧ (clearOnService m s).freeCtr = s.freeCtr ∧
      (clearOnService m s).sfr.scr = s.sfr.scr := by
  cases m with
  | event e => cases e <;> exact ⟨rfl, rfl, rfl, rfl, rfl, rfl, rfl, rfl, rfl, rfl, rfl, rfl, rfl, rfl, rfl, rfl⟩
  | swi k => exact ⟨rfl, rfl, rfl, rfl, rfl, rfl, rfl, rfl, rfl, rfl, rfl, rfl, rfl, rfl, rfl, rfl⟩

end Sys2Proof.Machine
end

