-- ==== Sys2Proof/Laws/Instr.lean ====
section
/-! SUPPORT. What an instruction, an opaque step, a move of the environment and a boundary can do, each said once. -/

namespace Sys2Proof.Machine

variable (s : State)

/-! ### Operands -/

@[simp] theorem withDirect_some {c : Config} {a : BitVec 11} {r : Sfr} (h : sfrAt c a = some r)
    (f : Sfr → Host.Outcome State Fault Refusal) : withDirect c a f = f r := by simp [withDirect, h]

@[simp] theorem withDirect_none {c : Config} {a : BitVec 11} (h : sfrAt c a = none)
    (f : Sfr → Host.Outcome State Fault Refusal) : withDirect c a f = .refused .directNotSfr := by simp [withDirect, h]

@[simp] theorem withBit_some {c : Config} {b : BitVec 10} {r : Sfr} {n : Nat} (h : bitAt c b = some (r, n))
    (f : Sfr → Nat → Host.Outcome State Fault Refusal) : withBit c b f = f r n := by simp [withBit, h]

@[simp] theorem withBit_none {c : Config} {b : BitVec 10} (h : bitAt c b = none)
    (f : Sfr → Nat → Host.Outcome State Fault Refusal) : withBit c b f = .refused .bitNotSfr := by simp [withBit, h]

/-- What a register instruction does after its write and the pc: it uses free values for the flags, for the bits it read
that are not storage, or for both. -/
def AfterWrite (f : State → State) : Prop := f = freeFlags ∨ f = (fun t => freeFlags (useFree t)) ∨ f = useFree

/-- Everything that leaves alone: all but the status flags and the number of the next free value. -/
theorem AfterWrite.frame {f : State → State} (h : AfterWrite f) (u : State) :
    (f u).cfg = u.cfg ∧ (f u).pc = u.pc ∧ (f u).pswh = u.pswh ∧ (f u).ssp = u.ssp ∧ (f u).usp = u.usp ∧
      (f u).regs = u.regs ∧ (f u).ds = u.ds ∧ (f u).sfr = u.sfr ∧ (f u).pending = u.pending ∧ (f u).code = u.code ∧
      (f u).data = u.data ∧ (f u).inputs = u.inputs ∧ (f u).supplied = u.supplied ∧ (f u).hold = u.hold := by
  rcases h with rfl | rfl | rfl <;> simp

/-- The write of one of the four register instructions: SfrWrite of its byte, then the pc and the free values; SETB and
CLR leave the flags. -/
theorem exec_of_writtenByte {i : Instr} {r : Sfr} {v : Byte} (h : writtenByte i s = some (r, v)) :
    ∃ f, AfterWrite f ∧ (exec i s = andThen (sfrWrite r v s) fun t => .next (f (setPc (nextPc s i.length) t))) ∧
      ((∃ b, i = .setb b ∨ i = .clr b) → f = useFree) := by
  cases i with
  | movb a d =>
    simp only [writtenByte, Option.map_eq_some_iff, Prod.mk.injEq] at h
    obtain ⟨_, h, rfl, rfl⟩ := h
    exact ⟨_, .inl rfl, withDirect_some h _, by simp⟩
  | orb a d =>
    simp only [writtenByte, Option.map_eq_some_iff, Prod.mk.injEq] at h
    obtain ⟨_, h, rfl, rfl⟩ := h
    rw [← (sfrWriteBack_read s _ d).1]
    exact ⟨_, .inr (.inl rfl), withDirect_some h _, by simp⟩
  | setb b =>
    simp only [writtenByte, Option.map_eq_some_iff, Prod.mk.injEq] at h
    obtain ⟨⟨_, n⟩, h, rfl, rfl⟩ := h
    rw [← (sfrWriteBack_read s _ (bitMask n)).1]
    exact ⟨_, .inr (.inr rfl), withBit_some h _, fun _ => rfl⟩
  | clr b =>
    simp only [writtenByte, Option.map_eq_some_iff, Prod.mk.injEq] at h
    obtain ⟨⟨_, n⟩, h, rfl, rfl⟩ := h
    rw [← (sfrWriteBack_read s _ (bitMask n)).2]
    exact ⟨_, .inr (.inr rfl), withBit_some h _, fun _ => rfl⟩
  | nop => cases h
  | bkpt => cases h
  | trap n => cases h
  | reset => cases h
  | reti => cases h

/-- A well-formed register instruction writes a byte. -/
theorem writtenByte_of_wellFormed {i : Instr} (h : wellFormed s.cfg i = true) :
    i = .nop ∨ i = .bkpt ∨ (∃ n, i = .trap n) ∨ i = .reset ∨ i = .reti ∨ ∃ r v, writtenByte i s = some (r, v) := by
  cases i with
  | clr b => obtain ⟨p, e⟩ := Option.isSome_iff_exists.1 h; simp [writtenByte, e]
  | setb b => obtain ⟨p, e⟩ := Option.isSome_iff_exists.1 h; simp [writtenByte, e]
  | movb a d => obtain ⟨p, e⟩ := Option.isSome_iff_exists.1 h; simp [writtenByte, e]
  | orb a d => obtain ⟨p, e⟩ := Option.isSome_iff_exists.1 h; simp [writtenByte, e]
  | nop => simp
  | bkpt => simp
  | trap n => simp
  | reset => simp
  | reti => simp

/-- An ill-formed term is refused. -/
theorem exec_of_not_wellFormed {i : Instr} (h : wellFormed s.cfg i = false) : ∃ r, exec i s = .refused r := by
  cases i with
  | clr b => exact ⟨_, withBit_none (Option.isNone_iff_eq_none.1 (by simpa [wellFormed] using h)) _⟩
  | setb b => exact ⟨_, withBit_none (Option.isNone_iff_eq_none.1 (by simpa [wellFormed] using h)) _⟩
  | movb a d => exact ⟨_, withDirect_none (Option.isNone_iff_eq_none.1 (by simpa [wellFormed] using h)) _⟩
  | orb a d => exact ⟨_, withDirect_none (Option.isNone_iff_eq_none.1 (by simpa [wellFormed] using h)) _⟩
  | nop => cases h
  | bkpt => cases h
  | trap n => cases h
  | reset => cases h
  | reti => cases h

/-- Everything an instruction that completes can do. -/
theorem exec_cases {i : Instr} {s t : State} (h : exec i s = .next t) :
    (i = .nop ∧ t = setPc (nextPc s 1) s) ∨
    (i = .bkpt ∧ t = setPc (nextPc s 1) (raise .breakpoint s)) ∨
    (∃ n, i = .trap n ∧ service (trapVector n) (nextPc s 2) s = .next t) ∨
    (i = .reset ∧ systemMode s = true ∧ t = raise .reset s) ∨
    (i = .reti ∧ systemMode s = true ∧ isOdd s.ssp = false ∧ t = popFrame s) ∨
    (i = .reti ∧ systemMode s = false ∧ t = setPc (nextPc s 2) (raise .userReti s)) ∨
    (∃ r v u f, writtenByte i s = some (r, v) ∧ sfrWrite r v s = .next u ∧ AfterWrite f ∧
      t = f (setPc (nextPc s i.length) u)) := by
  have hw : wellFormed s.cfg i = true := by
    by_contra hw
    obtain ⟨r, e⟩ := exec_of_not_wellFormed s (by simpa using hw)
    rw [e] at h; cases h
  rcases writtenByte_of_wellFormed s hw with rfl | rfl | ⟨n, rfl⟩ | rfl | rfl | ⟨r, v, e⟩
  · cases h; simp [Instr.length]
  · cases h; simp [Instr.length]
  · exact .inr (.inr (.inl ⟨n, rfl, h⟩))
  · simp only [exec, execReset] at h
    split at h
    · cases h; simp_all
    · cases h
  · simp only [exec, execReti] at h
    split at h
    · split at h
      · cases h
      · cases h; simp_all
    · cases h; simp_all [Instr.length]
  · refine .inr (.inr (.inr (.inr (.inr (.inr ⟨r, v, ?_⟩)))))
    obtain ⟨f, hf, e', _⟩ := exec_of_writtenByte s e
    rw [e'] at h
    obtain ⟨u, h1, h2⟩ := andThen_eq_next h
    cases h2
    exact ⟨u, f, e, h1, hf, rfl⟩

/-! ### The environment -/

/-- A move raises one of four exceptions, sets one of ten request bits, or does nothing. -/
theorem envMove_cases (m : EnvMove) :
    envMove m s = s ∨
    ((m = .rstRelease ∨ m = .watchdogReset) ∧ envMove m s = raise .reset s) ∨
    (m = .hwBreakpoint ∧ envMove m s = raise .breakpoint s) ∨
    (m = .nmiAssert ∧ nmiPresent s.cfg = true ∧ envMove m s = raise .nmi s) ∨
    ∃ b ∈ [BitName.ie0, .ie1, .tf0, .tf1, .tf2, .exf2, .ri0, .ri1, .ti0, .ti1], envMove m s = raiseBit b s := by
  by_cases hp : envPossible m s = true
  · have he : envMove m s = envEffect m s := by simp [envMove, hp]
    rw [he]
    cases m with
    | rstRelease => simp [envEffect]
    | watchdogReset => simp [envEffect]
    | extDetect n => cases n <;> simp [envEffect]
    | timerOverflow n => cases n <;> simp [envEffect]
    | timer2Overflow => simp only [envEffect]; split <;> simp
    | t2exFall => simp [envEffect]
    | serialRx p => cases p <;> simp [envEffect]
    | serialTx p => cases p <;> simp [envEffect]
    | serialStatus p => cases p <;> simp [envEffect]
    | nmiAssert => exact .inr (.inr (.inr (.inl ⟨rfl, hp, rfl⟩)))
    | hwBreakpoint => simp [envEffect]
  · left; simp [envMove, hp]

/-- What holds of a state and is kept by every move holds after any list of moves. -/
theorem envMoves_induction {P : State → Prop} (step : ∀ m u, P u → P (envMove m u)) (ms : List EnvMove) {s : State}
    (h : P s) : P (envMoves ms s) := by
  induction ms generalizing s with
  | nil => exact h
  | cons m ms ih => exact ih (step m s h)

/-- A property that the schedule does not decide and every move keeps holds after the moves before a step. -/
theorem takeInputs_induction {P : State → Prop} (step : ∀ m u, P u → P (envMove m u))
    (inputs : ∀ u x, P u → P { u with inputs := x }) {s : State} (h : P s) : P (takeInputs s) := by
  unfold takeInputs
  split
  · exact h
  · exact envMoves_induction step _ (inputs _ _ h)

@[simp] theorem takeInputs_nil {s : State} (h : s.inputs = []) : takeInputs s = s := by simp [takeInputs, h]

/-! ### Opaque steps -/

/-- The general registers after writes in order: the last value written, or the old one. -/
theorem regGet_putRegs (rs : List (Nat × Nat)) (i : Nat) : regGet (putRegs rs s) i = lastWrite rs i (regGet s i) := by
  induction rs generalizing s with
  | nil => rfl
  | cons p rs ih =>
    show regGet (putRegs rs (regPut p.1 p.2 s)) i = _
    rw [ih, lastWrite, lastWrite, List.foldl_cons]
    by_cases h : p.1 = i
    · subst h; simp
    · rw [regGet_regPut_ne _ _ (Ne.symm h), if_neg h]

/-- Data memory after stores in order: the last byte stored, or the old one. -/
theorem dataByte_putBytes (bs : List (Word × Byte)) (a : Word) :
    dataByte (putBytes bs s) a = lastWrite bs a (dataByte s a) := by
  induction bs generalizing s with
  | nil => rfl
  | cons p bs ih =>
    show dataByte (putBytes bs (dataPut p.1 p.2 s)) a = _
    rw [ih, lastWrite, lastWrite, List.foldl_cons]
    by_cases h : p.1 = a
    · subst h; simp
    · rw [dataByte_dataPut_ne _ _ (Ne.symm h), if_neg h]

/-- Register writes leave all but the general registers. -/
theorem putRegs_frame (rs : List (Nat × Nat)) : putRegs rs s = { s with regs := (putRegs rs s).regs } := by
  induction rs generalizing s with
  | nil => rfl
  | cons p rs ih =>
    show putRegs rs (regPut p.1 p.2 s) = { s with regs := (putRegs rs (regPut p.1 p.2 s)).regs }
    rw [ih]; rfl

/-- Stores leave all but data memory. -/
theorem putBytes_frame (bs : List (Word × Byte)) : putBytes bs s = { s with data := (putBytes bs s).data } := by
  induction bs generalizing s with
  | nil => rfl
  | cons p bs ih =>
    show putBytes bs (dataPut p.1 p.2 s) = { s with data := (putBytes bs (dataPut p.1 p.2 s)).data }
    rw [ih]; rfl

/-- Which stack a name is does not change with the stack pointers. -/
theorem StackName.isSystem_congr {s t : State} (h : t.pswh = s.pswh) (n : StackName) : n.isSystem t = n.isSystem s := by
  cases n <;> simp [StackName.isSystem, systemMode_congr h]

/-- Writes of stack pointers in order leave in each pointer the last value written there, and change nothing else. -/
theorem putSps_eq (ws : List (StackName × Word)) :
    putSps ws s = { s with
      ssp := lastWrite (ws.map fun p => (p.1.isSystem s, p.2)) true s.ssp
      usp := lastWrite (ws.map fun p => (p.1.isSystem s, p.2)) false s.usp } := by
  induction ws generalizing s with
  | nil => rfl
  | cons p ws ih =>
    show putSps ws (setSp p.1 p.2 s) = _
    rw [ih]
    have e : (ws.map fun q => (q.1.isSystem (setSp p.1 p.2 s), q.2)) = ws.map fun q => (q.1.isSystem s, q.2) :=
      List.map_congr_left fun q _ => by rw [StackName.isSystem_congr (setSp_pswh _ _ _)]
    rw [e]
    rcases setSp_cases s p.1 p.2 with ⟨h, e⟩ | ⟨h, e⟩ <;> rw [e] <;> simp [lastWrite, h]

/-- The pointers after pushes in order: each 2 lower for every push on its stack. -/
theorem pushAll_pointers (ws : List (StackName × Word)) :
    (pushAll ws s).ssp = s.ssp - BitVec.ofNat 16 (2 * ws.countP fun p => p.1.isSystem s) ∧
      (pushAll ws s).usp = s.usp - BitVec.ofNat 16 (2 * ws.countP fun p => !p.1.isSystem s) := by
  induction ws generalizing s with
  | nil => simp [pushAll]
  | cons p ws ih =>
    have hc : ∀ q : StackName × Word, q.1.isSystem (pushOn p.1 p.2 s) = q.1.isSystem s := fun q =>
      StackName.isSystem_congr (pushOn_pswh _ _ _) _
    obtain ⟨h1, h2⟩ := ih (pushOn p.1 p.2 s)
    rw [show pushAll (p :: ws) s = pushAll ws (pushOn p.1 p.2 s) from rfl, h1, h2]
    simp only [hc, List.countP_cons]
    rcases pushOn_cases s p.1 p.2 with ⟨h, e⟩ | ⟨h, e⟩ <;> rw [e] <;>
      simp only [h, pushSys_ssp, pushSys_usp, pushUser_ssp, pushUser_usp, Bool.not_true, Bool.not_false, if_true,
        Bool.false_eq_true, if_false, Nat.add_zero, Nat.mul_add, Nat.mul_one, BitVec.ofNat_add] <;>
      constructor <;> first | rfl | bv_omega

/-- Pushes leave all but the stack pointers, data memory and the pending set. -/
theorem pushAll_frame (ws : List (StackName × Word)) :
    pushAll ws s = { s with
      ssp := (pushAll ws s).ssp, usp := (pushAll ws s).usp, data := (pushAll ws s).data
      pending := (pushAll ws s).pending } := by
  induction ws generalizing s with
  | nil => rfl
  | cons p ws ih =>
    have e : ∀ v, pushSys v s = { s with
        ssp := (pushSys v s).ssp, data := (pushSys v s).data, pending := (pushSys v s).pending } := fun v => by
      unfold pushSys; dsimp only; split <;> rfl
    have e' : ∀ v, pushUser v s = { s with
        usp := (pushUser v s).usp, data := (pushUser v s).data, pending := (pushUser v s).pending } := fun v => by
      unfold pushUser; dsimp only; split <;> rfl
    rw [show pushAll (p :: ws) s = pushAll ws (pushOn p.1 p.2 s) from rfl, ih]
    rcases pushOn_cases s p.1 p.2 with ⟨_, h⟩ | ⟨_, h⟩ <;> rw [h]
    · rw [e]
    · rw [e']

/-- Pushes withdraw no exception and raise none but StackOverflow. -/
theorem pushAll_pending (ws : List (StackName × Word)) :
    (pushAll ws s).pending = s.pending ∨ (pushAll ws s).pending = s.pending.add .stackOverflow := by
  induction ws generalizing s with
  | nil => exact .inl rfl
  | cons p ws ih =>
    rw [show pushAll (p :: ws) s = pushAll ws (pushOn p.1 p.2 s) from rfl]
    have h : (pushOn p.1 p.2 s).pending = s.pending ∨ (pushOn p.1 p.2 s).pending = s.pending.add .stackOverflow := by
      rcases pushOn_cases s p.1 p.2 with ⟨_, e⟩ | ⟨_, e⟩ <;> rw [e] <;> simp only [pushSys_pending, pushUser_pending] <;>
        split <;> simp
    rcases ih (pushOn p.1 p.2 s) with e | e <;> rcases h with e' | e' <;> rw [e, e'] <;> simp

/-- Which stack each push is on does not change with what leaves PSWH as it is. -/
theorem pushesAt_congr {s t : State} (h : t.pswh = s.pswh) (ws : List (StackName × Word)) (ssp usp : Word) :
    pushesAt t ws ssp usp = pushesAt s ws ssp usp := by
  induction ws generalizing ssp usp with
  | nil => rfl
  | cons p ws ih => simp only [pushesAt, StackName.isSystem_congr h, ih]

/-- Data memory and the pending set after pushes in order: the words pushed, each at its pointer less 2, and
StackOverflow where STACK_OVF asks for it at one of them. -/
theorem pushAll_effect (ws : List (StackName × Word)) :
    let ps := pushesAt s ws s.ssp s.usp
    (∀ a, dataByte (pushAll ws s) a = lastWrite (ps.flatMap PushAt.bytes) a (dataByte s a)) ∧
      ∀ e, (pushAll ws s).pending.has e =
        (s.pending.has e || (decide (e = .stackOverflow) && ps.any fun p => p.overflows s.cfg)) := by
  induction ws generalizing s with
  | nil => exact ⟨fun _ => rfl, fun _ => by simp [pushAll, pushesAt]⟩
  | cons p ws ih =>
    have one : ∀ (x y : Word) (v : Word) (a : Word) (o : Byte),
        lastWrite [(x, loByte v), (y, hiByte v)] a o = if a = y then hiByte v else if a = x then loByte v else o := by
      intro x y v a o; simp only [lastWrite, List.foldl_cons, List.foldl_nil, eq_comm]
    have app : ∀ (xs ys : List (Word × Byte)) (a : Word) (o : Byte),
        lastWrite (xs ++ ys) a o = lastWrite ys a (lastWrite xs a o) := fun xs ys a o => List.foldl_append ..
    obtain ⟨h1, h2⟩ := ih (pushOn p.1 p.2 s)
    rw [show pushAll (p :: ws) s = pushAll ws (pushOn p.1 p.2 s) from rfl]
    rw [pushesAt_congr (pushOn_pswh s p.1 p.2)] at h1 h2
    rcases pushOn_cases s p.1 p.2 with ⟨h, e⟩ | ⟨h, e⟩ <;> rw [e] at h1 h2 ⊢ <;>
      simp only [pushSys_ssp, pushSys_usp, pushSys_cfg, pushUser_ssp, pushUser_usp, pushUser_cfg] at h1 h2 <;>
      simp only [pushesAt, h, if_true, Bool.false_eq_true, if_false]
    · refine ⟨fun a => ?_, fun x => ?_⟩
      · rw [h1, dataByte_pushSys, List.flatMap_cons, app]; simp only [PushAt.bytes, one]
      · rw [h2, pushSys_pending, List.any_cons]; simp only [PushAt.overflows]
        cases stackOvf s.cfg true s.ssp (s.ssp - 2#16) <;> by_cases hx : x = .stackOverflow <;> simp [Pending.has_add, hx]
    · refine ⟨fun a => ?_, fun x => ?_⟩
      · rw [h1, dataByte_pushUser, List.flatMap_cons, app]; simp only [PushAt.bytes, one]
      · rw [h2, pushUser_pending, List.any_cons]; simp only [PushAt.overflows]
        cases stackOvf s.cfg false s.usp (s.usp - 2#16) <;> by_cases hx : x = .stackOverflow <;> simp [Pending.has_add, hx]

/-- A property that every write of a register keeps holds after a list of them. -/
theorem writeSfrs_induction {P : State → Prop} (sfr : ∀ u r v t, P u → sfrWrite r v u = .next t → P t)
    {rs : List (Sfr × Byte)} {s t : State} (h : P s) (e : writeSfrs rs s = .next t) : P t := by
  induction rs generalizing s with
  | nil => cases e; exact h
  | cons p rs ih =>
    obtain ⟨w, e1, e2⟩ := andThen_eq_next e
    exact ih (sfr s _ _ w h e1) e2

/-- What a write of PSWH leaves and raises: the byte of pswhWritten, and what USER_PSWH_WRITE says of an attempt. -/
theorem sfrWrite_pswh (v : Byte) :
    let t := { s with pswh := pswhWritten s.cfg s.pswh v }
    sfrWrite .pswh v s =
      if pswhAttempt s.cfg s.pswh v then
        match s.cfg.userPswhWrite with
        | .ignore => .next t
        | .exception e => .next (raise e t)
        | .fault => .fault .protectedPswhWrite
      else .next t := by
  have hm : s.pswh.getLsbD (bitPos s.cfg .sm) = systemMode s := rfl
  simp only [pswhWritten, pswhAttempt, hm]
  rcases sfrWrite_cases s .pswh v with ⟨h, _⟩ | ⟨_, h, e⟩ | ⟨_, h, hc, e⟩ | ⟨x, _, h, hc, hu, e⟩ | ⟨_, h, hc, hu, e⟩
  · exact absurd rfl h
  · rw [e]; simp [h, sfrPut]
  · rw [e]
    rcases hc with hc | hc
    · have : ¬ v &&& ~~~ rsMask s.cfg ≠ s.pswh &&& ~~~ rsMask s.cfg := by
        rw [← changesProtected_eq_true]; simp [hc]
      simp [h, this, sfrPut, userPswh]
    · simp [h, hc, sfrPut, userPswh]
  · rw [changesProtected_eq_true] at hc
    rw [e, hu]; simp [h, hc, sfrPut, userPswh]
  · rw [changesProtected_eq_true] at hc
    rw [e, hu]; simp [h, hc]

/-- Everything one register write can do, in terms of the bytes: the fault, at an attempt on PSWH in User Mode where the
configuration stops on it; otherwise the register takes its storage bits, PSWH what a write leaves in it, and an attempt
raises the configured exception. -/
theorem sfrWrite_effect (r : Sfr) (v : Byte) :
    let tried := decide (r = .pswh) && pswhAttempt s.cfg s.pswh v
    (tried = true ∧ s.cfg.userPswhWrite = .fault ∧ sfrWrite r v s = .fault .protectedPswhWrite) ∨
    ((tried = true → s.cfg.userPswhWrite ≠ .fault) ∧ ∃ t, sfrWrite r v s = .next t ∧
      t.pswh = (if r = .pswh then pswhWritten s.cfg s.pswh v else s.pswh) ∧
      (r ≠ .pswh → sfrGet r t = v &&& sfrMask r s) ∧
      ∀ e, t.pending.has e = (s.pending.has e || (tried && decide (s.cfg.userPswhWrite = .exception e)))) := by
  by_cases hr : r = .pswh
  · subst hr
    have h := sfrWrite_pswh s v
    cases ha : pswhAttempt s.cfg s.pswh v
    · right; simp only [ha, Bool.false_eq_true, if_false] at h; exact ⟨by simp, _, h, by simp⟩
    · cases hu : s.cfg.userPswhWrite with
      | ignore => right; simp only [ha, hu, if_true] at h; exact ⟨by simp, _, h, by simp⟩
      | exception x =>
        right; simp only [ha, hu, if_true] at h
        refine ⟨by simp, _, h, by simp, by simp, fun e => ?_⟩
        rw [raise_pending, Pending.has_add, Bool.or_comm]; simp [eq_comm]
      | fault => left; simp only [ha, hu, if_true] at h; exact ⟨by simp, rfl, h⟩
  · right
    rcases sfrWrite_cases s r v with ⟨_, e⟩ | ⟨h, _⟩ | ⟨h, _⟩ | ⟨_, h, _⟩ | ⟨h, _⟩
    · refine ⟨by simp [hr], _, e, ?_, fun _ => by simp, by simp [hr]⟩
      rw [if_neg hr]; exact sfrGet_sfrPut_ne s _ (Ne.symm hr)
    all_goals exact absurd h hr

/-- Everything a list of register writes can do: the fault, where one is an attempt on PSWH in User Mode and the
configuration stops on it; otherwise each register holds the last value written, in its storage, PSWH what its own
writes leave, and an attempt has raised the configured exception. -/
theorem writeSfrs_cases (rs : List (Sfr × Byte)) :
    let tried := pswhAttempted s.cfg (pswhWrites rs) s.pswh
    (tried = true ∧ s.cfg.userPswhWrite = .fault ∧ writeSfrs rs s = .fault .protectedPswhWrite) ∨
    ((tried = true → s.cfg.userPswhWrite ≠ .fault) ∧ ∃ t, writeSfrs rs s = .next t ∧
      t.pswh = pswhAfter s.cfg (pswhWrites rs) s.pswh ∧
      (∀ r, r ≠ .pswh → sfrGet r t = lastWrite (rs.map fun p => (p.1, p.2 &&& sfrMask p.1 s)) r (sfrGet r s)) ∧
      (∀ e, t.pending.has e = (s.pending.has e || (tried && decide (s.cfg.userPswhWrite = .exception e)))) ∧
      t.cfg = s.cfg ∧ t.pc = s.pc ∧ t.ssp = s.ssp ∧ t.usp = s.usp ∧ t.regs = s.regs ∧ t.ds = s.ds ∧ t.code = s.code ∧
      t.data = s.data ∧ t.inputs = s.inputs ∧ t.supplied = s.supplied ∧ t.hold = s.hold) := by
  induction rs generalizing s with
  | nil => right; simp [pswhWrites, pswhAttempted, pswhAfter, writeSfrs, lastWrite]
  | cons p rs ih =>
    have first : pswhAttempted s.cfg (pswhWrites (p :: rs)) s.pswh =
        ((decide (p.1 = .pswh) && pswhAttempt s.cfg s.pswh p.2) || pswhAttempted s.cfg (pswhWrites rs)
          (if p.1 = .pswh then pswhWritten s.cfg s.pswh p.2 else s.pswh)) ∧
        pswhAfter s.cfg (pswhWrites (p :: rs)) s.pswh = pswhAfter s.cfg (pswhWrites rs)
          (if p.1 = .pswh then pswhWritten s.cfg s.pswh p.2 else s.pswh) := by
      by_cases h : p.1 = .pswh <;> simp [pswhWrites, h, pswhAttempted, pswhAfter]
    simp only [first]
    rcases sfrWrite_effect s p.1 p.2 with ⟨h1, h2, h3⟩ | ⟨h1, u, h3, h4, h5, h6⟩
    · left; exact ⟨by simp only [h1, Bool.true_or], h2, by simp [writeSfrs, h3]⟩
    · have fr := sfrWrite_frame h3
      have e : writeSfrs (p :: rs) s = writeSfrs rs u := by simp [writeSfrs, h3]
      rw [e, ← h4]
      rcases ih u with ⟨g1, g2, g3⟩ | ⟨g1, t, g3, g4, g5, g6, g7⟩
      · left; rw [fr.1] at g1 g2; exact ⟨by simp only [g1, Bool.or_true], g2, g3⟩
      · right
        rw [fr.1] at g1 g4
        simp only [fr.1] at g6
        refine ⟨fun h => ?_, t, g3, g4, fun r hr => ?_, fun x => ?_, by simp_all⟩
        · rw [Bool.or_eq_true] at h
          rcases h with h | h
          · exact h1 h
          · exact g1 h
        · rw [g5 r hr]
          simp only [sfrMask_congr fr.1, List.map_cons, lastWrite, List.foldl_cons]
          congr 1
          by_cases hp : p.1 = r
          · subst hp; rw [h5 hr, if_pos rfl]
          · rw [if_neg hp]; exact fr.2.2.2.2.2.2.2.2.2.2.2.2 r (Ne.symm hp)
        · rw [g6, h6, Bool.or_assoc, Bool.and_or_distrib_right]

/-- A property kept by every part of an opaque step is kept by its effect. -/
theorem opaqueEffect_induction {P : State → Prop}
    (ds : ∀ u v, P u → P { u with ds := v }) (reg : ∀ u i v, P u → P (regPut i v u))
    (byte : ∀ u a v, P u → P (dataPut a v u)) (sp : ∀ u n v, P u → P (setSp n v u))
    (push : ∀ u n v, P u → P (pushOn n v u)) (sfr : ∀ u r v t, P u → sfrWrite r v u = .next t → P t)
    (pc : ∀ u a, P u → P (setPc a u)) (flags : ∀ u, P u → P (freeFlags u))
    {o : OpaqueStep} {s t : State} (h : P s) (he : opaqueEffect o s = .next t) : P t := by
  have fold : ∀ {α : Type} (f : State → α → State), (∀ u x, P u → P (f u x)) → ∀ (xs : List α) u, P u → P (xs.foldl f u) := by
    intro α f hf xs
    induction xs with
    | nil => exact fun u h => h
    | cons x xs ih => exact fun u h => ih _ (hf u x h)
  obtain ⟨w, e1, e2⟩ := andThen_eq_next he
  cases e2
  refine flags _ (pc _ _ (writeSfrs_induction sfr ?_ e1))
  refine fold _ (fun u x h => push u x.1 x.2 h) _ _ (fold _ (fun u x h => sp u x.1 x.2 h) _ _ ?_)
  exact fold _ (fun u x h => byte u x.1 x.2 h) _ _ (fold _ (fun u x h => reg u x.1 x.2 h) _ _ (ds _ _ h))

/-- Everything one execution of an opaque step can be: its effect, or for a zero divisor the effect with every
destination free, DivideByZero raised. -/
theorem execOpaque_cases (o : OpaqueStep) :
    (o.divisor ≠ some 0 ∧ execOpaque o s = opaqueEffect o s) ∨
    (o.divisor = some 0 ∧ execOpaque o s =
      opaqueEffect (o.freed s.freeCtr) (raise .divideByZero { s with freeCtr := s.freeCtr + o.freedCount })) := by
  by_cases h : o.divisor = some 0 <;> simp [execOpaque, h]

/-- What a step with its destinations free writes to: the same places as the step. -/
theorem OpaqueStep.freed_places (o : OpaqueStep) (n : Nat) :
    (o.freed n).regs.map Prod.fst = o.regs.map Prod.fst ∧ (o.freed n).stores.map Prod.fst = o.stores.map Prod.fst ∧
      (o.freed n).sfrs.map Prod.fst = o.sfrs.map Prod.fst ∧ (o.freed n).sps.map Prod.fst = o.sps.map Prod.fst ∧
      (o.ds = none → (o.freed n).ds = none) ∧ (o.freed n).pushes = [] ∧ (o.freed n).target = none ∧
      (o.freed n).bytes = o.bytes := by
  have key : ∀ {α β : Type} (xs : List (α × β)) (g : Nat → β) (k : Nat),
      ((xs.zipIdx k).map fun p => (p.1.1, g p.2)).map Prod.fst = xs.map Prod.fst := by
    intro α β xs g
    induction xs with
    | nil => simp
    | cons x xs ih => intro k; simp [List.zipIdx_cons, ← ih (k + 1)]
  refine ⟨key _ (fun k => Config.freeValue (n + k)) 0, key _ (fun k => Config.freeByte (n + k)) 0,
    key _ (fun k => Config.freeByte (n + o.stores.length + k)) 0, key _ (fun k => Config.freeWord (n + k)) 0,
    fun h => by simp [OpaqueStep.freed, h], rfl, rfl, rfl⟩

/-- A place no write of the list names keeps what it held. -/
theorem lastWrite_of_not_mem {α β : Type} [DecidableEq α] {ws : List (α × β)} {x : α} (h : x ∉ ws.map Prod.fst)
    (old : β) : lastWrite ws x old = old := by
  induction ws with
  | nil => rfl
  | cons p ws ih =>
    simp only [List.map_cons, List.mem_cons, not_or] at h
    rw [lastWrite, List.foldl_cons, if_neg (Ne.symm h.1)]
    exact ih h.2

/-! ### The boundary -/

theorem finish_eq_next {bytes : List Byte} {d : Bool} {s t : State} {o : Host.Outcome State Fault Refusal}
    (h : finish bytes d s o = .next t) : ∃ u, o = .next u ∧ t = finishState bytes d s u := by
  obtain ⟨u, h1, h2⟩ := andThen_eq_next h
  cases h2
  exact ⟨u, h1, rfl⟩

/-- What the CPU adds to a completed instruction: the shadow, and possibly Trace. -/
theorem finishState_eq (bytes : List Byte) (d : Bool) (s t : State) :
    finishState bytes d s t = { t with
      hold := holdAfter s.cfg d
      pending := if traceRaised (.instruction bytes) s t then t.pending.add .trace else t.pending } := by
  rw [show traceRaised (.instruction bytes) s t =
    traceRaised (.instruction bytes) s { t with hold := holdAfter s.cfg d } from rfl]
  unfold finishState traceAfter; split <;> rfl

/-- Everything an execution of an instruction that completes can be: one of the nine, or a supplied opaque step. -/
theorem runInstr_cases {s t : State} (h : runInstr s = .next t) :
    (∃ i rest u, decode (fetchBytes s 4) = .instr i rest ∧ wellFormed s.cfg i = true ∧ exec i s = .next u ∧
      t = finishState (fetchBytes s i.length) (instrDelays s.cfg i) s u) ∨
    (∃ o os u, s.supplied = o :: os ∧ opaqueMatches o s = true ∧ execOpaque o { s with supplied := os } = .next u ∧
      t = finishState o.bytes (opaqueDelays o) s u) := by
  have key : ∀ x, runOpaque s (.refused x) = .next t → ∃ o os u, s.supplied = o :: os ∧ opaqueMatches o s = true ∧
      execOpaque o { s with supplied := os } = .next u ∧ t = finishState o.bytes (opaqueDelays o) s u := by
    intro x hx
    unfold runOpaque at hx
    split at hx
    · cases hx
    · rename_i o os e
      split at hx
      · obtain ⟨u, h1, h2⟩ := finish_eq_next hx
        exact ⟨o, os, u, e, ‹_›, h1, h2⟩
      · cases hx
  unfold runInstr at h
  split at h
  · rename_i i rest e
    split at h
    · obtain ⟨u, h1, h2⟩ := finish_eq_next h
      exact .inl ⟨i, rest, u, e, ‹_›, h1, h2⟩
    · rename_i hw
      obtain ⟨r, er⟩ := exec_of_not_wellFormed s (Bool.eq_false_iff.2 hw)
      rw [er] at h
      exact .inr (key _ h)
  · exact .inr (key _ h)

/-- Everything a CPU step that completes can be: reset, the sequences of the pending exceptions, the acceptance of a
maskable interrupt, or the execution of an instruction. -/
theorem cpuStep_cases {s t : State} (h : cpuStep s = .next t) :
    (s.pending.reset = true ∧ doReset s = .next t) ∨
    (s.pending.reset = false ∧ s.pending ≠ Pending.empty ∧ servicePending s = .next t) ∨
    (s.pending = Pending.empty ∧ ∃ m, acceptable s = some m ∧ acceptMaskable m s = .next t) ∨
    (s.pending = Pending.empty ∧ acceptable s = none ∧ runInstr s = .next t) := by
  unfold cpuStep at h
  split at h
  · exact .inl ⟨‹_›, h⟩
  · rename_i h1
    have h1 := Bool.eq_false_iff.2 h1
    split at h
    · exact .inr (.inl ⟨h1, ‹_›, h⟩)
    · rename_i h2
      have h2 := not_not.1 h2
      split at h
      · exact .inr (.inr (.inl ⟨h2, _, ‹_›, h⟩))
      · exact .inr (.inr (.inr ⟨h2, ‹_›, h⟩))

/-- A boundary that takes nothing executes an instruction. -/
theorem cpuStep_of_quiet {s : State} (hp : s.pending = Pending.empty) (ha : acceptable s = none) :
    cpuStep s = runInstr s := by
  simp [cpuStep, hp, ha, Pending.empty]

/-- A property that every sequence keeps, and that a Trace after it does not break, is kept by the sequences of a list
of exceptions. -/
theorem serviceAll_induction {P : State → Prop}
    (seq : ∀ e u v, P u → service (excVector e) u.pc u = .next v → P v) (trace : ∀ u v, P v → P (traceAfter .sequence u v))
    {es : List Exc} {s t : State} (h : P s) (he : serviceAll es s = .next t) : P t := by
  induction es generalizing s with
  | nil => cases he; exact h
  | cons e es ih =>
    obtain ⟨u, h1, h2⟩ := andThen_eq_next he
    obtain ⟨v, h3, rfl⟩ := takeInterrupt_eq_next h1
    exact ih (trace s v (seq e s v h h3)) h2

end Sys2Proof.Machine
end

