-- ==== Sys2Proof/Laws/PerInstr.lean ====
section
/-! SUPPORT. Statements for all instructions, one lemma for each constructor. -/

namespace Sys2Proof.Laws.Fetchable

/-- The encoding is not empty and fits in the four bytes that a fetch reads, and its first byte alone tells the length:
two instructions with the same first byte have the same length (30_encoding.md R105). -/
def Statement (i : Instr) : Prop :=
  1 ≤ i.length ∧ i.length ≤ 4 ∧ (encode i).length = i.length ∧
    ∀ j : Instr, (encode j).head? = (encode i).head? → j.length = i.length

theorem nop : Statement .nop := by
  refine ⟨by decide, by decide, rfl, fun j => ?_⟩; cases j <;> simp [encode, Instr.length]

theorem bkpt : Statement .bkpt := by
  refine ⟨by decide, by decide, rfl, fun j => ?_⟩; cases j <;> simp [encode, Instr.length]

theorem trap (n : BitVec 4) : Statement (.trap n) := by
  refine ⟨by simp [Instr.length], by simp [Instr.length], rfl, fun j => ?_⟩; cases j <;> simp [encode, Instr.length]

theorem reset : Statement .reset := by
  refine ⟨by decide, by decide, rfl, fun j => ?_⟩; cases j <;> simp [encode, Instr.length]

theorem reti : Statement .reti := by
  refine ⟨by decide, by decide, rfl, fun j => ?_⟩; cases j <;> simp [encode, Instr.length]

theorem clr (b : BitVec 10) : Statement (.clr b) := by
  refine ⟨by simp [Instr.length], by simp [Instr.length], rfl, fun j => ?_⟩; cases j <;> simp [encode, Instr.length]

theorem setb (b : BitVec 10) : Statement (.setb b) := by
  refine ⟨by simp [Instr.length], by simp [Instr.length], rfl, fun j => ?_⟩; cases j <;> simp [encode, Instr.length]

theorem movb (a : BitVec 11) (d : Byte) : Statement (.movb a d) := by
  refine ⟨by simp [Instr.length], by simp [Instr.length], rfl, fun j => ?_⟩; cases j <;> simp [encode, Instr.length]

theorem orb (a : BitVec 11) (d : Byte) : Statement (.orb a d) := by
  refine ⟨by simp [Instr.length], by simp [Instr.length], rfl, fun j => ?_⟩; cases j <;> simp [encode, Instr.length]

end Sys2Proof.Laws.Fetchable
end

