-- ==== Sys2Proof/Tests/Slice0.lean ====
section
/-! SUPPORT. Tests: words written out bit by bit from 30_encoding.md R105, R106, steps from the vectors of
95_test_vectors.md, the refusals of WellFormed, and for every obligation with hypotheses a state that meets them. -/

namespace Sys2Proof.Tests

open Sys2Proof Sys2Proof.Machine

/-! ### Helpers -/

/-- Whether the outcome is a next state with the property. -/
def nextWith (o : Host.Outcome State Fault Refusal) (p : State → Bool) : Bool :=
  match o with
  | .next t => p t
  | .fault _ => false
  | .refused _ => false

/-- Whether the outcome is this refusal. -/
def refusedWith (o : Host.Outcome State Fault Refusal) (r : Refusal) : Bool :=
  match o with
  | .next _ => false
  | .fault _ => false
  | .refused x => decide (x = r)

/-- A word of code memory, low byte first. -/
def codeWord (a v : Word) (s : State) : State := codePut (page0 (a + 1)) (hiByte v) (codePut (page0 a) (loByte v) s)

/-- A vector: the PSW word and the address word. -/
def vector (va p a : Word) (s : State) : State := codeWord (va + 2) a (codeWord va p s)

/-- Bytes of code from an address on. -/
def prog (a : CodeAddr) (bs : List Byte) (s : State) : State :=
  (bs.zipIdx).foldl (fun u p => codePut (a + BitVec.ofNat 24 p.2) p.1 u) { s with pc := a }

/-- System Mode, IM = 0, TM = 0, in 24-bit mode, SSP = 0100h. -/
def sys : State := { State.reset with pswh := 0x80 }

/-- User Mode at IM = 15. -/
def usr : State := { State.reset with pswh := 0x0F }

/-- Page 0 Mode. -/
def page0Of (s : State) : State := { s with sfr := { s.sfr with scr := 0x01 } }

/-- The lengths of the two opaque instructions of these tests. -/
def lengthened (s : State) : State :=
  { s with cfg := { s.cfg with lengths := [⟨0xE8, some 0x00, 2⟩, ⟨0x01, none, 1⟩, ⟨0x96, some 0xC8, 4⟩] } }

/-- Another map than the default one: IPA0 and S1CON at other addresses, ET2 in IEH, TM and RS0 exchanged. -/
def otherMap (s : State) : State :=
  { s with cfg := { s.cfg with
    addrMoves := [⟨.ipa0, 0x4B0⟩, ⟨.s1con, 0x430⟩]
    bitMoves := [⟨.et2, true, 4⟩, ⟨.tm, false, 4⟩, ⟨.rs0, false, 6⟩] } }

/-- An opaque step of two bytes that does nothing. -/
def idle : OpaqueStep :=
  { bytes := [0xE8, 0x00], target := none, regs := [], ds := none, stores := [], sfrs := [], sps := [], pushes := [],
    divisor := none }

/-- An opaque step that writes PSWH. -/
def writePswh : OpaqueStep := { idle with bytes := [0x01], sfrs := [(.pswh, 0xBF)] }

/-- An opaque step for a MOV.B whose direct address names no register. -/
def unnamedMovb : OpaqueStep := { idle with bytes := [0x96, 0x48, 0x02, 0x80] }

/-- An opaque divide by zero that writes a register and a byte. -/
def divide : OpaqueStep := { idle with regs := [(0, 7)], stores := [(0x0200, 0x11)], divisor := some 0 }

/-- An opaque step of one byte that writes DS and a byte, sets USP, and pushes on the current and the user stack. -/
def writeDs : OpaqueStep :=
  { idle with
    bytes := [0x01], ds := some 5, stores := [(0x0200, 0x55)], sps := [(.user, 0x0300)]
    pushes := [(.current, 0x1234), (.user, 0x5678)] }

/-! ### WellFormed -/

theorem test_wf_movb_unnamed : wellFormed Config.g3Default (.movb 0x402 0x00) = false := by decide
theorem test_wf_orb_unnamed : wellFormed Config.g3Default (.orb 0x000 0x00) = false := by decide
theorem test_wf_setb_not_bit_addressable : wellFormed Config.g3Default (.setb 0x000) = false := by decide
theorem test_wf_clr_unnamed : wellFormed Config.g3Default (.clr 0x3FF) = false := by decide
theorem test_wf_setb_swr1 : wellFormed Config.g3Default (.setb 0x350) = true := by decide
theorem test_wf_refused : refusedWith (exec (.movb 0x402 0x00) sys) .directNotSfr = true ∧
    refusedWith (exec (.clr 0x3FF) sys) .bitNotSfr = true := by decide

/-! ### Encodings, written out from R105 and R106 -/

theorem test_decode_nop : decode [0b00000000] = .instr .nop [] ∧ decodeTableWord 8 0x00 = some .nop := by decide
theorem test_decode_bkpt : decode [0b11111111] = .instr .bkpt [] ∧ decodeTableWord 8 0xFF = some .bkpt := by decide
theorem test_decode_trap : decode [0b11010110, 0b00110101] = .instr (.trap 5) [] ∧
    decodeTableWord 16 0xD63F = some (.trap 15) := by decide
theorem test_decode_reset : decode [0b11010110, 0b00010000] = .instr .reset [] ∧
    decodeTableWord 16 0xD610 = some .reset := by decide
theorem test_decode_reti : decode [0b11010110, 0b10010000] = .instr .reti [] ∧
    decodeTableWord 16 0xD690 = some .reti := by decide
theorem test_decode_clr : decode [0b00001000, 0b00000011, 0b01010000] = .instr (.clr 0x350) [] ∧
    decodeTableWord 24 0x080350 = some (.clr 0x350) := by decide
theorem test_decode_setb : decode [0b00001000, 0b00010011, 0b01010000] = .instr (.setb 0x350) [] ∧
    decodeTableWord 24 0x081350 = some (.setb 0x350) := by decide
theorem test_decode_movb : decode [0b10010110, 0b01001000, 0b00000001, 0b10000000] = .instr (.movb 0x401 0x80) [] ∧
    decodeTableWord 32 0x96480180 = some (.movb 0x401 0x80) := by decide
theorem test_decode_orb : decode [0b10010110, 0b01000110, 0b01111010, 0b00000001] = .instr (.orb 0x47A 0x01) [] ∧
    decodeTableWord 32 0x96467A01 = some (.orb 0x47A 0x01) := by decide
theorem test_decode_rejects : decode [0x01, 0, 0, 0] = .rejected .notNamed ∧ decode [0xD6] = .rejected .truncated ∧
    decode [0x96, 0xC8, 0, 0] = .rejected .notNamed ∧ decode [0x08, 0x04, 0] = .rejected .notNamed := by decide
theorem test_swr1_is_350h : bitAddr Config.g3Default .swr 0 = 0x350 := by decide

/-! ### withFetchWord -/

theorem test_fetch_trap : nextWith (step ((vector 0x54 0x8F00 0x0300 State.reset).withFetchWord 16 0xD635))
    (fun t => decide (t.pc = 0x000300 ∧ t.ssp = 0x00FA)) = true := by decide
theorem test_fetch_movb : nextWith (step (State.reset.withFetchWord 32 0x96480180))
    (fun t => decide (t.pswh = 0x80 ∧ t.pc = 0x000124)) = true := by decide

/-! ### Instructions, by the vectors of 95_test_vectors.md -/

/-- V55: TRAP #5 at 012340h with PSW = 0081h, vector 8F00h, 0300h. -/
theorem test_trap_V55 : nextWith
    (exec (.trap 5) (vector 0x54 0x8F00 0x0300 { State.reset with pc := 0x012340, pswh := 0x00, pswl := 0x81 }))
    (fun t => decide (memRead16 t 0x00FE = 0x2342 ∧ memRead16 t 0x00FC = 0x0001 ∧ memRead16 t 0x00FA = 0x0081 ∧
      dataByte t 0x00FD = 0x00 ∧ dataByte t 0x00FF = 0x23 ∧ t.ssp = 0x00FA ∧ psw t = 0x8F00 ∧ t.pc = 0x000300)) = true := by
  decide

/-- V59: an odd ISR address. -/
theorem test_trap_V59 : refusedWith (exec (.trap 5) (vector 0x54 0x8F00 0x0301 sys)) .oddVectorTarget = true := by decide

/-- V63: RETI in System Mode; the pad byte ABh is ignored. -/
theorem test_reti_V63 : nextWith
    (exec .reti (memWrite16 0x00FA 0x0081 (memWrite16 0x00FC 0xAB01 (memWrite16 0x00FE 0x2342 { sys with ssp := 0x00FA }))))
    (fun t => decide (psw t = 0x0081 ∧ t.pc = 0x012342 ∧ t.ssp = 0x0100)) = true := by decide

/-- V64: RETI in User Mode at 000300h pops nothing; the next step enters its handler. -/
theorem test_reti_V64 : nextWith
    (exec .reti (vector 0x14 0x8F00 0x0600 { usr with pc := 0x000300, ssp := 0x00FA }))
    (fun t => t.pending.userReti && decide (t.ssp = 0x00FA) && nextWith (step t) (fun u =>
      decide (memRead16 u 0x00F8 = 0x0302 ∧ memRead16 u 0x00F6 = 0x0000 ∧ memRead16 u 0x00F4 = 0x0F00 ∧
        u.ssp = 0x00F4 ∧ psw u = 0x8F00 ∧ u.pc = 0x000600))) = true := by decide

/-- V56: the frame of BKPT at 000200h in Page 0 Mode. -/
theorem test_bkpt_V56 : nextWith (exec .bkpt (vector 0x04 0x8F00 0x0500 { page0Of sys with pc := 0x000200 }))
    (fun t => nextWith (step t) (fun u => decide (memRead16 u 0x00FE = 0x0201 ∧ memRead16 u 0x00FC = 0x8000 ∧
      u.ssp = 0x00FC ∧ psw u = 0x8F00 ∧ u.pc = 0x000500))) = true := by decide

/-- V66: RESET with TM = 1. -/
theorem test_reset_V66 : nextWith
    (step (prog 0x000200 [0xD6, 0x10] { sys with pswh := 0xC0, ssp := 0x0040, sfr := { sys.sfr with iel := 0x9F, ipa0 := 0x77 } }))
    (fun t => t.pending.trace && nextWith (step t) (fun u => decide (u.pending = Pending.empty ∧ psw u = 0x8F00 ∧
      u.pc = 0x000120 ∧ u.ssp = 0x0100 ∧ u.usp = 0x0100 ∧ u.sfr.iel = 0 ∧ u.sfr.ipa0 = 0))) = true := by decide
theorem test_reset_user : refusedWith (exec .reset usr) .resetInUserMode = true := by decide

theorem test_nop : nextWith (exec .nop { sys with pc := 0xFFFFFF }) (fun t => decide (t.pc = 0x000000)) = true := by decide

/-- V52: C9h written to a G3 IPA register reads 41h. -/
theorem test_movb_V52 : nextWith (exec (.movb 0x4A0 0xC9) sys) (fun t => decide (t.sfr.ipa0 = 0x41)) = true := by
  decide

/-- V68: MOV.B PSWH, #3FH in User Mode with PSW = 0000h gives PSWH = 30h. -/
theorem test_movb_V68 : nextWith (exec (.movb 0x401 0x3F) { usr with pswh := 0x00 })
    (fun t => decide (t.pswh = 0x30)) = true := by decide

/-- V70: OR.B SWE, #40H with SWE = 01h. -/
theorem test_orb_V70 : nextWith (exec (.orb 0x47A 0x40) { sys with sfr := { sys.sfr with swe := 0x01 } })
    (fun t => decide (t.sfr.swe = 0x41)) = true := by decide

/-- V70: SETB SWR.1, and V71: SETB TF0 requests the Timer 0 interrupt, accepted at the next boundary and cleared. -/
theorem test_setb_V70 : nextWith (exec (.setb 0x351) sys) (fun t => decide (t.sfr.swr = 0x02)) = true := by decide
theorem test_setb_V71 : nextWith
    (exec (.setb 0x285) (vector 0x84 0x8900 0x0400 { sys with sfr := { sys.sfr with iel := 0x82, ipa0 := 0x10 } }))
    (fun t => bitOf .tf0 t && nextWith (step t) (fun u => !bitOf .tf0 u && decide (u.pc = 0x000400))) = true := by decide

/-- V70: CLR SWR1 with SWR = 7Fh. -/
theorem test_clr_V70 : nextWith (exec (.clr 0x350) { sys with sfr := { sys.sfr with swr := 0x7F } })
    (fun t => decide (t.sfr.swr = 0x7E)) = true := by decide

/-- V74 and V75: two events of different and of equal priority. -/
theorem test_select_V74 : selectMaskable { sys with sfr := { sys.sfr with iel := 0x83, tcon := 0x22, ipa0 := 0x41 } } =
    some (.event .timer0) := by decide
theorem test_select_V75 : selectMaskable { sys with sfr := { sys.sfr with iel := 0x83, tcon := 0x22, ipa0 := 0x11 } } =
    some (.event .ext0) := by decide

/-- V76: the family's Timer 0 at priority 5 against software interrupt 5. -/
theorem test_select_V76 : selectMaskable { sys with
    cfg := Config.familyDefault, sfr := { sys.sfr with iel := 0x82, tcon := 0x20, ipa0 := 0x50, swr := 0x10, swe := 0x10 } } =
    some (.event .timer0) := by decide

/-- V67: an opaque divide by zero. -/
theorem test_divide_V67 : nextWith (step (prog 0x000200 [0xE8, 0x00] (lengthened { sys with supplied := [divide] }))) (fun t =>
    decide (t.pending = Pending.empty.add .divideByZero ∧ t.pc = 0x000202 ∧ t.ssp = 0x0100 ∧ t.pswh = 0x80)) = true := by
  decide

/-- An opaque step in System Mode reaches both stacks. -/
theorem test_opaque : nextWith (step (prog 0x000200 [0x01] (lengthened { sys with supplied := [writeDs] }))) (fun t =>
    decide (t.ds = 5 ∧ dataByte t 0x0200 = 0x55 ∧ memRead16 t 0x00FE = 0x1234 ∧ t.ssp = 0x00FE ∧
      memRead16 t 0x02FE = 0x5678 ∧ t.usp = 0x02FE ∧ t.pc = 0x000201)) = true := by
  decide

/-- R108: bytes that are none of the nine are an instruction as long as their first two say, not as long as the step. -/
theorem test_opaque_length : opaqueMatches { idle with bytes := [0x96, 0xC8] } (prog 0x000200 [0x96, 0xC8] (lengthened sys)) = false ∧
    opaqueMatches { idle with bytes := [0x96, 0x48] } (prog 0x000200 [0x96, 0x48, 0x02, 0x80] sys) = false := by decide

/-- A map other than the default: MOV.B to IPA0 at its address, TM at bit 4 of PSWH. -/
theorem test_other_map : nextWith (exec (.movb 0x4B0 0xC9) (otherMap sys)) (fun t => decide (t.sfr.ipa0 = 0x41)) = true ∧
    traceMode (otherMap { sys with pswh := 0x90 }) = true ∧ traceMode (otherMap { sys with pswh := 0xC0 }) = false := by decide

/-- The environment's move before a step: IE0 set, then taken. -/
theorem test_environment : nextWith (step (vector 0x80 0x8F00 0x0400
    { sys with inputs := [[.extDetect .u0]], sfr := { sys.sfr with iel := 0x81, ipa0 := 0x01 } }))
    (fun t => !bitOf .ie0 t && decide (t.pc = 0x000400)) = true := by decide

theorem test_reset_memory_wf : Memory.wf codeFill State.reset.code = true ∧ Memory.wf dataFill State.reset.data = true ∧
    Memory.wf regFill State.reset.regs = true := by decide

/-! ### Witnesses: for every obligation with hypotheses, a state that meets them, clause by clause -/

/-- NOP at 000200h. -/
def atNop : State := prog 0x000200 [0x00] sys

/-- Every vector something takes has an even ISR address when no program image is loaded. -/
theorem vectorsEven_of_no_image {s : State} (h : s.code = []) : vectorsEven s := by
  have key : ∀ va ∈ takenVectors, va = 0#16 ∨ (4 ≤ va.toNat ∧ va.toNat < 0x200) := by
    intro va hva
    simp only [takenVectors, List.mem_append, List.mem_map] at hva
    rcases hva with (⟨e, _, rfl⟩ | ⟨n, _, rfl⟩) | ⟨m, _, rfl⟩
    · cases e <;> decide
    · revert n; decide
    · cases m with
      | event e => cases e <;> decide
      | swi k => revert k; decide
  have fill : ∀ n, 4 ≤ n → codeFill n = 0#8 := by
    intro n hn
    match n, hn with
    | n + 4, _ => rfl
  intro va hva
  rcases key va hva with rfl | ⟨h1, h2⟩
  · simp only [codeRead16, codeByte, h, Memory.read]; decide
  · have e : (page0 (va + 2#16)).toNat = va.toNat + 2 := by
      simp only [page0, BitVec.toNat_setWidth, BitVec.toNat_add, BitVec.toNat_ofNat]; omega
    have e' : (page0 (va + 2#16) + 1#24).toNat = va.toNat + 3 := by
      rw [BitVec.toNat_add, e]; simp only [BitVec.toNat_ofNat]; omega
    simp only [codeRead16, codeByte, h, Memory.read, e, e', fill _ (show 4 ≤ va.toNat + 2 by omega),
      fill _ (show 4 ≤ va.toNat + 3 by omega)]
    decide

theorem witness_DecoderReadsOnlyEncodings :
    decode [0xD6, 0x35, 0x77] = .instr (.trap 5) [0x77] ∧
    ((4 : Nat) ≤ [0x01#8, 0, 0, 0].length ∧ ∀ i rest, [0x01#8, 0, 0, 0] ≠ encode i ++ rest) := by
  refine ⟨by decide, by decide, fun i rest => ?_⟩
  cases i <;> simp [encode]

theorem witness_BitAddressesNameTheirBits : mapWf Config.g3Default = true ∧
    bitAt Config.g3Default 0x207 = some (.pswl, 7) ∧ bitAt Config.g3Default 0x200 = some (.pswl, 0) ∧
    bitAt Config.g3Default 0x357 = some (.swr, 7) ∧ bitAt Config.g3Default 0x358 = none ∧
    bitAt Config.g3Default 0x1FF = none ∧ mapWf (otherMap sys).cfg = true ∧ bitAt (otherMap sys).cfg 0x380 = some (.s1con, 0) := by decide

/-- NOP answers next, MOV.B of PSWH in User Mode with USER_PSWH_WRITE = fault a fault, RESET in User Mode a refusal. -/
theorem witness_StepRunsTheDecodedInstruction_next : takeInputs atNop = atNop ∧ atNop.pending = Pending.empty ∧
    acceptable atNop = none ∧ decode (fetchBytes atNop 4) = .instr .nop [0, 0, 0] ∧ wellFormed atNop.cfg .nop = true ∧
    nextWith (exec .nop atNop) (fun _ => true) = true := by decide
theorem witness_StepRunsTheDecodedInstruction_fault :
    ∃ s : State, takeInputs s = s ∧ s.pending = Pending.empty ∧ acceptable s = none ∧
      decode (fetchBytes s 4) = .instr (.movb 0x401 0x8F) [] ∧ wellFormed s.cfg (.movb 0x401 0x8F) = true ∧
      exec (.movb 0x401 0x8F) s = .fault .protectedPswhWrite :=
  ⟨prog 0x000200 [0x96, 0x48, 0x01, 0x8F] { usr with cfg := { usr.cfg with userPswhWrite := .fault } },
    by decide, by decide, by decide, by decide, by decide, rfl⟩
theorem witness_StepRunsTheDecodedInstruction_refused :
    let s := prog 0x000200 [0xD6, 0x10] usr
    takeInputs s = s ∧ s.pending = Pending.empty ∧ acceptable s = none ∧
      decode (fetchBytes s 4) = .instr .reset [0, 0] ∧ wellFormed s.cfg .reset = true ∧
      refusedWith (exec .reset s) .resetInUserMode = true := by decide

/-- Opaque steps: at bytes that are no instruction, and at a MOV.B whose direct address names no register. -/
theorem witness_StepRunsTheDecodedInstruction_opaque :
    let s := prog 0x000200 [0x01] (lengthened { sys with supplied := [writeDs] })
    takeInputs s = s ∧ s.pending = Pending.empty ∧ acceptable s = none ∧ decode (fetchBytes s 4) = .rejected .notNamed ∧
      s.supplied = [writeDs] ∧ opaqueMatches writeDs s = true ∧
      nextWith (execOpaque writeDs { s with supplied := [] }) (fun _ => true) = true := by decide
theorem witness_StepRunsTheDecodedInstruction_opaqueForm :
    let s := prog 0x000200 [0x96, 0x48, 0x02, 0x80] { sys with supplied := [unnamedMovb] }
    takeInputs s = s ∧ s.pending = Pending.empty ∧ acceptable s = none ∧
      decode (fetchBytes s 4) = .instr (.movb 0x402 0x80) [] ∧ wellFormed s.cfg (.movb 0x402 0x80) = false ∧
      opaqueMatches unnamedMovb s = true := by decide
theorem witness_StepRunsTheDecodedInstruction_opaqueFault :
    ∃ s : State, takeInputs s = s ∧ s.pending = Pending.empty ∧ acceptable s = none ∧
      decode (fetchBytes s 4) = .rejected .notNamed ∧ s.supplied = [writePswh] ∧ opaqueMatches writePswh s = true ∧
      execOpaque writePswh { s with supplied := [] } = .fault .protectedPswhWrite :=
  ⟨prog 0x000200 [0x01]
      (lengthened { usr with supplied := [writePswh], cfg := { usr.cfg with userPswhWrite := .fault } }),
    by decide, by decide, by decide, by decide, rfl, by decide, rfl⟩

theorem witness_TraceRaisedOnlyInTraceMode : sys.cfg.tracePoint = .beginsTraced ∧
    traceMode { sys with pswh := 0xC0 } = true ∧ traceMode sys = false := by decide

/-- ACCEPT_DELAY = one instruction with RETI, with NOP; and none. -/
theorem witness_AcceptDelayShadow :
    ({ sys with cfg := { sys.cfg with acceptDelay := .oneInstruction } } : State).cfg.acceptDelay = .oneInstruction ∧
    instrDelays sys.cfg .reti = true ∧ instrDelays sys.cfg .nop = false ∧ instrDelays sys.cfg (.movb 0x4A5 0) = true ∧
    instrDelays sys.cfg (.setb 0x350) = true ∧ instrDelays sys.cfg (.setb 0x285) = false ∧ opaqueDelays writePswh = true ∧ opaqueDelays idle = false ∧
    sys.cfg.acceptDelay = .none := by decide

theorem witness_UnnamedFormsRefused :
    let s := prog 0x000200 [0x02] (lengthened { sys with supplied := [writeDs] })
    takeInputs s = s ∧ s.pending = Pending.empty ∧ acceptable s = none ∧
      decode (fetchBytes s 4) = .rejected .notNamed ∧ opaqueMatches writeDs s = false ∧
      sfrAt s.cfg 0x3FF = none ∧ sfrAt s.cfg 0x4A6 = none ∧ bitAt s.cfg 0x1FF = none ∧ bitAt s.cfg 0x358 = none := by decide
theorem witness_UnnamedFormsRefused_form :
    let s := prog 0x000200 [0x96, 0x48, 0x02, 0x80] sys
    takeInputs s = s ∧ s.pending = Pending.empty ∧ acceptable s = none ∧ s.supplied = [] ∧
      decode (fetchBytes s 4) = .instr (.movb 0x402 0x80) [] ∧ wellFormed s.cfg (.movb 0x402 0x80) = false := by decide

theorem witness_CodeMemoryConstant : ∃ t, step atNop = .next t := ⟨_, rfl⟩

theorem witness_PushOnTheNamedStack : StackName.current.isSystem sys = true ∧ StackName.current.isSystem usr = false ∧
    StackName.user.isSystem sys = false ∧
    inFrame sys.ssp 2 0x0100 = false ∧ inFrame sys.ssp 2 0x00FD = false ∧ inFrame sys.ssp 2 0x00FE = true := by decide

theorem witness_FramesOfTheTwoModes :
    (page0Mode sys = false ∧ inFrame 0x0002 6 0xFFFB = false ∧ inFrame 0x0002 6 0xFFFC = true) ∧
    (page0Mode (page0Of sys) = true ∧ inFrame 0x0002 4 0xFFFD = false ∧ inFrame 0x0002 4 0xFFFE = true) := by decide

theorem witness_InterruptSequence :
    (isOdd sys.ssp = false ∧ isOdd (codeRead16 sys (0x54 + 2)) = false) ∧
    isOdd ({ sys with ssp := 0x00FF } : State).ssp = true ∧
    isOdd (codeRead16 (vector 0x54 0x8F00 0x0301 sys) (0x54 + 2)) = true := by decide

/-- The boundary values of the pointer: 0080h and 0084h cross in 24-bit mode, 0086h and 007Eh do not. -/
theorem witness_StackOverflowOncePerCrossing : sys.cfg.stackOvf = .crossing ∧
    nextWith (service 0x54 0x000200 { sys with ssp := 0x0080 }) (fun t => t.pending.stackOverflow) = true ∧
    nextWith (service 0x54 0x000200 { sys with ssp := 0x0084 }) (fun t => t.pending.stackOverflow) = true ∧
    nextWith (service 0x54 0x000200 { sys with ssp := 0x0086 }) (fun t => !t.pending.stackOverflow) = true ∧
    nextWith (service 0x54 0x000200 { sys with ssp := 0x007E }) (fun t => !t.pending.stackOverflow) = true := by decide

/-- The state the sequence of trap 5 leaves, with a handler in System Mode. -/
theorem witness_RetiUndoesTheSequence :
    ∃ s t : State, service 0x54 0x012342 s = .next t ∧ systemMode t = true ∧ page0Mode t = page0Mode s ∧ t.ssp = t.ssp ∧
      ∀ a, inFrame s.ssp (frameSize s) a = true → dataByte t a = dataByte t a :=
  ⟨vector 0x54 0x8F00 0x0300 sys, _, rfl, by decide, by decide, rfl, fun _ _ => rfl⟩

/-- V60: PZ is changed between the sequence and RETI, both ways. -/
theorem witness_MixedFrameSizes :
    (∃ s t : State, page0Mode s = false ∧ service 0x54 0x012342 s = .next t ∧ systemMode (page0Of t) = true ∧
      page0Mode (page0Of t) = true ∧ (page0Of t).ssp = t.ssp ∧ ∀ a, dataByte (page0Of t) a = dataByte t a) ∧
    (∃ s t u : State, page0Mode s = true ∧ service 0x54 0x002342 s = .next t ∧ systemMode u = true ∧
      page0Mode u = false ∧ u.ssp = t.ssp ∧ ∀ a, dataByte u a = dataByte t a) :=
  ⟨⟨vector 0x54 0x8F00 0x0300 sys, _, by decide, rfl, by decide, by decide, rfl, fun _ => rfl⟩,
    ⟨vector 0x54 0x8F00 0x0300 (page0Of sys), _, { loadVector 0x54 (pushFrame 0x002342 (vector 0x54 0x8F00 0x0300 (page0Of sys)))
      with sfr := sys.sfr }, by decide, rfl, by decide, by decide, rfl, fun _ => rfl⟩⟩

/-- With an even pointer and vector, with an odd pointer, with an odd ISR address. -/
theorem witness_TrapTakesItsVector :
    (isOdd sys.ssp = false ∧ isOdd (codeRead16 sys (trapVector 0 + 2)) = false) ∧
    isOdd (codeRead16 usr (trapVector 15 + 2)) = false ∧ isOdd ({ sys with ssp := 0xFFFF } : State).ssp = true ∧
    (isOdd sys.ssp = false ∧ isOdd (codeRead16 (vector 0x7C 0x8F00 0xFFFF sys) (trapVector 15 + 2)) = true) := by decide

theorem witness_RetiPopsTheFrame : systemMode sys = true ∧ isOdd sys.ssp = false ∧ page0Mode sys = false ∧
    systemMode (page0Of sys) = true ∧ isOdd (page0Of sys).ssp = false ∧ page0Mode (page0Of sys) = true ∧
    systemMode { sys with ssp := 0xFFFF } = true ∧ isOdd ({ sys with ssp := 0xFFFF } : State).ssp = true := by decide

theorem witness_RetiInUserModeRaisesUserReti : systemMode usr = false := by decide

theorem witness_BkptEntersItsHandler :
    let s := prog 0x000200 [0xFF] sys
    s.inputs = [] ∧ s.pending = Pending.empty ∧ acceptable s = none ∧ traceMode s = false ∧
      decode (fetchBytes s 4) = .instr .bkpt [0, 0, 0] ∧ isOdd s.ssp = false ∧ isOdd (codeRead16 s 0x0006) = false := by decide

theorem witness_UserRetiEntersItsHandler :
    let s := prog 0x000200 [0xD6, 0x90] usr
    s.inputs = [] ∧ s.pending = Pending.empty ∧ acceptable s = none ∧ traceMode s = false ∧ systemMode s = false ∧
      decode (fetchBytes s 4) = .instr .reti [0, 0] ∧ isOdd s.ssp = false ∧ isOdd (codeRead16 s 0x0016) = false := by decide

theorem witness_ResetInstructionRaisesReset : systemMode sys = true ∧ systemMode usr = false := by decide

theorem witness_MovbWritesTheRegister : sfrAt sys.cfg 0x401 = some .pswh ∧ Sfr.pswh ≠ .pswl ∧ systemMode sys = true ∧
    sfrAt sys.cfg 0x4A5 = some .ipa5 ∧ Sfr.ipa5 ≠ .pswl ∧ Sfr.ipa5 ≠ .pswh := by decide

theorem witness_OrbSetsBitsOfTheRegister : sfrAt sys.cfg 0x47A = some .swe ∧ Sfr.swe ≠ .pswl ∧ Sfr.swe ≠ .pswh := by decide

theorem witness_MovbAndOrbOnPswlComplete : sfrAt sys.cfg 0x400 = some .pswl := by decide

theorem witness_SetbSetsOneBit : bitAt sys.cfg 0x208 = some (.pswh, 0) ∧ systemMode sys = true ∧
    bitAt sys.cfg 0x356 = some (.swr, 6) ∧ (sfrMask .swr sys).getLsbD 6 = true := by decide

theorem witness_ClrClearsOneBit : bitAt sys.cfg 0x20F = some (.pswh, 7) ∧ systemMode sys = true ∧
    bitAt sys.cfg 0x350 = some (.swr, 0) ∧ (sfrMask .swr sys).getLsbD 0 = true := by decide

/-- An attempt and no attempt, with each value of USER_PSWH_WRITE, in the default map and in another. -/
theorem witness_UserModeWriteOfPswh :
    writtenByte (.movb 0x401 0x3F) usr = some (.pswh, 0x3F) ∧ writtenByte (.movb 0x401 0x8F) usr = some (.pswh, 0x8F) ∧
    systemMode usr = false ∧ mapWf usr.cfg = true ∧ usr.cfg.userPswhWrite = .ignore ∧ rsMask usr.cfg = 0x30#8 ∧
    (0x3F#8 &&& ~~~ rsMask usr.cfg) = (usr.pswh &&& ~~~ rsMask usr.cfg) ∧
    (0x8F#8 &&& ~~~ rsMask usr.cfg) ≠ (usr.pswh &&& ~~~ rsMask usr.cfg) ∧
    rsMask (otherMap usr).cfg = 0x60#8 ∧
    ({ usr with cfg := { usr.cfg with userPswhWrite := .exception .trace } } : State).cfg.userPswhWrite = .exception .trace ∧
    ({ usr with cfg := { usr.cfg with userPswhWrite := .fault } } : State).cfg.userPswhWrite = .fault := by decide

/-- IPA0 and IPA5; IPA3 where it is present and where it is not. -/
theorem witness_IpaRegistersOfTheG3 : sys.cfg.derivative = .g3 ∧ sfrAt sys.cfg 0x4A0 = some .ipa0 ∧ ipaOf .ext0 = .ipa0 ∧
    sfrAt sys.cfg 0x4A5 = some .ipa5 ∧ ipaOf .serial1Tx = .ipa5 ∧
    eventSlot .ext0 % 2 = 0 ∧ (0xF9#8).extractLsb' 0 4 = 0x9#4 ∧ eventSlot .serial1Tx % 2 = 1 ∧
    (0x1F#8).extractLsb' 4 4 = 0x1#4 ∧ nextWith (doReset sys) (fun _ => true) = true ∧
    sfrAt sys.cfg 0x4A3 = some .ipa3 ∧ sys.cfg.ipa3Present = false ∧
    ({ sys.cfg with ipa3Present := true } : Config).ipa3Present = true := by decide

theorem witness_UserModeKeepsTheProtectedBits : systemMode usr = false ∧ mapWf usr.cfg = true ∧
    nextWith (exec (.movb 0x401 0xFF) usr) (fun _ => true) = true ∧ (∀ n, Instr.movb 0x401 0xFF ≠ .trap n) ∧
    nextWith (execOpaque { idle with sfrs := [(.pswh, 0xFF)] } usr) (fun _ => true) = true := by
  refine ⟨by decide, by decide, by decide, fun n => ?_, by decide⟩
  simp

/-- External interrupt 0 alone is requested and enabled, at priority 9 on the XA-G3 with IM = 0. -/
def ext0Alone : State := { sys with sfr := { sys.sfr with iel := 0x81, tcon := 0x02, ipa0 := 0x01 } }

theorem witness_EventInterruptEnabling : mapWf ext0Alone.cfg = true ∧ bitOf .ea sys = false ∧
    bitOf (eventEnable .ext0) sys = false ∧ eventPrio .ext0 sys ≤ intMask sys ∧ EventSource.timer0 ≠ .ext0 ∧
    ext0Alone.hold = false ∧ eventRequest .ext0 ext0Alone = true ∧ bitOf .ea ext0Alone = true ∧
    bitOf (eventEnable .ext0) ext0Alone = true ∧ intMask ext0Alone < eventPrio .ext0 ext0Alone ∧
    ∀ m ∈ allMaskable, m ≠ .event .ext0 → eligible m ext0Alone = false := by decide

/-- Timer 0 at priority 12 against External interrupt 0 at 9; and the family's IPA0. -/
theorem witness_EventPriority :
    let s : State := { sys with sfr := { sys.sfr with iel := 0x83, tcon := 0x22, ipa0 := 0x41 } }
    eligibleEvent .timer0 s = true ∧ eventPrio .ext0 s < eventPrio .timer0 s ∧
      (∀ m ∈ allMaskable, m ≠ .event .timer0 → eligible m s = true → maskPrio m s < eventPrio .timer0 s) ∧
      eventPrio .ext0 sys = 0 ∧ Config.familyDefault.derivative = .family ∧
      sfrAt Config.familyDefault 0x4A0 = some (ipaOf .ext0) := by decide

/-- External interrupt 0 and Timer 0 at one level. -/
theorem witness_SimultaneousEvents :
    let s : State := { sys with sfr := { sys.sfr with iel := 0x83, tcon := 0x22, ipa0 := 0x11 } }
    mapWf s.cfg = true ∧ s.pending = Pending.empty ∧ s.hold = false ∧ eligibleEvent .ext0 s = true ∧
      (∀ e ∈ byRanking, e ≠ .ext0 → eligibleEvent e s = true →
        eventPrio e s < eventPrio .ext0 s ∨ (eventPrio e s = eventPrio .ext0 s ∧ eventRank .ext0 < eventRank e)) ∧
      (∀ k, eligibleSwi k s = true → swiPrio k < eventPrio .ext0 s) ∧
      isOdd s.ssp = false ∧ isOdd (codeRead16 s (eventVector .ext0 + 2)) = false := by decide

/-- IM = 15; IM = 7 with every software interrupt requested; an event at priority 0; a selected interrupt. -/
theorem witness_InterruptMaskMasks : intMask State.reset = 15 ∧ intMask { sys with pswh := 0x87 } = 7 ∧
    eventPrio .ext0 sys = 0 ∧
    selectMaskable { sys with sfr := { sys.sfr with swr := 0x01, swe := 0x01 } } = some (.swi 0) := by decide

theorem witness_G3EventsOutrankSoftwareInterrupts :
    let s : State := { sys with sfr := { sys.sfr with iel := 0x81, tcon := 0x02, ipa0 := 0x01, swr := 0x7F, swe := 0x7F } }
    s.cfg.derivative = .g3 ∧ eligibleEvent .ext0 s = true ∧ selectMaskable s = some (.event .ext0) := by decide

/-- Acceptance of External interrupt 0, whose request is cleared. -/
theorem witness_AcceptanceClearsItsRequestAlone_event :
    let s : State := { sys with sfr := { sys.sfr with iel := 0x81, tcon := 0x0A, ipa0 := 0x01 } }
    s.pending = Pending.empty ∧ acceptable s = some (.event .ext0) ∧ isOdd s.ssp = false ∧
      isOdd (codeRead16 s (maskVector (.event .ext0) + 2)) = false ∧ clearedRequest (.event .ext0) = some .ie0 ∧
      page0Mode s = false ∧ mapWf s.cfg = true := by decide

/-- Acceptance of software interrupt 7, whose request is not. -/
theorem witness_AcceptanceClearsItsRequestAlone_software :
    let s : State := { sys with sfr := { sys.sfr with swr := 0x7F, swe := 0x7F } }
    s.pending = Pending.empty ∧ acceptable s = some (.swi 6) ∧ isOdd s.ssp = false ∧
      isOdd (codeRead16 s (maskVector (.swi 6) + 2)) = false ∧ clearedRequest (.swi 6) = none := by decide

/-- Software interrupt 1 with a vector of IM = 0. -/
theorem witness_HandlerBelowItsPriorityInterruptsItself :
    let s := vector 0x100 0x8000 0x0300 { sys with sfr := { sys.sfr with swr := 0x01, swe := 0x01 } }
    s.pending = Pending.empty ∧ acceptable s = some (.swi 0) ∧ clearedRequest (.swi 0) = none ∧
      nextWith (cpuStep s)
        (fun t => decide (intMask t < maskPrio (.swi 0) s) && decide (t.pending = Pending.empty)) = true := by decide

theorem witness_SetbOfSwrRequestsItsInterrupt : bitAt sys.cfg 0x350 = some (.swr, (0 : Fin 7).val) ∧
    bitAt sys.cfg 0x356 = some (.swr, (6 : Fin 7).val) := by decide

/-- Breakpoint and NMI in the family: NMI is the highest; on the XA-G3 Breakpoint with User RETI. -/
theorem witness_HighestPrecedenceHandlerRunsFirst_family :
    let s : State := { sys with cfg := Config.familyDefault, pending := (Pending.empty.add .breakpoint).add .nmi }
    s.pending.reset = false ∧ s.pending.has .nmi = true ∧ nmiPresent s.cfg = true ∧ isOdd s.ssp = false ∧
      (∀ e ∈ allExceptions, s.pending.has e = true → excPrecedence e ≤ excPrecedence .nmi) ∧ vectorsEven s :=
  ⟨by decide, by decide, by decide, by decide, by decide, vectorsEven_of_no_image rfl⟩
theorem witness_HighestPrecedenceHandlerRunsFirst_g3 :
    let s : State := { sys with pending := (Pending.empty.add .breakpoint).add .userReti }
    s.pending.reset = false ∧ s.pending.has .userReti = true ∧ nmiPresent s.cfg = false ∧ s.pending.nmi = false ∧
      (∀ e ∈ allExceptions, s.pending.has e = true → excPrecedence e ≤ excPrecedence .userReti) ∧
      isOdd s.ssp = false ∧ vectorsEven s :=
  ⟨by decide, by decide, by decide, by decide, by decide, by decide, vectorsEven_of_no_image rfl⟩

theorem witness_BreakpointWithTrace :
    let s : State := { sys with pending := (Pending.empty.add .breakpoint).add .trace }
    page0Mode s = false ∧ isOdd s.ssp = false ∧ isOdd (codeRead16 s 0x0006) = false ∧ isOdd (codeRead16 s 0x000A) = false := by
  decide

theorem witness_ExceptionsAreNotMaskable :
    let s : State := { sys with pending := Pending.empty.add .trace }
    let x : Sfrs := { sys.sfr with iel := 0x9F, swr := 0x7F, swe := 0x7F }
    s.pending ≠ Pending.empty ∧ s.pending.reset = false ∧ x.scr = s.sfr.scr := by decide

theorem witness_ResetSequence :
    let s : State := { sys with pending := Pending.empty.add .reset }
    s.pending.reset = true ∧ isOdd (codeRead16 s 0x0002) = false ∧
      isOdd (codeRead16 (vector 0x0000 0x8F00 0x0121 s) 0x0002) = true ∧
      systemMode sys = true ∧ nextWith (exec .reset sys) (fun _ => true) = true := by decide

/-- With TM = 1. -/
theorem witness_ResetInstructionResets :
    let s := prog 0x000200 [0xD6, 0x10] { sys with pswh := 0xC0 }
    s.inputs = [] ∧ s.pending = Pending.empty ∧ acceptable s = none ∧ systemMode s = true ∧
      decode (fetchBytes s 4) = .instr .reset [0, 0] ∧ isOdd (codeRead16 s 0x0002) = false := by decide

/-- A step of two bytes and one of one byte; a string that begins as MOV.B does is 4 bytes long. -/
theorem witness_OpaqueLengthsFollowTheFirstTwoBytes :
    opaqueMatches divide (prog 0x000200 [0xE8, 0x00] (lengthened sys)) = true ∧
    opaqueMatches writeDs (prog 0x000200 [0x01] (lengthened sys)) = true ∧
    opaqueMatches { idle with bytes := [0x96, 0x48, 0x02, 0x80] } (prog 0x000200 [0x96, 0x48, 0x02, 0x80] (lengthened sys)) = true ∧
    decode [0x96, 0x48, 0, 0] = .instr (.movb 0x400 0) [] := by decide

/-- No divisor, one that is not zero; no attempt on PSWH, an attempt with no fault configured and one with. Two pushes on
one stack are on different words. -/
theorem witness_OpaqueStepEffect : writeDs.divisor ≠ some 0 ∧ ({ idle with divisor := some 3 } : OpaqueStep).divisor ≠ some 0 ∧
    writePswh.divisor = none ∧ pswhAttempted sys.cfg (pswhWrites writeDs.sfrs) sys.pswh = false ∧
    pswhAttempted sys.cfg (pswhWrites writePswh.sfrs) sys.pswh = false ∧
    pswhAttempted usr.cfg (pswhWrites writePswh.sfrs) usr.pswh = true ∧ usr.cfg.userPswhWrite = .ignore ∧
    pswhAfter usr.cfg (pswhWrites writePswh.sfrs) usr.pswh = 0x3F ∧
    (pushesAt sys [(.system, 0x1122), (.system, 0x3344)] 0x0100 0x0300).flatMap PushAt.bytes =
      [(0x00FE, 0x22), (0x00FF, 0x11), (0x00FC, 0x44), (0x00FD, 0x33)] ∧
    inFrame 0x0100 2 0x0200 = false ∧ inFrame 0x0300 2 0x0200 = false := by decide
theorem witness_OpaqueStepEffect_fault :
    let s : State := { usr with cfg := { usr.cfg with userPswhWrite := .fault } }
    pswhAttempted s.cfg (pswhWrites writePswh.sfrs) s.pswh = true ∧ s.cfg.userPswhWrite = .fault := by decide

theorem witness_DivideByZeroEntersItsHandler :
    let s := prog 0x000200 [0xE8, 0x00] (lengthened { sys with supplied := [divide] })
    s.inputs = [] ∧ s.pending = Pending.empty ∧ acceptable s = none ∧ traceMode s = false ∧
      decode (fetchBytes s 4) = .rejected .notNamed ∧ s.supplied = [divide] ∧ opaqueMatches divide s = true ∧
      divide.divisor = some 0 ∧ divide.sps = [] ∧ divide.sfrs = [] ∧ s.cfg.userPswhWrite ≠ .fault ∧
      systemMode s = true ∧ (pswhWrites [(.pswh, 0x00)]).length = 1 ∧
      isOdd s.ssp = false ∧ isOdd (codeRead16 s 0x0012) = false ∧ page0Mode s = false := by decide

theorem witness_EnvironmentFrame : mapWf sys.cfg = true ∧ moveSets (.extDetect .u0) ≠ some .ie1 ∧
    moveSets .nmiAssert = none ∧ moveRaises .nmiAssert ≠ some .reset ∧ sys.pending.reset = false ∧ (envMove .rstRelease sys).pending.reset = true ∧
    bitOf .sm sys = true ∧ ({ sys with pending := Pending.empty.add .nmi } : State).pending.has .nmi = true := by decide

/-- The invariant holds of a state with a listed byte of each memory, in Page 0 Mode, whose step completes. -/
theorem witness_EveryStepKeepsTheInvariant :
    ∃ s : State, Inv s ∧ dataByte s 0x00FE = 0x42 ∧ nextWith (step s) (fun _ => true) = true :=
  ⟨page0Of (dataPut 0x00FE 0x42 atNop),
    ⟨by decide, by decide, by decide, by decide, by decide, by decide, by decide, fun r => by cases r <;> decide, by decide⟩,
    by decide, by decide⟩

theorem witness_EveryStepKeepsTheStacksEven :
    ∃ s : State, StacksEven s ∧ nextWith (step s) (fun t => decide (t.ssp = 0x00FA)) = true :=
  ⟨prog 0x000200 [0xD6, 0x35] sys, ⟨by decide, by decide, by decide, rfl⟩, by decide⟩

theorem witness_ReadyStatesStep : Ready atNop :=
  ⟨by decide, by decide, vectorsEven_of_no_image (by decide), ⟨.nop, [0, 0, 0], by decide, by decide, by decide⟩⟩

end Sys2Proof.Tests
end

/-! The ACCEPT_DELAY shadow (92_eei_decisions.md D23; log 19): what sets it, and what a boundary in it accepts. -/

namespace Sys2Proof.Machine

/-- The shadow after an instruction is ACCEPT_DELAY's alone: Trace does not touch it. -/
@[simp] theorem finishState_hold (bytes : List Byte) (delays : Bool) (s t : State) :
    (finishState bytes delays s t).hold = holdAfter s.cfg delays := by
  rw [finishState_eq]

theorem holdAfter_eq_true {c : Config} {delays : Bool} :
    holdAfter c delays = true ↔ c.acceptDelay = .oneInstruction ∧ delays = true := by
  cases h : c.acceptDelay <;> simp [holdAfter, h]

theorem acceptable_of_hold {s : State} (h : s.hold = true) : acceptable s = none := by simp [acceptable, h]

theorem acceptable_of_not_hold {s : State} (h : s.hold = false) : acceptable s = selectMaskable s := by
  simp [acceptable, h]

theorem mem_delayedRegisters {r : Sfr} : r ∈ delayedRegisters ↔ delaysAccept r = true := by
  cases r <;> decide

/-- The instructions that set the shadow: RETI, and a register instruction whose operand names a delayed register. -/
theorem instrDelays_iff (c : Config) (i : Instr) :
    instrDelays c i = true ↔
      i = .reti ∨
      (∃ a d r, (i = .movb a d ∨ i = .orb a d) ∧ sfrAt c a = some r ∧ r ∈ delayedRegisters) ∨
      (∃ b r n, (i = .setb b ∨ i = .clr b) ∧ bitAt c b = some (r, n) ∧ r ∈ delayedRegisters) := by
  simp only [mem_delayedRegisters]
  cases i with
  | nop => simp [instrDelays]
  | bkpt => simp [instrDelays]
  | trap n => simp [instrDelays]
  | reset => simp [instrDelays]
  | reti => simp [instrDelays]
  | clr b => simp [instrDelays, Option.any_eq_true]
  | setb b => simp [instrDelays, Option.any_eq_true]
  | movb a d => simp [instrDelays, Option.any_eq_true]
  | orb a d => simp [instrDelays, Option.any_eq_true]

theorem opaqueDelays_iff (o : OpaqueStep) : opaqueDelays o = true ↔ ∃ p ∈ o.sfrs, p.1 ∈ delayedRegisters := by
  simp only [opaqueDelays, List.any_eq_true, mem_delayedRegisters]

/-- Settles O7: the shadow is the field `hold` that the boundary tests, and each instruction form sets it or not. -/
theorem acceptDelayShadow : Obligations.AcceptDelayShadow := by
  refine ⟨fun s t bytes delays => ⟨fun hc hd => ?_, fun h => ?_⟩, instrDelays_iff, opaqueDelays_iff, fun r => ?_⟩
  · exact acceptable_of_hold (by rw [finishState_hold]; exact holdAfter_eq_true.2 ⟨hc, hd⟩)
  · refine acceptable_of_not_hold ?_
    rw [finishState_hold, Bool.eq_false_iff, ne_eq, holdAfter_eq_true]
    rintro ⟨hc, hd⟩
    rcases h with h | h <;> simp_all
  · simp [delayedRegisters]

end Sys2Proof.Machine

/-! The environment's moves (00_scope.md R12): what one does, and all that it leaves alone. -/

namespace Sys2Proof.Machine

variable (s : State)

/-! ### One move, in terms of the bit it names and the exception it names -/

/-- A move does nothing, sets the bit it names, or raises the exception it names. -/
theorem envMove_effect (m : EnvMove) :
    envMove m s = s ∨ (∃ b, moveSets m = some b ∧ envMove m s = raiseBit b s) ∨
      ∃ e, moveRaises m = some e ∧ envMove m s = raise e s := by
  by_cases hp : envPossible m s = true
  · have he : envMove m s = envEffect m s := by simp [envMove, hp]
    rw [he]
    cases m with
    | rstRelease => simp [envEffect, moveRaises]
    | watchdogReset => simp [envEffect, moveRaises]
    | extDetect n => cases n <;> simp [envEffect, moveSets]
    | timerOverflow n => cases n <;> simp [envEffect, moveSets]
    | timer2Overflow => simp only [envEffect]; split <;> simp [moveSets]
    | t2exFall => simp [envEffect, moveSets]
    | serialRx p => cases p <;> simp [envEffect, moveSets]
    | serialTx p => cases p <;> simp [envEffect, moveSets]
    | serialStatus p => cases p <;> simp [envEffect, moveSets]
    | nmiAssert => simp [envEffect, moveRaises]
    | hwBreakpoint => simp [envEffect, moveRaises]
  · left; simp [envMove, hp]

/-- A request bit that is set under a condition is 1 afterwards if it was, or if the condition held. -/
theorem bitOf_raiseBit_if (b : BitName) (c : Bool) : bitOf b (if c then raiseBit b s else s) = (bitOf b s || c) := by
  cases c <;> simp

/-- The bits the environment sets are in TCON, T2CON, S0CON and S1CON, in every map. -/
theorem bitReg_of_moveSets {m : EnvMove} {b : BitName} (h : moveSets m = some b) (c : Config) :
    bitReg c b ∈ [Sfr.tcon, .t2con, .s0con, .s1con] := by
  cases m with
  | extDetect n => cases n <;> cases h <;> simp [bitReg, twoHomes, familyPlace]
  | timerOverflow n => cases n <;> cases h <;> simp [bitReg, twoHomes, familyPlace]
  | timer2Overflow => cases h; simp [bitReg, twoHomes, familyPlace]
  | t2exFall => cases h; simp [bitReg, twoHomes, familyPlace]
  | serialRx p => cases p <;> cases h <;> simp [bitReg, twoHomes, familyPlace]
  | serialTx p => cases p <;> cases h <;> simp [bitReg, twoHomes, familyPlace]
  | serialStatus p => cases p <;> cases h <;> simp [bitReg, twoHomes, familyPlace]
  | rstRelease => cases h
  | watchdogReset => cases h
  | nmiAssert => cases h
  | hwBreakpoint => cases h

/-! ### Registers and bits -/

@[simp] theorem sfrGet_raise (r : Sfr) (e : Exc) : sfrGet r (raise e s) = sfrGet r s := sfrGet_congr rfl rfl rfl r

@[simp] theorem bitOf_raise (b : BitName) (e : Exc) : bitOf b (raise e s) = bitOf b s := bitOf_congr rfl rfl rfl b

/-- Setting a named bit changes its own register alone. -/
theorem sfrGet_raiseBit_ne {r : Sfr} {b : BitName} (h : r ≠ bitReg s.cfg b) : sfrGet r (raiseBit b s) = sfrGet r s :=
  sfrGet_sfrPut_ne s _ h

/-- A move clears no bit. -/
theorem bitOf_envMove_of_set (m : EnvMove) {b : BitName} (h : bitOf b s = true) : bitOf b (envMove m s) = true := by
  rcases envMove_effect s m with e | ⟨c, _, e⟩ | ⟨x, _, e⟩ <;> rw [e]
  · exact h
  · rw [bitOf_raiseBit, h, Bool.or_true]
  · rw [bitOf_raise, h]

/-- In a map a chip can have, a move changes no bit but the one it names. -/
theorem bitOf_envMove_ne {m : EnvMove} {b : BitName} (hw : mapWf s.cfg = true) (h : moveSets m ≠ some b) :
    bitOf b (envMove m s) = bitOf b s := by
  rcases envMove_effect s m with e | ⟨c, hm, e⟩ | ⟨x, _, e⟩ <;> rw [e]
  · have : bitPlace s.cfg b ≠ bitPlace s.cfg c := fun e => h (by rw [hm, bitPlace_injective hw e])
    simp [bitOf_raiseBit, this]
  · rw [bitOf_raise]

/-- A move changes no register but TCON, T2CON, S0CON and S1CON. -/
theorem sfrGet_envMove_ne (m : EnvMove) {r : Sfr} (h : r ∉ [Sfr.tcon, .t2con, .s0con, .s1con]) :
    sfrGet r (envMove m s) = sfrGet r s := by
  rcases envMove_effect s m with e | ⟨b, hm, e⟩ | ⟨x, _, e⟩ <;> rw [e]
  · exact sfrGet_raiseBit_ne s fun hr => h (hr ▸ bitReg_of_moveSets hm s.cfg)
  · rw [sfrGet_raise]

/-- A move that names no bit changes no register. -/
theorem sfrGet_envMove_of_moveSets_none {m : EnvMove} (h : moveSets m = none) (r : Sfr) :
    sfrGet r (envMove m s) = sfrGet r s := by
  rcases envMove_effect s m with e | ⟨b, hm, _⟩ | ⟨x, _, e⟩
  · rw [e]
  · rw [h] at hm; cases hm
  · rw [e, sfrGet_raise]

/-! ### The pending set -/

/-- A move withdraws no exception. -/
theorem pending_envMove_of_has (m : EnvMove) {x : Exc} (h : s.pending.has x = true) :
    (envMove m s).pending.has x = true := by
  rcases envMove_effect s m with e | ⟨b, _, e⟩ | ⟨y, _, e⟩ <;> rw [e]
  · exact h
  · rw [raiseBit_pending, h]
  · rw [raise_pending, Pending.has_add, h, Bool.or_true]

/-- A move raises no exception but the one it names. -/
theorem pending_envMove_ne {m : EnvMove} {x : Exc} (h : moveRaises m ≠ some x) :
    (envMove m s).pending.has x = s.pending.has x := by
  rcases envMove_effect s m with e | ⟨b, _, e⟩ | ⟨y, hm, e⟩ <;> rw [e]
  · rw [raiseBit_pending]
  · have : x ≠ y := fun hx => h (by rw [hm, hx])
    simp [Pending.has_add, this]

/-! ### Everything else -/

/-- A store to a register outside the PSW changes the register file alone. -/
theorem sfrPut_frame {r : Sfr} (hh : r ≠ .pswh) (hl : r ≠ .pswl) (v : Byte) :
    sfrPut r v s = { s with sfr := (sfrPut r v s).sfr } := by
  cases r <;> first | rfl | contradiction

/-- A move leaves all but the registers outside the PSW and the pending set. -/
theorem envMove_frame (m : EnvMove) :
    envMove m s = { s with sfr := (envMove m s).sfr, pending := (envMove m s).pending } := by
  rcases envMove_effect s m with e | ⟨b, hm, e⟩ | ⟨x, _, e⟩ <;> rw [e]
  · have hr := bitReg_of_moveSets hm s.cfg
    have hh : bitReg s.cfg b ≠ .pswh := by intro e; simp [e] at hr
    have hl : bitReg s.cfg b ≠ .pswl := by intro e; simp [e] at hr
    rw [raiseBit, sfrPut_frame s hh hl]
  · rfl

/-- Timer 2's overflow sets TF2 while TR2 runs it and it clocks no serial port. -/
theorem envMove_timer2Overflow :
    envMove .timer2Overflow s = if bitOf .tr2 s && !timer2Clocks s then raiseBit .tf2 s else s := by
  cases ht : bitOf .tr2 s <;> cases hc : timer2Clocks s <;> simp [envMove, envPossible, envEffect, ht, hc]

/-- NMI is asserted in the family only. -/
theorem envMove_nmiAssert : envMove .nmiAssert s = if s.cfg.derivative = .family then raise .nmi s else s := by
  cases hd : s.cfg.derivative <;> simp [envMove, envPossible, envEffect, nmiPresent, hd]

end Sys2Proof.Machine

namespace Sys2Proof.Machine

/-- Settles O55: a move whose condition is always met sets its bit, any other sets it under its condition. -/
theorem environmentMoves : Obligations.EnvironmentMoves := by
  intro s
  have always : ∀ b, bitOf b (raiseBit b s) = true := bitOf_raiseBit_same s
  have cond : ∀ b c, bitOf b (if c = true then raiseBit b s else s) = (bitOf b s || c) := bitOf_raiseBit_if s
  exact ⟨⟨rfl, rfl, rfl⟩, envMove_nmiAssert s, ⟨always .ie0, always .ie1⟩, ⟨cond .tf0 _, cond .tf1 _⟩,
    by rw [envMove_timer2Overflow]; exact cond .tf2 _, cond .exf2 _, ⟨cond .ri0 _, cond .ri1 _⟩,
    ⟨always .ti0, always .ti1⟩, cond .ri0 _, cond .ri1 _⟩

/-- Settles O56: what a move does to bits, registers and the pending set, and by `envMove_frame` to nothing else. -/
theorem environmentFrame : Obligations.EnvironmentFrame := by
  intro m s
  have frame := envMove_frame s m
  exact ⟨fun b => bitOf_envMove_of_set s m, fun hw b => bitOf_envMove_ne s hw,
    fun r h1 h2 h3 h4 => sfrGet_envMove_ne s m (by simp [h1, h2, h3, h4]), sfrGet_envMove_of_moveSets_none s,
    dataByte_congr (congrArg State.data frame :), codeByte_congr (congrArg State.code frame :),
    ⟨fun i => (congrArg (regGet · i) frame :), (congrArg State.ds frame :)⟩, (congrArg State.pc frame :),
    (congrArg psw frame :), ⟨(congrArg State.ssp frame :), (congrArg State.usp frame :)⟩, (congrArg State.cfg frame :),
    (congrArg State.inputs frame :), (congrArg State.supplied frame :), (congrArg State.hold frame :),
    fun x => pending_envMove_of_has s m, fun x => pending_envMove_ne s⟩

end Sys2Proof.Machine

/-! An opaque step (92_eei_decisions.md D35; log 29): the state its register writes begin in, and all it does. -/

namespace Sys2Proof.Machine

variable (s : State)

/-! ### The pushes of an opaque step (20_memory.md R78; log 3) -/

/-- The first push of a list, on the stack it names, and the pointers it leaves to the others. -/
theorem pushesAt_cons (q : StackName × Word) (ws : List (StackName × Word)) (ssp usp : Word) :
    pushesAt s (q :: ws) ssp usp =
      { system := q.1.isSystem s, before := if q.1.isSystem s then ssp else usp, value := q.2 } ::
        pushesAt s ws (if q.1.isSystem s then ssp - 2#16 else ssp) (if q.1.isSystem s then usp else usp - 2#16) := by
  cases h : q.1.isSystem s <;> simp [pushesAt, h]

/-- Each push of a list finds its stack's pointer lowered by 2 for every earlier push there. -/
theorem before_of_mem_pushesAt {ws : List (StackName × Word)} {ssp usp : Word} {p : PushAt}
    (h : p ∈ pushesAt s ws ssp usp) :
    ∃ k, k < ws.countP (fun q => decide (q.1.isSystem s = p.system)) ∧
      p.before = (if p.system then ssp else usp) - BitVec.ofNat 16 (2 * k) := by
  induction ws generalizing ssp usp with
  | nil => cases h
  | cons q ws ih =>
    rw [pushesAt_cons, List.mem_cons] at h
    rcases h with rfl | h
    · exact ⟨0, by simp, by simp⟩
    · obtain ⟨k, hk, e⟩ := ih h
      by_cases hq : q.1.isSystem s = p.system
      · refine ⟨k + 1, by simpa [hq] using hk, ?_⟩
        rw [e, hq, Nat.mul_add, BitVec.ofNat_add]
        cases p.system <;> simp only [if_true, Bool.false_eq_true, if_false] <;> bv_omega
      · refine ⟨k, by simpa [hq] using hk, ?_⟩
        rw [e, Bool.eq_not.2 hq]
        cases p.system <;> rfl

/-- The j-th byte below a pointer is one of the n below it, also where the n wrap around the address space. -/
theorem inFrame_sub (S : Word) {j n : Nat} (h1 : 1 ≤ j) (h2 : j ≤ n) : inFrame S n (S - BitVec.ofNat 16 j) = true := by
  have e : S - BitVec.ofNat 16 j - (S - BitVec.ofNat 16 n) = BitVec.ofNat 16 (n - j) := by
    rw [show n = n - j + j by omega, BitVec.ofNat_add]
    simp only [Nat.add_sub_cancel]
    bv_omega
  have hle : (n - j) % 2 ^ 16 ≤ n - j := Nat.mod_le _ _
  rw [inFrame, e, BitVec.toNat_ofNat, decide_eq_true_eq]
  omega

/-- A byte a push stores lies among those below where its stack's pointer stood before the pushes. -/
theorem inFrame_of_mem_pushesAt {ws : List (StackName × Word)} {ssp usp : Word} {p : PushAt} {a : Word}
    (h : p ∈ pushesAt s ws ssp usp) (ha : a ∈ p.bytes.map Prod.fst) :
    inFrame (if p.system then ssp else usp) (2 * ws.countP fun q => decide (q.1.isSystem s = p.system)) a = true := by
  obtain ⟨k, hk, e⟩ := before_of_mem_pushesAt s h
  generalize hS : (if p.system then ssp else usp) = S at e ⊢
  have h2 : p.before - 2#16 = S - BitVec.ofNat 16 (2 * k + 2) := by rw [e, BitVec.ofNat_add]; bv_omega
  have h1 : p.before - 1#16 = S - BitVec.ofNat 16 (2 * k + 1) := by rw [e, BitVec.ofNat_add]; bv_omega
  simp only [PushAt.bytes, h1, h2, List.map_cons, List.map_nil, List.mem_cons, List.not_mem_nil, or_false] at ha
  rcases ha with rfl | rfl <;> exact inFrame_sub _ (by omega) (by omega)

/-- A byte below neither pointer is stored to by no push. -/
theorem not_mem_pushed_bytes {ws : List (StackName × Word)} {ssp usp a : Word}
    (hs : inFrame ssp (2 * ws.countP fun q => decide (q.1.isSystem s = true)) a = false)
    (hu : inFrame usp (2 * ws.countP fun q => decide (q.1.isSystem s = false)) a = false) :
    a ∉ ((pushesAt s ws ssp usp).flatMap PushAt.bytes).map Prod.fst := by
  intro h
  rw [List.map_flatMap, List.mem_flatMap] at h
  obtain ⟨p, hp, ha⟩ := h
  have hf := inFrame_of_mem_pushesAt s hp ha
  cases hsys : p.system <;> simp only [hsys, if_true, Bool.false_eq_true, if_false] at hf
  · rw [hu] at hf; cases hf
  · rw [hs] at hf; cases hf

/-- The word an instruction has pushed stands at the pointer of the stack it named. -/
theorem memRead16_pushOn (n : StackName) (v : Word) :
    memRead16 (pushOn n v s) (if n.isSystem s then (pushOn n v s).ssp else (pushOn n v s).usp) = v := by
  have word : ∀ (u : State) (S : Word), (∀ a, dataByte u a =
      if a = S - 1#16 then hiByte v else if a = S - 2#16 then loByte v else dataByte s a) → memRead16 u (S - 2#16) = v := by
    intro u S h
    have e : S - 2#16 + 1#16 = S - 1#16 := by bv_omega
    have hne : S - 2#16 ≠ S - 1#16 := by bv_omega
    rw [memRead16, h, h, if_pos e, if_neg hne, if_pos rfl, mkWord_hiByte_loByte]
  rcases pushOn_cases s n v with ⟨h, e⟩ | ⟨h, e⟩ <;> rw [e, h]
  · rw [if_pos rfl, pushSys_ssp]; exact word _ _ (dataByte_pushSys s v)
  · rw [if_neg (by decide), pushUser_usp]; exact word _ _ (dataByte_pushUser s v)

/-- Two lists of writes, one after the other. -/
theorem lastWrite_append {α β : Type} [DecidableEq α] (xs ys : List (α × β)) (x : α) (old : β) :
    lastWrite (xs ++ ys) x old = lastWrite ys x (lastWrite xs x old) := List.foldl_append ..

/-! ### An opaque step up to its register writes (log 29) -/

/-- The pointer of a stack, System or user, that an opaque step's pushes begin with. -/
def OpaqueStep.pointer (o : OpaqueStep) (s : State) (system : Bool) : Word :=
  lastWrite (o.sps.map fun p => (p.1.isSystem s, p.2)) system (if system then s.ssp else s.usp)

/-- The bytes an opaque step pushes on a stack. -/
def OpaqueStep.pushedBytes (o : OpaqueStep) (s : State) (system : Bool) : Nat :=
  2 * o.pushes.countP fun p => decide (p.1.isSystem s = system)

/-- The pushes of an opaque step, each at its pointer. -/
def OpaqueStep.pushedAt (o : OpaqueStep) (s : State) : List PushAt :=
  pushesAt s o.pushes (o.pointer s true) (o.pointer s false)

/-- The state an opaque step's pushes begin in: its registers, DS, stores and stack pointers are written. -/
def OpaqueStep.beforePushes (o : OpaqueStep) (s : State) : State :=
  putSps o.sps (putBytes o.stores (putRegs o.regs { s with ds := o.ds.getD s.ds }))

/-- The state an opaque step's writes of special function registers begin in. -/
def OpaqueStep.beforeSfrs (o : OpaqueStep) (s : State) : State := pushAll o.pushes (o.beforePushes s)

variable (o : OpaqueStep)

theorem opaqueEffect_eq : opaqueEffect o s =
    andThen (writeSfrs o.sfrs (o.beforeSfrs s)) fun t =>
      .next (freeFlags (setPc (o.target.getD (nextPc s o.bytes.length)) t)) := rfl

/-- An opaque step's general registers, DS, stores and stack pointers change nothing else. -/
theorem OpaqueStep.beforePushes_frame : o.beforePushes s = { s with
    ds := o.ds.getD s.ds, regs := (o.beforePushes s).regs, data := (o.beforePushes s).data
    ssp := o.pointer s true, usp := o.pointer s false } := by
  have names : ∀ u : State, u.pswh = s.pswh →
      (o.sps.map fun p => (p.1.isSystem u, p.2)) = o.sps.map fun p => (p.1.isSystem s, p.2) := fun u h =>
    List.map_congr_left fun p _ => by rw [StackName.isSystem_congr h]
  rw [beforePushes, putSps_eq, putBytes_frame, putRegs_frame, OpaqueStep.pointer, OpaqueStep.pointer, names]
  · rfl
  · rfl

@[simp] theorem OpaqueStep.beforePushes_cfg : (o.beforePushes s).cfg = s.cfg := by rw [beforePushes_frame]
@[simp] theorem OpaqueStep.beforePushes_pswh : (o.beforePushes s).pswh = s.pswh := by rw [beforePushes_frame]
@[simp] theorem OpaqueStep.beforePushes_pending : (o.beforePushes s).pending = s.pending := by rw [beforePushes_frame]
@[simp] theorem OpaqueStep.beforePushes_ssp : (o.beforePushes s).ssp = o.pointer s true := by rw [beforePushes_frame]
@[simp] theorem OpaqueStep.beforePushes_usp : (o.beforePushes s).usp = o.pointer s false := by rw [beforePushes_frame]

/-- Its pushes change the pointers, data memory and the pending set besides. -/
theorem OpaqueStep.beforeSfrs_frame : o.beforeSfrs s = { s with
    ds := o.ds.getD s.ds, regs := (o.beforePushes s).regs, data := (o.beforeSfrs s).data
    ssp := (o.beforeSfrs s).ssp, usp := (o.beforeSfrs s).usp, pending := (o.beforeSfrs s).pending } := by
  have h : o.beforeSfrs s = { o.beforePushes s with
      ssp := (o.beforeSfrs s).ssp, usp := (o.beforeSfrs s).usp, data := (o.beforeSfrs s).data
      pending := (o.beforeSfrs s).pending } := pushAll_frame (o.beforePushes s) o.pushes
  rw [h, beforePushes_frame]

@[simp] theorem OpaqueStep.beforeSfrs_cfg : (o.beforeSfrs s).cfg = s.cfg := by rw [beforeSfrs_frame]
@[simp] theorem OpaqueStep.beforeSfrs_pswh : (o.beforeSfrs s).pswh = s.pswh := by rw [beforeSfrs_frame]
@[simp] theorem OpaqueStep.beforeSfrs_sfr : (o.beforeSfrs s).sfr = s.sfr := by rw [beforeSfrs_frame]
@[simp] theorem OpaqueStep.beforeSfrs_ds : (o.beforeSfrs s).ds = o.ds.getD s.ds := by rw [beforeSfrs_frame]
@[simp] theorem OpaqueStep.beforeSfrs_regs : (o.beforeSfrs s).regs = (o.beforePushes s).regs := by rw [beforeSfrs_frame]
@[simp] theorem OpaqueStep.beforeSfrs_code : (o.beforeSfrs s).code = s.code := by rw [beforeSfrs_frame]
@[simp] theorem OpaqueStep.beforeSfrs_inputs : (o.beforeSfrs s).inputs = s.inputs := by rw [beforeSfrs_frame]
@[simp] theorem OpaqueStep.beforeSfrs_supplied : (o.beforeSfrs s).supplied = s.supplied := by rw [beforeSfrs_frame]
@[simp] theorem OpaqueStep.beforeSfrs_hold : (o.beforeSfrs s).hold = s.hold := by rw [beforeSfrs_frame]

@[simp] theorem OpaqueStep.beforeSfrs_ssp :
    (o.beforeSfrs s).ssp = o.pointer s true - BitVec.ofNat 16 (o.pushedBytes s true) := by
  rw [beforeSfrs, (pushAll_pointers _ _).1, beforePushes_ssp]
  simp [pushedBytes, StackName.isSystem_congr (beforePushes_pswh s o)]

@[simp] theorem OpaqueStep.beforeSfrs_usp :
    (o.beforeSfrs s).usp = o.pointer s false - BitVec.ofNat 16 (o.pushedBytes s false) := by
  rw [beforeSfrs, (pushAll_pointers _ _).2, beforePushes_usp]
  simp [pushedBytes, StackName.isSystem_congr (beforePushes_pswh s o)]

/-- The pushes, told from the state they begin in. -/
theorem OpaqueStep.pushesAt_beforePushes :
    pushesAt (o.beforePushes s) o.pushes (o.beforePushes s).ssp (o.beforePushes s).usp = o.pushedAt s := by
  rw [pushesAt_congr (beforePushes_pswh s o), beforePushes_ssp, beforePushes_usp, pushedAt]

theorem OpaqueStep.regGet_beforeSfrs (i : Nat) : regGet (o.beforeSfrs s) i = lastWrite o.regs i (regGet s i) := by
  have h : (o.beforeSfrs s).regs = (putRegs o.regs { s with ds := o.ds.getD s.ds }).regs := by
    rw [beforeSfrs_regs, beforePushes, putSps_eq, putBytes_frame]
  calc regGet (o.beforeSfrs s) i
    _ = regGet (putRegs o.regs { s with ds := o.ds.getD s.ds }) i := by rw [regGet, h, regGet]
    _ = lastWrite o.regs i (regGet s i) := regGet_putRegs _ _ _

/-- Data memory before the pushes: the last byte stored, or the old one. -/
theorem OpaqueStep.dataByte_beforePushes (a : Word) :
    dataByte (o.beforePushes s) a = lastWrite o.stores a (dataByte s a) := by
  have h : (o.beforePushes s).data = (putBytes o.stores (putRegs o.regs { s with ds := o.ds.getD s.ds })).data := by
    rw [beforePushes, putSps_eq]
  have old : dataByte (putRegs o.regs { s with ds := o.ds.getD s.ds }) a = dataByte s a :=
    dataByte_congr (by rw [putRegs_frame]) a
  rw [dataByte_congr h, dataByte_putBytes, old]

/-- Data memory after the pushes: the stores and then the pushes, the last write of a byte deciding. -/
theorem OpaqueStep.dataByte_beforeSfrs (a : Word) : dataByte (o.beforeSfrs s) a =
    lastWrite (o.stores ++ (o.pushedAt s).flatMap PushAt.bytes) a (dataByte s a) := by
  rw [lastWrite_append, ← dataByte_beforePushes, ← pushesAt_beforePushes]
  exact (pushAll_effect (o.beforePushes s) o.pushes).1 a

/-- A byte below neither pointer holds what was stored there. -/
theorem OpaqueStep.dataByte_beforeSfrs_outside {a : Word}
    (hs : inFrame (o.pointer s true) (o.pushedBytes s true) a = false)
    (hu : inFrame (o.pointer s false) (o.pushedBytes s false) a = false) :
    dataByte (o.beforeSfrs s) a = lastWrite o.stores a (dataByte s a) := by
  rw [dataByte_beforeSfrs, lastWrite_append]
  exact lastWrite_of_not_mem (not_mem_pushed_bytes s hs hu) _

/-- The word pushed last stands at its stack's pointer. -/
theorem OpaqueStep.memRead16_beforeSfrs_last {ws : List (StackName × Word)} {n : StackName} {v : Word}
    (h : o.pushes = ws ++ [(n, v)]) :
    memRead16 (o.beforeSfrs s) (if n.isSystem s then (o.beforeSfrs s).ssp else (o.beforeSfrs s).usp) = v := by
  have e : o.beforeSfrs s = pushOn n v (pushAll ws (o.beforePushes s)) := by
    rw [beforeSfrs, h, pushAll, List.foldl_append]; rfl
  have hp : (pushAll ws (o.beforePushes s)).pswh = s.pswh := by rw [pushAll_frame, beforePushes_pswh]
  rw [e, ← StackName.isSystem_congr hp]
  exact memRead16_pushOn _ n v

/-- Pending before the register writes: what was, and StackOverflow where STACK_OVF asks for it at a push. -/
theorem OpaqueStep.pending_beforeSfrs (e : Exc) : (o.beforeSfrs s).pending.has e =
    (s.pending.has e || (decide (e = .stackOverflow) && (o.pushedAt s).any fun p => p.overflows s.cfg)) := by
  rw [← pushesAt_beforePushes, ← beforePushes_pending s o, ← beforePushes_cfg s o]
  exact (pushAll_effect (o.beforePushes s) o.pushes).2 e

end Sys2Proof.Machine

namespace Sys2Proof.Machine

/-- Settles O53: the registers, memory and stacks are those before the register writes, which `writeSfrs_cases` decides;
the pc and the flags come last. -/
theorem opaqueStepEffect : Obligations.OpaqueStepEffect := by
  intro o s hd
  have run : execOpaque o s = opaqueEffect o s := by simp [execOpaque, hd]
  have writes := writeSfrs_cases (o.beforeSfrs s) o.sfrs
  simp only [OpaqueStep.beforeSfrs_cfg, OpaqueStep.beforeSfrs_pswh] at writes
  rw [run, opaqueEffect_eq]
  rcases writes with ⟨tried, stops, e⟩ | ⟨goes, u, e, upswh, usfr, upending, ucfg, _, ussp, uusp, uregs, uds, ucode, udata,
      uinputs, usupplied, uhold⟩
  · exact ⟨fun _ _ => by rw [e, andThen_fault], fun h => absurd stops (h tried)⟩
  refine ⟨fun tried stops => absurd stops (goes tried), fun _ =>
    ⟨freeFlags (setPc (o.target.getD (nextPc s o.bytes.length)) u), by rw [e, andThen_next], ?regs, ?ds, ?ssp, ?usp, ?data,
      ?outside, ?last, ?sfrs, upswh, ?pc, ?pending, ?code, ucfg, ?inputs, ?supplied, ?hold⟩⟩
  case regs => exact fun i => (congrArg (Memory.read regFill · i) uregs).trans (o.regGet_beforeSfrs s i)
  case ds => exact uds.trans (o.beforeSfrs_ds s)
  case ssp => exact ussp.trans (o.beforeSfrs_ssp s)
  case usp => exact uusp.trans (o.beforeSfrs_usp s)
  case data => exact fun a => (dataByte_congr udata a).trans (o.dataByte_beforeSfrs s a)
  case outside => exact fun a hs hu => (dataByte_congr udata a).trans (o.dataByte_beforeSfrs_outside s hs hu)
  case last =>
    intro ws n v h
    rw [freeFlags_ssp, setPc_ssp, freeFlags_usp, setPc_usp, ussp, uusp]
    exact (memRead16_congr udata _).trans (o.memRead16_beforeSfrs_last s h)
  case sfrs =>
    intro r hh hl
    have before := usfr r hh
    rw [sfrGet_congr_sfr (o.beforeSfrs_sfr s) hh hl] at before
    simp only [sfrMask_congr (o.beforeSfrs_cfg s)] at before
    rw [sfrGet_congr_sfr (freeFlags_sfr _) hh hl, sfrGet_congr_sfr (setPc_sfr _ _) hh hl, before]
  case pc => exact (modeAddr_congr rfl rfl _).symm
  case pending => exact fun x => (upending x).trans (by rw [o.pending_beforeSfrs s]; rfl)
  case code => exact codeByte_congr (ucode.trans (o.beforeSfrs_code s))
  case inputs => exact uinputs.trans (o.beforeSfrs_inputs s)
  case supplied => exact usupplied.trans (o.beforeSfrs_supplied s)
  case hold => exact uhold.trans (o.beforeSfrs_hold s)

end Sys2Proof.Machine

/-! PSWH in User Mode (10_state.md R23, R28): the bits a write keeps, the bits it takes. -/

namespace Sys2Proof.Machine

variable (s : State)

/-! ### RS1, RS0 and the protected bits -/

theorem rsMask_getLsbD (c : Config) (k : Nat) :
    (rsMask c).getLsbD k = (decide (k = bitPos c .rs1) || decide (k = bitPos c .rs0)) := by
  rw [rsMask, BitVec.getLsbD_or, bitMask_getLsbD (bitPos_lt _ _), bitMask_getLsbD (bitPos_lt _ _)]

/-- In a map a chip can have, a named bit of PSWH other than RS1 and RS0 is protected. -/
theorem rsMask_getLsbD_of_protected {c : Config} (hw : mapWf c = true) {b : BitName} (hp : (familyPlace b).1 = .pswh)
    (h1 : b ≠ .rs1) (h0 : b ≠ .rs0) : (rsMask c).getLsbD (bitPos c b) = false := by
  have apart : ∀ b', (familyPlace b').1 = .pswh → b ≠ b' → bitPos c b ≠ bitPos c b' := fun b' hp' hne e =>
    hne (bitPlace_injective hw (Prod.ext (((bitReg_eq_pswh c b).2 hp).trans ((bitReg_eq_pswh c b').2 hp').symm) e))
  rw [rsMask_getLsbD, decide_eq_false (apart .rs1 rfl h1), decide_eq_false (apart .rs0 rfl h0), Bool.or_false]

/-- A named bit of PSWH is read from PSWH, in every configuration. -/
theorem bitOf_of_pswh {b : BitName} (hp : (familyPlace b).1 = .pswh) :
    bitOf b s = s.pswh.getLsbD (bitPos s.cfg b) := by
  rw [bitOf, (bitReg_eq_pswh _ b).2 hp, sfrGet_pswh]

/-- A byte with RS1 and RS0 of one and the other bits of another, bit by bit. -/
theorem userPswh_getLsbD (v : Byte) {k : Nat} (hk : k < 8) :
    (userPswh v s).getLsbD k = if (rsMask s.cfg).getLsbD k then v.getLsbD k else s.pswh.getLsbD k := by
  simp only [userPswh, BitVec.getLsbD_or, BitVec.getLsbD_and, BitVec.getLsbD_not, hk, decide_true, Bool.true_and]
  cases (rsMask s.cfg).getLsbD k <;> simp

/-- The protected bits are those before. -/
theorem userPswh_protected (v : Byte) : userPswh v s &&& ~~~ rsMask s.cfg = s.pswh &&& ~~~ rsMask s.cfg := by
  apply BitVec.eq_of_getLsbD_eq
  intro k hk
  simp only [BitVec.getLsbD_and, BitVec.getLsbD_not, userPswh_getLsbD s v hk]
  cases (rsMask s.cfg).getLsbD k <;> simp

/-- State t has the protected bits of PSWH that s has, in the same configuration. -/
def KeepsProtected (s t : State) : Prop :=
  t.cfg = s.cfg ∧ t.pswh &&& ~~~ rsMask s.cfg = s.pswh &&& ~~~ rsMask s.cfg

theorem KeepsProtected.of_pswh_eq {s t : State} (hc : t.cfg = s.cfg) (hh : t.pswh = s.pswh) : KeepsProtected s t :=
  ⟨hc, by rw [hh]⟩

theorem KeepsProtected.trans {s t u : State} (h : KeepsProtected s t) (h' : KeepsProtected t u) : KeepsProtected s u := by
  obtain ⟨hc, hp⟩ := h
  obtain ⟨hc', hp'⟩ := h'
  rw [hc] at hp'
  exact ⟨hc'.trans hc, hp'.trans hp⟩

/-- In a map a chip can have, every named bit of PSWH but RS1 and RS0 is then as before. -/
theorem KeepsProtected.bitOf_eq {s t : State} (h : KeepsProtected s t) (hw : mapWf s.cfg = true) {b : BitName}
    (hp : (familyPlace b).1 = .pswh) (h1 : b ≠ .rs1) (h0 : b ≠ .rs0) : bitOf b t = bitOf b s := by
  obtain ⟨hc, hm⟩ := h
  have bit := congrArg (fun x : Byte => x.getLsbD (bitPos s.cfg b)) hm
  rw [bitOf_of_pswh t hp, bitOf_of_pswh s hp, hc]
  simpa only [BitVec.getLsbD_and, BitVec.getLsbD_not, rsMask_getLsbD_of_protected hw hp h1 h0, bitPos_lt, decide_true,
    Bool.not_false, Bool.and_true] using bit

theorem KeepsProtected.systemMode_eq {s t : State} (h : KeepsProtected s t) (hw : mapWf s.cfg = true) :
    systemMode t = systemMode s := h.bitOf_eq hw rfl (by decide) (by decide)

theorem KeepsProtected.traceMode_eq {s t : State} (h : KeepsProtected s t) (hw : mapWf s.cfg = true) :
    traceMode t = traceMode s := h.bitOf_eq hw rfl (by decide) (by decide)

theorem KeepsProtected.intMask_eq {s t : State} (h : KeepsProtected s t) (hw : mapWf s.cfg = true) :
    intMask t = intMask s := by
  have im : ∀ b ∈ [BitName.im3, .im2, .im1, .im0], bitOf b t = bitOf b s := fun b hb =>
    h.bitOf_eq hw (by revert b; decide) (by rintro rfl; revert hb; decide) (by rintro rfl; revert hb; decide)
  simp [intMask, im]

/-! ### What keeps the protected bits -/

/-- In User Mode SfrWrite keeps them, to whichever register. -/
theorem sfrWrite_keepsProtected {r : Sfr} {v : Byte} {s t : State} (hm : systemMode s = false)
    (h : sfrWrite r v s = .next t) : KeepsProtected s t := by
  rcases sfrWrite_cases s r v with ⟨hr, e⟩ | ⟨_, hm', _⟩ | ⟨_, _, _, e⟩ | ⟨x, _, _, _, _, e⟩ | ⟨_, _, _, _, e⟩
  · obtain ⟨hc, -, -, -, -, -, -, -, -, -, -, -, others⟩ := sfrWrite_frame h
    exact .of_pswh_eq hc (others .pswh (Ne.symm hr))
  · rw [hm] at hm'; cases hm'
  · rw [e] at h; cases h; exact ⟨sfrPut_cfg s _ _, userPswh_protected s v⟩
  · rw [e] at h; cases h; exact ⟨sfrPut_cfg s _ _, userPswh_protected s v⟩
  · rw [e] at h; cases h

/-- In User Mode every instruction but TRAP keeps them: RETI pops nothing, a register instruction goes through SfrWrite,
the others do not write PSWH. -/
theorem exec_keepsProtected {i : Instr} {s t : State} (hm : systemMode s = false) (h : exec i s = .next t)
    (hi : ∀ n, i ≠ .trap n) : KeepsProtected s t := by
  rcases exec_cases h with ⟨_, rfl⟩ | ⟨_, rfl⟩ | ⟨n, e, _⟩ | ⟨_, hm', _⟩ | ⟨_, hm', _⟩ | ⟨_, _, rfl⟩ |
      ⟨r, v, u, f, _, hu, hf, rfl⟩
  · exact .of_pswh_eq rfl rfl
  · exact .of_pswh_eq rfl rfl
  · exact absurd e (hi n)
  · rw [hm] at hm'; cases hm'
  · rw [hm] at hm'; cases hm'
  · exact .of_pswh_eq rfl rfl
  · obtain ⟨fcfg, -, fpswh, -⟩ := hf.frame (setPc (nextPc s i.length) u)
    exact (sfrWrite_keepsProtected hm hu).trans (.of_pswh_eq fcfg fpswh)

/-- In User Mode an opaque step's effect keeps them. Each of its writes is again in User Mode, which is where the map's
being one a chip can have is needed: SM is then neither RS1 nor RS0. -/
theorem opaqueEffect_keepsProtected {o : OpaqueStep} {s t : State} (hw : mapWf s.cfg = true) (hm : systemMode s = false)
    (h : opaqueEffect o s = .next t) : KeepsProtected s t := by
  refine opaqueEffect_induction (P := KeepsProtected s) ?ds ?reg ?byte ?sp ?push ?sfr ?pc ?flags (.of_pswh_eq rfl rfl) h
  case sfr => exact fun u r v t hu e => hu.trans (sfrWrite_keepsProtected ((hu.systemMode_eq hw).trans hm) e)
  case ds => exact fun u v hu => hu.trans (.of_pswh_eq rfl rfl)
  case reg => exact fun u i v hu => hu.trans (.of_pswh_eq rfl rfl)
  case byte => exact fun u a v hu => hu.trans (.of_pswh_eq rfl rfl)
  case sp => exact fun u n v hu => hu.trans (.of_pswh_eq (setSp_cfg u n v) (setSp_pswh u n v))
  case push => exact fun u n v hu => hu.trans (.of_pswh_eq (pushOn_cfg u n v) (pushOn_pswh u n v))
  case pc => exact fun u a hu => hu.trans (.of_pswh_eq rfl rfl)
  case flags => exact fun u hu => hu.trans (.of_pswh_eq rfl rfl)

theorem execOpaque_keepsProtected {o : OpaqueStep} {s t : State} (hw : mapWf s.cfg = true) (hm : systemMode s = false)
    (h : execOpaque o s = .next t) : KeepsProtected s t := by
  rcases execOpaque_cases s o with ⟨_, e⟩ | ⟨_, e⟩ <;> rw [e] at h
  · exact opaqueEffect_keepsProtected hw hm h
  · have begun : KeepsProtected s (raise .divideByZero { s with freeCtr := s.freeCtr + o.freedCount }) :=
      .of_pswh_eq rfl rfl
    exact begun.trans (opaqueEffect_keepsProtected hw hm h)

end Sys2Proof.Machine

namespace Sys2Proof.Machine

/-- Settles O33: what the protected bits are as bytes, they are by name in a map a chip can have. -/
theorem userModeKeepsTheProtectedBits : Obligations.UserModeKeepsTheProtectedBits := by
  have named : ∀ {s t : State}, systemMode s = false → KeepsProtected s t →
      t.pswh &&& ~~~ rsMask s.cfg = s.pswh &&& ~~~ rsMask s.cfg ∧
        (mapWf s.cfg = true → systemMode t = false ∧ traceMode t = traceMode s ∧ intMask t = intMask s) := fun hm k =>
    ⟨k.2, fun hw => ⟨(k.systemMode_eq hw).trans hm, k.traceMode_eq hw, k.intMask_eq hw⟩⟩
  exact ⟨fun i s t hm h hi => named hm (exec_keepsProtected hm h hi),
    fun o s t hw hm h => named hm (execOpaque_keepsProtected hw hm h)⟩

end Sys2Proof.Machine

/-! A write of PSWH in User Mode (10_state.md R28; 41_sfr_access_instructions.md R125(a)). -/

namespace Sys2Proof.Machine

/-- SfrWrite to PSWH in User Mode: RS1 and RS0 take the written bits; an attempt on the others raises the configured
exception or stops the machine (log 16). -/
theorem sfrWrite_pswh_userMode {s : State} (hm : systemMode s = false) (v : Byte) :
    (¬ v &&& ~~~ rsMask s.cfg ≠ s.pswh &&& ~~~ rsMask s.cfg ∨ s.cfg.userPswhWrite = .ignore →
      sfrWrite .pswh v s = .next { s with pswh := userPswh v s, pending := s.pending }) ∧
    (∀ e, v &&& ~~~ rsMask s.cfg ≠ s.pswh &&& ~~~ rsMask s.cfg → s.cfg.userPswhWrite = .exception e →
      sfrWrite .pswh v s = .next { s with pswh := userPswh v s, pending := s.pending.add e }) ∧
    (v &&& ~~~ rsMask s.cfg ≠ s.pswh &&& ~~~ rsMask s.cfg → s.cfg.userPswhWrite = .fault →
      sfrWrite .pswh v s = .fault .protectedPswhWrite) := by
  have user : s.pswh.getLsbD (bitPos s.cfg .sm) = false := (bitOf_of_pswh s rfl).symm.trans hm
  have written : pswhWritten s.cfg s.pswh v = userPswh v s := by rw [pswhWritten, user]; rfl
  have write := sfrWrite_pswh s v
  simp only [written, pswhAttempt, user, Bool.not_false, Bool.true_and, decide_eq_true_eq] at write
  rw [write]
  refine ⟨fun h => ?_, fun e ha he => by rw [if_pos ha, he]; rfl, fun ha hf => by rw [if_pos ha, hf]⟩
  by_cases ha : v &&& ~~~ rsMask s.cfg ≠ s.pswh &&& ~~~ rsMask s.cfg
  · rw [if_pos ha, h.resolve_left (not_not.2 ha)]
  · rw [if_neg ha]

/-- RS1 and RS0 as named bits after such a write, and the others. -/
theorem bitOf_of_userPswh {s t : State} {v : Byte} (hc : t.cfg = s.cfg) (hh : t.pswh = userPswh v s)
    (hw : mapWf s.cfg = true) :
    (∀ b ∈ [BitName.sm, .tm, .im3, .im2, .im1, .im0], bitOf b t = bitOf b s) ∧
      ∀ b ∈ [BitName.rs1, .rs0], bitOf b t = v.getLsbD (bitPos s.cfg b) := by
  have kept : KeepsProtected s t := ⟨hc, by rw [hh, userPswh_protected]⟩
  constructor
  · intro b hb
    refine kept.bitOf_eq hw ?_ ?_ ?_
    · revert b; decide
    · rintro rfl; revert hb; decide
    · rintro rfl; revert hb; decide
  · intro b hb
    have hp : (familyPlace b).1 = .pswh := by revert b; decide
    have hr : (rsMask s.cfg).getLsbD (bitPos s.cfg b) = true := by
      rw [rsMask_getLsbD]
      simp only [List.mem_cons, List.not_mem_nil, or_false] at hb
      rcases hb with rfl | rfl <;> simp
    rw [bitOf_of_pswh t hp, hc, hh, userPswh_getLsbD s v (bitPos_lt _ _), if_pos hr]

/-- What an instruction leaves that has written PSWH alone and made the pending set p. -/
theorem exec_of_pswh_written {s : State} {i : Instr} {v x : Byte} {p : Pending}
    (hi : writtenByte i s = some (.pswh, v)) (hx : sfrWrite .pswh v s = .next { s with pswh := x, pending := p }) :
    ∃ t, exec i s = .next t ∧ t.pswh = x ∧ t.cfg = s.cfg ∧ t.pc = modeAddr s (s.pc + BitVec.ofNat 24 i.length) ∧
      t.pending = p ∧ sameStacks s t ∧ sameData s t ∧ sameSfrs s t ∧ untouched s t ∧ t.hold = s.hold ∧
      ((∃ b, i = .setb b ∨ i = .clr b) → t.pswl = s.pswl) := by
  obtain ⟨f, hf, run, flags⟩ := exec_of_writtenByte s hi
  rw [hx, andThen_next] at run
  obtain ⟨fcfg, fpc, fpswh, fssp, fusp, fregs, fds, fsfr, fpending, fcode, fdata, finputs, fsupplied, fhold⟩ :=
    hf.frame (setPc (nextPc s i.length) { s with pswh := x, pending := p })
  refine ⟨_, run, fpswh, fcfg, ?pc, fpending, ⟨fssp, fusp⟩, dataByte_congr fdata,
    fun _ => sfrGet_congr_sfr (s := s) fsfr,
    ⟨codeByte_congr fcode, ⟨fun i => congrArg (Memory.read regFill · i) fregs, fds⟩, fcfg, finputs, fsupplied⟩, fhold,
    fun h => by rw [flags h]; rfl⟩
  case pc =>
    calc _ = modeAddr { s with pswh := x, pending := p } (nextPc s i.length) := fpc
      _ = modeAddr s (nextPc s i.length) := modeAddr_congr rfl rfl _
      _ = modeAddr s (s.pc + BitVec.ofNat 24 i.length) := modeAddr_modeAddr s _

/-- Settles O31: one argument for the two ways to complete, which differ in the pending set alone. -/
theorem userModeWriteOfPswh : Obligations.UserModeWriteOfPswh := by
  intro s i v hi hm attempt completes
  have done : ∀ p, sfrWrite .pswh v s = .next { s with pswh := userPswh v s, pending := p } → completes p := by
    intro p hx
    obtain ⟨t, run, pswh, cfg, pc, pending, rest⟩ := exec_of_pswh_written hi hx
    exact ⟨t, run, pswh, bitOf_of_userPswh cfg pswh, pc, pending, rest⟩
  obtain ⟨quiet, raises, stops⟩ := sfrWrite_pswh_userMode hm v
  refine ⟨fun h => done _ (quiet h), fun e ha he => done _ (raises e ha he), fun ha hf => ?_⟩
  obtain ⟨f, _, run, _⟩ := exec_of_writtenByte s hi
  rw [run, stops ha hf, andThen_fault]

end Sys2Proof.Machine

/-! A push by an instruction (10_state.md R31; 20_memory.md R78). -/

namespace Sys2Proof.Machine

variable (s : State)

/-- A state whose bytes are those of s but for a word pushed below S keeps every byte outside that word. -/
theorem sameDataOutside_of_pushed {s t : State} {S v : Word}
    (h : ∀ a, dataByte t a =
      if a = S - 1#16 then hiByte v else if a = S - 2#16 then loByte v else dataByte s a) :
    sameDataOutside S 2 s t := by
  intro a ha
  have outside : ∀ j, 1 ≤ j → j ≤ 2 → a ≠ S - BitVec.ofNat 16 j := by
    rintro j h1 h2 rfl
    rw [inFrame_sub S h1 h2] at ha
    cases ha
  rw [h, if_neg (outside 1 (by decide) (by decide)), if_neg (outside 2 (by decide) (by decide))]

/-- A push changes no register. -/
theorem pushOn_registers (n : StackName) (v : Word) :
    psw (pushOn n v s) = psw s ∧ (pushOn n v s).pc = s.pc ∧ sameSfrs s (pushOn n v s) ∧ untouched s (pushOn n v s) :=
  ⟨psw_congr (pushOn_pswh s n v) (pushOn_pswl s n v), pushOn_pc s n v, fun _ => sfrGet_congr_sfr (pushOn_sfr s n v),
    codeByte_congr (pushOn_code s n v), ⟨fun i => congrArg (Memory.read regFill · i) (pushOn_regs s n v), pushOn_ds s n v⟩,
    pushOn_cfg s n v, pushOn_inputs s n v, pushOn_supplied s n v⟩

end Sys2Proof.Machine

namespace Sys2Proof.Machine

/-- Settles O11, by what a push on each of the two stacks does. -/
theorem pushOnTheNamedStack : Obligations.PushOnTheNamedStack := by
  refine ⟨fun s n v => ?_, fun s => ⟨rfl, rfl, rfl⟩⟩
  have word := memRead16_pushOn s n v
  refine ⟨fun h => ?system, fun h => ?user, pushOn_registers s n v⟩
  case system =>
    have e : pushOn n v s = pushSys v s := if_pos h
    rw [h, if_pos rfl, e, pushSys_ssp] at word
    rw [e]
    exact ⟨pushSys_ssp s v, pushSys_usp s v, word, sameDataOutside_of_pushed (dataByte_pushSys s v), pushSys_pending s v⟩
  case user =>
    have e : pushOn n v s = pushUser v s := if_neg (by simp [h])
    rw [h, if_neg (by decide), e, pushUser_usp] at word
    rw [e]
    exact ⟨pushUser_usp s v, pushUser_ssp s v, word, sameDataOutside_of_pushed (dataByte_pushUser s v),
      pushUser_pending s v⟩

end Sys2Proof.Machine

/-! The IPA registers and the priority function (10_state.md R38 to R40). -/

namespace Sys2Proof.Machine

/-! ### The priority function -/

/-- The XA-G3's priority of a field: 0 where its three bits are 0, otherwise 8 more than they say. -/
theorem prio_g3_cases (f : BitVec 4) :
    (f.toNat % 8 = 0 ∧ prio .g3 f = 0) ∨ (f.toNat % 8 ≠ 0 ∧ prio .g3 f = 8 + f.toNat % 8) := by
  by_cases h : f.toNat % 8 = 0 <;> simp [prio, h]

/-- Forcing the top bit of a nibble below 8 to 1 adds 8. -/
theorem toNat_or_eight {f : BitVec 4} (h : f.toNat < 8) : (f ||| 8#4).toNat = 8 + f.toNat := by
  rw [BitVec.toNat_or, Nat.or_comm]
  exact (Nat.two_pow_add_eq_or_of_lt (i := 3) h 1).symm

/-- Settles O34, by the two cases of the XA-G3's priority. -/
theorem priorityFunction : Obligations.PriorityFunction := by
  refine ⟨fun f => rfl, rfl, fun f h1 h7 => ?small, fun f => ?range⟩
  case small =>
    have own : prio .g3 f = 8 + f.toNat := by rcases prio_g3_cases f with ⟨h, e⟩ | ⟨h, e⟩ <;> omega
    exact ⟨own, own.trans (toNat_or_eight (by omega)).symm⟩
  case range => rcases prio_g3_cases f with ⟨_, e⟩ | ⟨_, e⟩ <;> omega

/-! ### The IPA registers -/

/-- The registers that hold the priorities of the event interrupts (10_state.md R38). -/
def ipaSfrs : List Sfr := [.ipa0, .ipa1, .ipa2, .ipa3, .ipa4, .ipa5]

theorem ne_psw_of_mem_ipaSfrs {r : Sfr} (h : r ∈ ipaSfrs) : r ≠ .pswh ∧ r ≠ .pswl := by
  revert h; cases r <;> decide

/-- On the XA-G3 the storage of an IPA register is 77h, and no bit of it is open. -/
theorem ipa_masks_g3 {c : Config} (hd : c.derivative = .g3) {r : Sfr} (hr : r ∈ ipaSfrs)
    (h3 : r = .ipa3 → c.ipa3Present = true) : implMask c r = 0x77#8 ∧ openMask c r = 0x00#8 := by
  simp only [ipaSfrs, List.mem_cons, List.not_mem_nil, or_false] at hr
  rcases hr with rfl | rfl | rfl | rfl | rfl | rfl <;> simp_all [implMask, openMask, ipaMask, ipa3Present]

/-- MOV.B to a register outside the PSW completes, with the storage bits of its byte in the register. -/
theorem exec_movb_of_ne_psw {s : State} {a : BitVec 11} {w : Byte} {r : Sfr} (ha : sfrAt s.cfg a = some r)
    (hh : r ≠ .pswh) (hl : r ≠ .pswl) :
    ∃ t, exec (.movb a w) s = .next t ∧ t.cfg = s.cfg ∧ sfrGet r t = w &&& sfrMask r s := by
  obtain ⟨f, hf, run, _⟩ := exec_of_writtenByte s (i := .movb a w) (r := r) (v := w) (by simp [writtenByte, ha])
  rcases sfrWrite_cases s r w with ⟨_, e⟩ | ⟨h, _⟩ | ⟨h, _⟩ | ⟨_, h, _⟩ | ⟨h, _⟩
  · rw [e, andThen_next] at run
    obtain ⟨fcfg, -, -, -, -, -, -, fsfr, -⟩ :=
      hf.frame (setPc (nextPc s (Instr.movb a w).length) (sfrPut r (w &&& sfrMask r s) s))
    refine ⟨_, run, fcfg.trans (sfrPut_cfg s _ _), ?_⟩
    calc _ = sfrGet r (sfrPut r (w &&& sfrMask r s) s) := sfrGet_congr_sfr fsfr hh hl
      _ = w &&& sfrMask r s := sfrGet_sfrPut_same s r _
  all_goals exact absurd h hh

/-- MOV.B to an IPA register of the XA-G3 stores w & 77h, and that is what is read back. -/
theorem exec_movb_ipa_g3 {s : State} {a : BitVec 11} {r : Sfr} (hd : s.cfg.derivative = .g3) (hr : r ∈ ipaSfrs)
    (h3 : r = .ipa3 → s.cfg.ipa3Present = true) (ha : sfrAt s.cfg a = some r) (w : Byte) :
    ∃ t, exec (.movb a w) s = .next t ∧ t.cfg = s.cfg ∧ sfrGet r t = w &&& 0x77#8 ∧
      (sfrRead r t).byte = w &&& 0x77#8 := by
  obtain ⟨hh, hl⟩ := ne_psw_of_mem_ipaSfrs hr
  obtain ⟨stored, closed⟩ := ipa_masks_g3 hd hr h3
  obtain ⟨t, run, cfg, get⟩ := exec_movb_of_ne_psw (w := w) ha hh hl
  rw [sfrMask, stored] at get
  refine ⟨t, run, cfg, get, ?_⟩
  rw [sfrRead, ReadByte.byte, get, cfg, closed, BitVec.and_zero, BitVec.or_zero]

/-- Of either nibble 77h keeps the low three bits: 0001b and 1001b become 0001b. -/
theorem ipa_nibble {w : Byte} {k : Nat} (hk : k = 0 ∨ k = 4)
    (h : w.extractLsb' k 4 = 0x1#4 ∨ w.extractLsb' k 4 = 0x9#4) : (w &&& 0x77#8).extractLsb' k 4 = 0x1#4 := by
  have mask : (w &&& 0x77#8).extractLsb' k 4 = w.extractLsb' k 4 &&& 0x7#4 := by
    rw [BitVec.extractLsb'_and]
    rcases hk with rfl | rfl <;> rfl
  rw [mask]
  rcases h with h | h <;> rw [h] <;> rfl

/-- The field of a source is in the half of its IPA register that its slot says. -/
theorem eventField_eq (e : EventSource) (s : State) :
    eventField e s = (sfrGet (ipaOf e) s).extractLsb' (4 * (eventSlot e % 2)) 4 := by
  rcases Nat.mod_two_eq_zero_or_one (eventSlot e) with h | h <;> simp [eventField, h]

/-- Reset leaves every IPA register 0. -/
theorem sfrGet_ipa_of_doReset {s t : State} (h : doReset s = .next t) {r : Sfr} (hr : r ∈ ipaSfrs) :
    sfrGet r t = 0#8 := by
  obtain ⟨-, -, -, -, -, -, -, -, sfrs, -⟩ := doReset_eq_next h
  simp only [ipaSfrs, List.mem_cons, List.not_mem_nil, or_false] at hr
  rcases hr with rfl | rfl | rfl | rfl | rfl | rfl <;> simp only [sfrGet, sfrs, resetSfrs]

/-- Settles O32: a field of 1 is what 77h leaves of 0001b and of 1001b, and the XA-G3's priority of it is 8 + 1. -/
theorem ipaRegistersOfTheG3 : Obligations.IpaRegistersOfTheG3 := by
  intro s hd
  refine ⟨fun r hr h3 => ⟨fun a w ha => ?stored, fun e a w he ha heven hodd => ?field⟩,
    fun r hr t h => sfrGet_ipa_of_doReset h hr, fun a w h3 ha => ?absent⟩
  case stored =>
    obtain ⟨t, run, -, get, read⟩ := exec_movb_ipa_g3 hd hr h3 ha w
    exact ⟨t, run, get, read⟩
  case field =>
    obtain ⟨t, run, cfg, get, -⟩ := exec_movb_ipa_g3 hd hr h3 ha w
    have field : eventField e t = 0x1#4 := by
      rw [eventField_eq, he, get]
      rcases Nat.mod_two_eq_zero_or_one (eventSlot e) with h | h <;> rw [h]
      · exact ipa_nibble (.inl rfl) (heven h)
      · exact ipa_nibble (.inr rfl) (hodd h)
    exact ⟨t, run, field, by rw [eventPrio, field, cfg, hd]; rfl⟩
  case absent =>
    obtain ⟨t, run, -, get⟩ := exec_movb_of_ne_psw (w := w) ha (by decide) (by decide)
    have nothing : sfrMask .ipa3 s = 0x00#8 := by simp [sfrMask, implMask, ipa3Present, hd, h3]
    exact ⟨t, run, by rw [get, nothing, BitVec.and_zero]⟩

end Sys2Proof.Machine

/-! The state after reset (10_state.md R54; 70_reset_and_hazards.md R220, R224). -/

namespace Sys2Proof.Machine

/-- A step at which a Reset is pending and no move is scheduled is the reset sequence. -/
theorem step_of_pending_reset {s : State} (hi : s.inputs = []) (hp : s.pending.reset = true) : step s = doReset s := by
  rw [step, takeInputs_nil hi, cpuStep, if_pos hp]

/-- The default configuration is one the spec admits. -/
theorem configWf_g3Default : configWf Config.g3Default = true := by decide

/-- Settles O51, by evaluating the reset sequence on State.reset with Reset pending. -/
theorem resetStateIsTheResetSequences : Obligations.ResetStateIsTheResetSequences := by
  refine ⟨?_, by decide, by decide, by decide, by decide⟩
  rw [step_of_pending_reset rfl rfl]
  rfl

/-- Settles O59: at reset both memories are empty, every register stores 0 but PSWH, and both pointers are 0100h. -/
theorem invariantsHoldAtReset : Obligations.InvariantsHoldAtReset where
  left :=
    { config := configWf_g3Default
      codeWf := rfl
      codeWithin := rfl
      dataWf := rfl
      dataWithin := rfl
      regsWf := rfl
      pcInPage0 := fun _ => by decide
      implemented := fun r => by cases r <;> decide
      noNmi := fun _ => rfl }
  right := { ssp := by decide, usp := by decide, spReset := by decide, noneSupplied := rfl }

end Sys2Proof.Machine

/-! What every step keeps, whatever the environment does and whatever opaque step runs: one case split over the parts of
a step (00_scope.md R12; 60_exceptions.md R190), for every property of states. -/

namespace Sys2Proof.Machine

/-- The property is kept by each part of a step: by the environment's moves, by what a boundary does, by the execution of
an instruction and of an opaque step, and by what the CPU adds to it. -/
structure KeptByParts (P : State → Prop) : Prop where
  inputs : ∀ (u : State) (x : List (List EnvMove)), P u → P { u with inputs := x }
  move : ∀ (m : EnvMove) (u : State), P u → P (envMove m u)
  reset : ∀ u v : State, P u → doReset u = .next v → P v
  clearPending : ∀ u : State, P u → P (clearPending u)
  sequence : ∀ (u v : State) (va : Word) (ret : CodeAddr), P u → service va ret u = .next v → P v
  clearRequest : ∀ (m : Maskable) (u : State), P u → P (clearOnService m u)
  instr : ∀ (i : Instr) (u v : State), P u → exec i u = .next v → P v
  opaqueStep : ∀ (o : OpaqueStep) (os : List OpaqueStep) (u v : State), P u → u.supplied = o :: os →
    execOpaque o { u with supplied := os } = .next v → P v
  trace : ∀ u : State, P u → P (raise .trace u)
  hold : ∀ (u : State) (b : Bool), P u → P { u with hold := b }

namespace KeptByParts

variable {P : State → Prop} {s t : State}

theorem traceAfter (k : KeptByParts P) (x : Completed) (s : State) (h : P t) : P (traceAfter x s t) := by
  unfold Machine.traceAfter
  split
  · exact k.trace t h
  · exact h

theorem finishState (k : KeptByParts P) (bytes : List Byte) (delays : Bool) (s : State) (h : P t) :
    P (finishState bytes delays s t) :=
  k.traceAfter _ s (k.hold t _ h)

theorem runInstr (k : KeptByParts P) (h : P s) (e : runInstr s = .next t) : P t := by
  rcases runInstr_cases e with ⟨i, _, u, _, _, hu, rfl⟩ | ⟨o, os, u, ho, _, hu, rfl⟩
  · exact k.finishState _ _ s (k.instr i s u h hu)
  · exact k.finishState _ _ s (k.opaqueStep o os s u h ho hu)

theorem acceptMaskable (k : KeptByParts P) {m : Maskable} (h : P s) (e : acceptMaskable m s = .next t) : P t := by
  obtain ⟨u, hu, rfl⟩ := acceptMaskable_eq_next e
  exact k.clearRequest m _ (k.traceAfter _ s (k.sequence s u _ _ h hu))

/-- Such a property is kept by every step of the CPU. -/
theorem cpuStep (k : KeptByParts P) (h : P s) (e : cpuStep s = .next t) : P t := by
  rcases cpuStep_cases e with ⟨_, e⟩ | ⟨_, _, e⟩ | ⟨_, m, _, e⟩ | ⟨_, _, e⟩
  · exact k.reset s t h e
  · exact serviceAll_induction (fun _ u v => k.sequence u v _ _) (fun u _ => k.traceAfter _ u) (k.clearPending s h) e
  · exact k.acceptMaskable h e
  · exact k.runInstr h e

/-- Such a property is kept by every step. -/
theorem step (k : KeptByParts P) (h : P s) (e : step s = .next t) : P t :=
  k.cpuStep (takeInputs_induction k.move k.inputs h) e

end KeptByParts

/-! ### Frames of the parts -/

variable {s t : State}

/-- No instruction changes the configuration, code memory or the opaque steps supplied. -/
theorem exec_frame {i : Instr} (h : exec i s = .next t) : t.cfg = s.cfg ∧ t.code = s.code ∧ t.supplied = s.supplied := by
  rcases exec_cases h with ⟨_, rfl⟩ | ⟨_, rfl⟩ | ⟨n, _, e⟩ | ⟨_, _, rfl⟩ | ⟨_, _, _, rfl⟩ | ⟨_, _, rfl⟩ |
      ⟨r, v, u, f, _, hu, hf, rfl⟩
  · exact ⟨rfl, rfl, rfl⟩
  · exact ⟨rfl, rfl, rfl⟩
  · obtain ⟨cfg, -, -, -, -, code, -, supplied, -⟩ := service_frame e
    exact ⟨cfg, code, supplied⟩
  · exact ⟨rfl, rfl, rfl⟩
  · exact ⟨popFrame_cfg s, popFrame_code s, popFrame_supplied s⟩
  · exact ⟨rfl, rfl, rfl⟩
  · obtain ⟨cfg, -, -, -, -, -, code, -, -, supplied, -⟩ := sfrWrite_frame hu
    obtain ⟨fcfg, -, -, -, -, -, -, -, -, fcode, -, -, fsupplied, -⟩ := hf.frame (setPc (nextPc s i.length) u)
    exact ⟨fcfg.trans cfg, fcode.trans code, fsupplied.trans supplied⟩

/-- A property kept by every part of an opaque step's effect, and by what a zero divisor adds before it, is kept by its
execution. -/
theorem execOpaque_of_opaqueEffect {P : State → Prop}
    (effect : ∀ (o : OpaqueStep) (u v : State), P u → opaqueEffect o u = .next v → P v)
    (divide : ∀ (u : State) (n : Nat), P u → P (raise .divideByZero { u with freeCtr := n }))
    {o : OpaqueStep} (h : P s) (e : execOpaque o s = .next t) : P t := by
  rcases execOpaque_cases s o with ⟨_, run⟩ | ⟨_, run⟩ <;> rw [run] at e
  · exact effect o s t h e
  · exact effect _ _ t (divide s _ h) e

end Sys2Proof.Machine

/-! Code memory and the configuration (20_memory.md R91; 92_eei_decisions.md D22; log 14, log 37). -/

namespace Sys2Proof.Machine

/-- State t has the code memory and the configuration of s. -/
def SameProgram (s t : State) : Prop := t.code = s.code ∧ t.cfg = s.cfg

theorem SameProgram.trans {s t u : State} (h : SameProgram s t) (code : u.code = t.code) (cfg : u.cfg = t.cfg) :
    SameProgram s u := ⟨code.trans h.1, cfg.trans h.2⟩

theorem opaqueEffect_sameProgram {s t u : State} {o : OpaqueStep} (h : SameProgram s t)
    (e : opaqueEffect o t = .next u) : SameProgram s u := by
  refine opaqueEffect_induction (P := SameProgram s) ?ds ?reg ?byte ?sp ?push ?sfr ?pc ?flags h e
  case sfr =>
    intro u r v w hu e
    obtain ⟨cfg, -, -, -, -, -, code, -⟩ := sfrWrite_frame e
    exact hu.trans code cfg
  case ds => exact fun u v hu => hu.trans rfl rfl
  case reg => exact fun u i v hu => hu.trans rfl rfl
  case byte => exact fun u a v hu => hu.trans rfl rfl
  case sp => exact fun u n v hu => hu.trans (setSp_code u n v) (setSp_cfg u n v)
  case push => exact fun u n v hu => hu.trans (pushOn_code u n v) (pushOn_cfg u n v)
  case pc => exact fun u a hu => hu.trans rfl rfl
  case flags => exact fun u hu => hu.trans rfl rfl

/-- No part of a step writes code memory or changes the configuration. -/
theorem sameProgram_keptByParts (s : State) : KeptByParts (SameProgram s) where
  inputs u _ h := h.trans rfl rfl
  move m u h := h.trans (congrArg State.code (envMove_frame u m) :) (congrArg State.cfg (envMove_frame u m) :)
  reset u v h e := by
    obtain ⟨-, cfg, -, -, -, -, -, -, -, -, code, -⟩ := doReset_eq_next e
    exact h.trans code cfg
  clearPending u h := h.trans rfl rfl
  sequence u v va ret h e := by
    obtain ⟨cfg, -, -, -, -, code, -⟩ := service_frame e
    exact h.trans code cfg
  clearRequest m u h := by
    obtain ⟨cfg, -, -, -, -, -, -, -, -, code, -⟩ := clearOnService_frame u m
    exact h.trans code cfg
  instr i u v h e := by
    obtain ⟨cfg, code, -⟩ := exec_frame e
    exact h.trans code cfg
  opaqueStep o os u v h _ e :=
    execOpaque_of_opaqueEffect (fun _ _ _ => opaqueEffect_sameProgram) (fun _ _ h => h.trans rfl rfl)
      (s := { u with supplied := os }) (h.trans rfl rfl) e
  trace u h := h.trans rfl rfl
  hold u b h := h.trans rfl rfl

/-- Settles O9: no part of a step stores to code memory, so none changes what its bytes read as. -/
theorem codeMemoryConstant : Obligations.CodeMemoryConstant := by
  intro s t h
  obtain ⟨code, cfg⟩ := (sameProgram_keptByParts s).step ⟨rfl, rfl⟩ h
  exact ⟨codeByte_congr code, cfg⟩

end Sys2Proof.Machine

/-! The stack pointers stay even (20_memory.md R79; 70_reset_and_hazards.md R222; log 4). -/

namespace Sys2Proof.Machine

variable {s t : State}

/-- What changes neither the parity of a stack pointer, nor the configuration, nor the opaque steps supplied. -/
theorem StacksEven.congr (h : StacksEven s) (ssp : isOdd t.ssp = isOdd s.ssp) (usp : isOdd t.usp = isOdd s.usp)
    (cfg : t.cfg = s.cfg) (supplied : t.supplied = s.supplied) : StacksEven t where
  ssp := ssp.trans h.ssp
  usp := usp.trans h.usp
  spReset := by rw [cfg, h.spReset]
  noneSupplied := supplied.trans h.noneSupplied

theorem isOdd_service {va : Word} {ret : CodeAddr} (h : service va ret s = .next t) : isOdd t.ssp = isOdd s.ssp := by
  obtain ⟨_, _, rfl⟩ := service_eq_next h
  rw [loadVector_ssp, isOdd_pushFrame]

/-- An instruction moves the System Stack pointer by whole words, and leaves the user stack pointer. -/
theorem exec_stacks {i : Instr} (h : exec i s = .next t) : isOdd t.ssp = isOdd s.ssp ∧ t.usp = s.usp := by
  rcases exec_cases h with ⟨_, rfl⟩ | ⟨_, rfl⟩ | ⟨n, _, e⟩ | ⟨_, _, rfl⟩ | ⟨_, _, _, rfl⟩ | ⟨_, _, rfl⟩ |
      ⟨r, v, u, f, _, hu, hf, rfl⟩
  · exact ⟨rfl, rfl⟩
  · exact ⟨rfl, rfl⟩
  · obtain ⟨-, usp, -⟩ := service_frame e
    exact ⟨isOdd_service e, usp⟩
  · exact ⟨rfl, rfl⟩
  · exact ⟨isOdd_popFrame s, popFrame_usp s⟩
  · exact ⟨rfl, rfl⟩
  · obtain ⟨-, -, ssp, usp, -⟩ := sfrWrite_frame hu
    obtain ⟨-, -, -, fssp, fusp, -⟩ := hf.frame (setPc (nextPc s i.length) u)
    exact ⟨congrArg isOdd (fssp.trans ssp), fusp.trans usp⟩

/-- Every part of a step keeps the pointers even: frames are pushed and popped by whole words, reset loads SP_RESET into
both, and an opaque step is not supplied. -/
theorem stacksEven_keptByParts : KeptByParts StacksEven where
  inputs u _ h := h.congr rfl rfl rfl rfl
  move m u h := by
    rw [envMove_frame u m]
    exact h.congr rfl rfl rfl rfl
  reset u v h e := by
    obtain ⟨-, cfg, -, -, ssp, usp, -, -, -, -, -, -, -, supplied, -⟩ := doReset_eq_next e
    exact
      { ssp := by rw [ssp, h.spReset]
        usp := by rw [usp, h.spReset]
        spReset := by rw [cfg, h.spReset]
        noneSupplied := supplied.trans h.noneSupplied }
  clearPending u h := h.congr rfl rfl rfl rfl
  sequence u v va ret h e := by
    obtain ⟨cfg, usp, -, -, -, -, -, supplied, -⟩ := service_frame e
    exact h.congr (isOdd_service e) (congrArg isOdd usp) cfg supplied
  clearRequest m u h := by
    obtain ⟨cfg, -, -, -, ssp, usp, -, -, -, -, -, -, supplied, -⟩ := clearOnService_frame u m
    exact h.congr (congrArg isOdd ssp) (congrArg isOdd usp) cfg supplied
  instr i u v h e := by
    obtain ⟨cfg, -, supplied⟩ := exec_frame e
    obtain ⟨ssp, usp⟩ := exec_stacks e
    exact h.congr ssp (congrArg isOdd usp) cfg supplied
  opaqueStep o os u v h ho _ := by
    rw [h.noneSupplied] at ho
    cases ho
  trace u h := h.congr rfl rfl rfl rfl
  hold u b h := h.congr rfl rfl rfl rfl

/-- Settles O58, by the parts of a step. -/
theorem everyStepKeepsTheStacksEven : Obligations.EveryStepKeepsTheStacksEven :=
  fun _ _ => stacksEven_keptByParts.step

end Sys2Proof.Machine

/-! The invariant. Its clause about the pc speaks of a PZ that an instruction may just have written, so it holds again
only when the instruction has put the pc into the new mode; the other clauses are kept by every single operation. -/

namespace Sys2Proof.Machine

variable {s t : State}

/-- The pc lies in Page 0 in Page 0 Mode (10_state.md R21, D26; log 32). -/
def PcInMode (s : State) : Prop := page0Mode s = true → addrHigh s.pc = 0#8

/-- The clauses of the invariant but that about the pc. -/
structure ContentsInv (s : State) : Prop where
  config : configWf s.cfg = true
  codeWf : Memory.wf codeFill s.code = true
  codeWithin : Memory.within (2 ^ 24) s.code = true
  dataWf : Memory.wf dataFill s.data = true
  dataWithin : Memory.within (2 ^ 16) s.data = true
  regsWf : Memory.wf regFill s.regs = true
  implemented : ∀ r, sfrGet r s &&& ~~~ sfrMask r s = 0#8
  noNmi : nmiPresent s.cfg = false → s.pending.nmi = false

theorem inv_iff : Inv s ↔ ContentsInv s ∧ PcInMode s where
  mp h := ⟨{ h with }, h.pcInPage0⟩
  mpr h := { h.1 with pcInPage0 := h.2 }

/-- The clauses of an admitted configuration the invariant rests on. -/
theorem configWf_spec {c : Config} (h : configWf c = true) :
    Memory.wf regFill c.image.regs = true ∧ (c.userPswhWrite = .exception .nmi → nmiPresent c = true) := by
  simp only [configWf, Bool.and_eq_true, Bool.or_eq_true, decide_eq_true_eq] at h
  obtain ⟨⟨_, image⟩, nmi⟩ := h
  exact ⟨image, fun hw => nmi.resolve_right (not_not.2 hw)⟩

/-! ### The pc -/

theorem pcInMode_of_page0 {a : Word} (h : s.pc = page0 a) : PcInMode s := fun _ => by rw [h, addrHigh_page0]

theorem PcInMode.congr (h : PcInMode s) (cfg : t.cfg = s.cfg) (scr : t.sfr.scr = s.sfr.scr) (pc : t.pc = s.pc) :
    PcInMode t := by
  rw [PcInMode, page0Mode_congr cfg scr, pc]
  exact h

/-- `pc <- a` puts the pc into the mode of the state, whatever the address. -/
theorem pcInMode_setPc (a : CodeAddr) (s : State) : PcInMode (setPc a s) := by
  intro h
  rw [page0Mode_congr (s := s) (t := setPc a s) rfl rfl] at h
  rw [setPc_pc, modeAddr, if_pos h, addrHigh_page0]

/-- RETI takes from the frame the pc of the mode it finds. -/
theorem pcInMode_popFrame (s : State) : PcInMode (popFrame s) := by
  intro h
  rw [page0Mode_congr (popFrame_cfg s) (congrArg Sfrs.scr (popFrame_sfr s))] at h
  obtain ⟨-, short, -⟩ := popFrame_eq s
  rw [(short h).1, addrHigh_page0]

/-- Each instruction leaves the pc in the mode it leaves: RESET leaves both, a vector and the frame popped in Page 0
Mode give an address of Page 0, and every other instruction ends with `pc <- next`. -/
theorem exec_pcInMode {i : Instr} (h : PcInMode s) (e : exec i s = .next t) : PcInMode t := by
  rcases exec_cases e with ⟨_, rfl⟩ | ⟨_, rfl⟩ | ⟨n, _, e⟩ | ⟨_, _, rfl⟩ | ⟨_, _, _, rfl⟩ | ⟨_, _, rfl⟩ |
      ⟨r, v, u, f, _, _, hf, rfl⟩
  · exact pcInMode_setPc _ s
  · exact pcInMode_setPc _ _
  · exact pcInMode_of_page0 (service_next_pc e).1
  · exact h.congr rfl rfl rfl
  · exact pcInMode_popFrame s
  · exact pcInMode_setPc _ _
  · obtain ⟨cfg, pc, -, -, -, -, -, sfr, -⟩ := hf.frame (setPc (nextPc s i.length) u)
    exact (pcInMode_setPc _ u).congr cfg (congrArg Sfrs.scr sfr) pc

/-- An opaque step ends with the pc at its target or at next, in the mode it leaves. -/
theorem opaqueEffect_pcInMode {o : OpaqueStep} (e : opaqueEffect o s = .next t) : PcInMode t := by
  obtain ⟨u, _, e⟩ := andThen_eq_next e
  cases e
  exact (pcInMode_setPc _ u).congr rfl rfl rfl

/-! ### The contents -/

/-- The PSW is storage in every bit, and neither the pc nor a stack pointer is spoken of. -/
theorem ContentsInv.congr (h : ContentsInv s) (cfg : t.cfg = s.cfg) (code : t.code = s.code) (data : t.data = s.data)
    (regs : t.regs = s.regs) (sfr : t.sfr = s.sfr) (pending : t.pending = s.pending) : ContentsInv t where
  config := by rw [cfg, h.config]
  codeWf := by rw [code, h.codeWf]
  codeWithin := by rw [code, h.codeWithin]
  dataWf := by rw [data, h.dataWf]
  dataWithin := by rw [data, h.dataWithin]
  regsWf := by rw [regs, h.regsWf]
  implemented r := by
    by_cases hh : r = .pswh
    · simp [hh]
    · by_cases hl : r = .pswl
      · simp [hl]
      · rw [sfrGet_congr_sfr sfr hh hl, sfrMask_congr cfg, h.implemented]
  noNmi := by rw [cfg, pending]; exact h.noNmi

/-- An exception may be raised, NMI where the derivative has it (60_exceptions.md R147). -/
theorem ContentsInv.raise (h : ContentsInv s) {e : Exc} (he : e = .nmi → nmiPresent s.cfg = true) :
    ContentsInv (raise e s) :=
  { h with
    implemented := fun r => by rw [sfrGet_raise]; exact h.implemented r
    noNmi := fun hn => by
      have absent : Exc.nmi ≠ e := fun x => by simp [he x.symm] at hn
      calc (s.pending.add e).has .nmi = s.pending.has .nmi := by simp [Pending.has_add, absent]
        _ = false := h.noNmi hn }

theorem ContentsInv.raise_of_ne (h : ContentsInv s) (e : Exc) (he : e ≠ .nmi) : ContentsInv (Machine.raise e s) :=
  h.raise fun x => absurd x he

theorem ContentsInv.dataPut (h : ContentsInv s) (a : Word) (v : Byte) : ContentsInv (dataPut a v s) :=
  { h with
    dataWf := Memory.wf_write dataFill a.toNat v h.dataWf
    dataWithin := Memory.within_write dataFill a.toNat v a.isLt h.dataWithin }

theorem ContentsInv.memWrite16 (h : ContentsInv s) (a v : Word) : ContentsInv (memWrite16 a v s) :=
  (h.dataPut a (loByte v)).dataPut (a + 1#16) (hiByte v)

theorem ContentsInv.regPut (h : ContentsInv s) (i v : Nat) : ContentsInv (regPut i v s) :=
  { h with regsWf := Memory.wf_write regFill i v h.regsWf }

/-- A register may take any byte that lies in its storage. -/
theorem ContentsInv.sfrPut (h : ContentsInv s) {r : Sfr} {v : Byte} (hv : v &&& ~~~ sfrMask r s = 0#8) :
    ContentsInv (sfrPut r v s) where
  config := by rw [sfrPut_cfg, h.config]
  codeWf := by rw [sfrPut_code, h.codeWf]
  codeWithin := by rw [sfrPut_code, h.codeWithin]
  dataWf := by rw [sfrPut_data, h.dataWf]
  dataWithin := by rw [sfrPut_data, h.dataWithin]
  regsWf := by rw [sfrPut_regs, h.regsWf]
  implemented r' := by
    rw [sfrMask_congr (sfrPut_cfg s r v)]
    by_cases hr : r' = r
    · rw [hr, sfrGet_sfrPut_same, hv]
    · rw [sfrGet_sfrPut_ne s v hr, h.implemented]
  noNmi := by rw [sfrPut_cfg, sfrPut_pending]; exact h.noNmi

/-- A named bit is storage, so the hardware may set it. -/
theorem ContentsInv.raiseBit (h : ContentsInv s) (b : BitName) : ContentsInv (raiseBit b s) := by
  refine h.sfrPut (BitVec.eq_of_getLsbD_eq fun k hk => ?_)
  have stored := congrArg (fun x : Byte => x.getLsbD k) (h.implemented (bitReg s.cfg b))
  simp only [BitVec.getLsbD_and, BitVec.getLsbD_or, BitVec.getLsbD_zero, bitMask_getLsbD (bitPos_lt _ _)] at stored ⊢
  rw [Bool.and_or_distrib_right, stored, Bool.false_or]
  by_cases e : k = bitPos s.cfg b
  · subst e
    simp [sfrMask, implMask_named]
  · simp [e]

theorem ContentsInv.clearBit (h : ContentsInv s) (b : BitName) : ContentsInv (clearBit b s) :=
  h.sfrPut (by rw [BitVec.and_assoc, BitVec.and_comm (~~~ _), ← BitVec.and_assoc, h.implemented, BitVec.zero_and])

theorem ContentsInv.clearOnService (h : ContentsInv s) : ∀ m : Maskable, ContentsInv (clearOnService m s)
  | .event .ext0 => h.clearBit .ie0
  | .event .ext1 => h.clearBit .ie1
  | .event .timer0 => h.clearBit .tf0
  | .event .timer1 => h.clearBit .tf1
  | .event .timer2 | .event .serial0Rx | .event .serial0Tx | .event .serial1Rx | .event .serial1Tx | .swi _ => h

/-- SfrWrite stores storage bits alone, and the exception it raises in User Mode is one the derivative has. -/
theorem ContentsInv.sfrWrite (h : ContentsInv s) {r : Sfr} {v : Byte} (e : sfrWrite r v s = .next t) :
    ContentsInv t := by
  have pswh : ∀ x, ContentsInv (Machine.sfrPut .pswh x s) := fun x => h.sfrPut (by simp)
  rcases sfrWrite_cases s r v with ⟨_, e'⟩ | ⟨_, _, e'⟩ | ⟨_, _, _, e'⟩ | ⟨x, _, _, _, hx, e'⟩ | ⟨_, _, _, _, e'⟩ <;>
    rw [e'] at e <;> cases e
  · exact h.sfrPut (by rw [BitVec.and_assoc]; simp)
  · exact pswh v
  · exact pswh _
  · refine (pswh _).raise fun hn => ?_
    rw [sfrPut_cfg]
    exact (configWf_spec h.config).2 (by rw [hx, hn])

theorem ContentsInv.pushSys (h : ContentsInv s) (v : Word) : ContentsInv (pushSys v s) := by
  have moved : ContentsInv { s with ssp := s.ssp - 2#16 } := h.congr rfl rfl rfl rfl rfl rfl
  have stored := moved.memWrite16 (s.ssp - 2#16) v
  unfold Machine.pushSys
  dsimp only
  split
  · exact stored.raise_of_ne _ (by decide)
  · exact stored

theorem ContentsInv.pushUser (h : ContentsInv s) (v : Word) : ContentsInv (pushUser v s) := by
  have moved : ContentsInv { s with usp := s.usp - 2#16 } := h.congr rfl rfl rfl rfl rfl rfl
  have stored := moved.memWrite16 (s.usp - 2#16) v
  unfold Machine.pushUser
  dsimp only
  split
  · exact stored.raise_of_ne _ (by decide)
  · exact stored

theorem ContentsInv.pushOn (h : ContentsInv s) (n : StackName) (v : Word) : ContentsInv (pushOn n v s) := by
  rcases pushOn_cases s n v with ⟨_, e⟩ | ⟨_, e⟩ <;> rw [e]
  · exact h.pushSys v
  · exact h.pushUser v

theorem ContentsInv.pushFrame (h : ContentsInv s) (ret : CodeAddr) : ContentsInv (pushFrame ret s) := by
  unfold Machine.pushFrame
  dsimp only
  split
  · exact (h.pushSys _).pushSys _
  · exact ((h.pushSys _).pushSys _).pushSys _

theorem ContentsInv.service (h : ContentsInv s) {va : Word} {ret : CodeAddr} (e : service va ret s = .next t) :
    ContentsInv t := by
  obtain ⟨_, _, rfl⟩ := service_eq_next e
  exact (h.pushFrame ret).congr rfl rfl rfl rfl rfl rfl

/-- Every instruction keeps the contents. -/
theorem ContentsInv.exec (h : ContentsInv s) {i : Instr} (e : exec i s = .next t) : ContentsInv t := by
  rcases exec_cases e with ⟨_, rfl⟩ | ⟨_, rfl⟩ | ⟨n, _, e⟩ | ⟨_, _, rfl⟩ | ⟨_, _, _, rfl⟩ | ⟨_, _, rfl⟩ |
      ⟨r, v, u, f, _, hu, hf, rfl⟩
  · exact h.congr rfl rfl rfl rfl rfl rfl
  · exact (h.raise_of_ne .breakpoint (by decide)).congr rfl rfl rfl rfl rfl rfl
  · exact h.service e
  · exact h.raise_of_ne .reset (by decide)
  · exact h.congr (popFrame_cfg s) (popFrame_code s) (popFrame_data s) (popFrame_regs s) (popFrame_sfr s)
      (popFrame_pending s)
  · exact (h.raise_of_ne .userReti (by decide)).congr rfl rfl rfl rfl rfl rfl
  · obtain ⟨cfg, -, -, -, -, regs, -, sfr, pending, code, data, -⟩ := hf.frame (setPc (nextPc s i.length) u)
    exact (h.sfrWrite hu).congr cfg code data regs sfr pending

/-- Every part of an opaque step's effect keeps the contents. -/
theorem ContentsInv.opaqueEffect (h : ContentsInv s) {o : OpaqueStep} (e : opaqueEffect o s = .next t) :
    ContentsInv t := by
  refine opaqueEffect_induction (P := ContentsInv) ?ds ?reg ?byte ?sp ?push ?sfr ?pc ?flags h e
  case reg => exact fun u i v hu => hu.regPut i v
  case byte => exact fun u a v hu => hu.dataPut a v
  case push => exact fun u n v hu => hu.pushOn n v
  case sfr => exact fun u r v w hu e => hu.sfrWrite e
  case sp =>
    exact fun u n v hu => hu.congr (setSp_cfg u n v) (setSp_code u n v) (setSp_data u n v) (setSp_regs u n v)
      (setSp_sfr u n v) (setSp_pending u n v)
  case ds => exact fun u v hu => hu.congr rfl rfl rfl rfl rfl rfl
  case pc => exact fun u a hu => hu.congr rfl rfl rfl rfl rfl rfl
  case flags => exact fun u hu => hu.congr rfl rfl rfl rfl rfl rfl

/-- A reset leaves in each register only what its storage holds (10_state.md R54; log 13). -/
theorem resetSfrs_implemented (hs : s.sfr = resetSfrs s.cfg) (r : Sfr) : sfrGet r s &&& ~~~ sfrMask r s = 0#8 := by
  have masked : ∀ x m : Byte, x &&& m &&& ~~~ m = 0#8 := fun x m => by rw [BitVec.and_assoc]; simp
  cases r with
  | pswl => simp
  | pswh => simp
  | _ => simp [sfrGet, hs, resetSfrs, sfrMask, masked]

/-- A reset keeps the contents: it writes neither memory, and the registers of its image are in canonical form. -/
theorem ContentsInv.doReset (h : ContentsInv s) (e : doReset s = .next t) : ContentsInv t := by
  obtain ⟨-, cfg, -, -, -, -, regs, -, sfr, pending, code, data, -⟩ := doReset_eq_next e
  obtain ⟨image, -⟩ := configWf_spec h.config
  exact
    { config := by rw [cfg, h.config]
      codeWf := by rw [code, h.codeWf]
      codeWithin := by rw [code, h.codeWithin]
      dataWf := by rw [data, h.dataWf]
      dataWithin := by rw [data, h.dataWithin]
      regsWf := by rw [regs, image]
      implemented := resetSfrs_implemented (by rw [cfg, sfr])
      noNmi := fun _ => by rw [pending]; rfl }

/-- A move of the environment sets a named bit, or raises an exception: NMI only where the derivative has it. -/
theorem ContentsInv.envMove (h : ContentsInv s) (m : EnvMove) : ContentsInv (envMove m s) := by
  rcases envMove_cases s m with e | ⟨_, e⟩ | ⟨_, e⟩ | ⟨_, present, e⟩ | ⟨b, _, e⟩ <;> rw [e]
  · exact h
  · exact h.raise_of_ne .reset (by decide)
  · exact h.raise_of_ne .breakpoint (by decide)
  · exact h.raise fun _ => present
  · exact h.raiseBit b

/-! ### The two together -/

/-- Every part of a step keeps the invariant. -/
theorem inv_keptByParts : KeptByParts fun s => ContentsInv s ∧ PcInMode s where
  inputs u _ h := ⟨h.1.congr rfl rfl rfl rfl rfl rfl, h.2.congr rfl rfl rfl⟩
  move m u h := by
    have scr : (envMove m u).sfr.scr = u.sfr.scr := sfrGet_envMove_ne u m (r := .scr) (by decide)
    exact ⟨h.1.envMove m,
      h.2.congr (congrArg State.cfg (envMove_frame u m) :) scr (congrArg State.pc (envMove_frame u m) :)⟩
  reset u v h e := by
    obtain ⟨-, -, -, pc, -⟩ := doReset_eq_next e
    exact ⟨h.1.doReset e, pcInMode_of_page0 pc⟩
  clearPending u h := by
    obtain ⟨hc, hp⟩ := h
    exact ⟨{ hc with noNmi := fun _ => rfl }, hp.congr rfl rfl rfl⟩
  sequence u v va ret h e := ⟨h.1.service e, pcInMode_of_page0 (service_next_pc e).1⟩
  clearRequest m u h := by
    obtain ⟨cfg, pc, -, -, -, -, -, -, -, -, -, -, -, -, -, scr⟩ := clearOnService_frame u m
    exact ⟨h.1.clearOnService m, h.2.congr cfg scr pc⟩
  instr i u v h e := ⟨h.1.exec e, exec_pcInMode h.2 e⟩
  opaqueStep o os u v h _ e :=
    execOpaque_of_opaqueEffect (P := fun s => ContentsInv s ∧ PcInMode s)
      (fun _ _ _ h e => ⟨h.1.opaqueEffect e, opaqueEffect_pcInMode e⟩)
      (fun u n h => ⟨(h.1.congr (t := { u with freeCtr := n }) rfl rfl rfl rfl rfl rfl).raise_of_ne _ (by decide),
        h.2.congr rfl rfl rfl⟩)
      (s := { u with supplied := os }) ⟨h.1.congr rfl rfl rfl rfl rfl rfl, h.2.congr rfl rfl rfl⟩ e
  trace u h := ⟨h.1.raise_of_ne .trace (by decide), h.2.congr rfl rfl rfl⟩
  hold u b h := ⟨h.1.congr rfl rfl rfl rfl rfl rfl, h.2.congr rfl rfl rfl⟩

/-- Settles O57, by the parts of a step, the clause about the pc apart from the others. -/
theorem everyStepKeepsTheInvariant : Obligations.EveryStepKeepsTheInvariant :=
  fun _ _ h e => inv_iff.2 (inv_keptByParts.step (inv_iff.1 h) e)

end Sys2Proof.Machine

/-! The System Stack (20_memory.md R78; log 3), the frames of the two modes (R81, R82), and what RETI makes of a frame of
the other mode (R83). -/

namespace Sys2Proof.Machine

variable {s t : State} {S a : Word}

/-- A byte that is not one of the n below S stands at none of their addresses. -/
theorem ne_sub_of_not_inFrame {n : Nat} (h : inFrame S n a = false) (j : Nat) (h1 : 1 ≤ j) (h2 : j ≤ n) :
    a ≠ S - BitVec.ofNat 16 j := by
  rintro rfl
  rw [inFrame_sub S h1 h2] at h
  cases h

theorem memRead16_of_sameBytes (h : ∀ a, dataByte t a = dataByte s a) (a : Word) : memRead16 t a = memRead16 s a := by
  rw [memRead16, memRead16, h, h]

@[simp] theorem loByte_memRead16 (s : State) (a : Word) : loByte (memRead16 s a) = dataByte s a := loByte_mkWord _ _

theorem mkWord_zero (b : Byte) : mkWord 0#8 b = b.setWidth 16 := by
  apply BitVec.eq_of_toNat_eq
  have := b.isLt
  rw [mkWord, BitVec.toNat_append, BitVec.toNat_setWidth]
  simp only [BitVec.toNat_ofNat, Nat.zero_mod, Nat.zero_shiftLeft, Nat.zero_or]
  omega

theorem sub_two_add_one (S : Word) : S - 2#16 + 1#16 = S - 1#16 := by bv_omega

theorem sub_four_add_one (S : Word) : S - 4#16 + 1#16 = S - 3#16 := by bv_omega

theorem sub_six_add_one (S : Word) : S - 6#16 + 1#16 = S - 5#16 := by bv_omega

/-- The word a push leaves on top of the System Stack. -/
theorem memRead16_pushSys (s : State) (v : Word) : memRead16 (pushSys v s) (s.ssp - 2#16) = v := by
  rw [memRead16_eq (h := hiByte v) (l := loByte v), mkWord_hiByte_loByte] <;>
    simp [dataByte_pushSys, sub_two_add_one]

/-- The words of a frame in 24-bit mode: the return address in two words, its high byte the low byte of the second, and
the PSW (log 2, log 3). -/
theorem memRead16_pushFrame_native (ret : CodeAddr) (h : page0Mode s = false) :
    memRead16 (pushFrame ret s) (s.ssp - 2#16) = addrLow ret ∧
      memRead16 (pushFrame ret s) (s.ssp - 4#16) = (addrHigh ret).setWidth 16 ∧
      memRead16 (pushFrame ret s) (s.ssp - 6#16) = psw s := by
  have bytes := dataByte_pushFrame_native s ret h
  refine ⟨?low, ?high, ?psw⟩
  case low => simp [memRead16, bytes, sub_two_add_one]
  case high => simp [memRead16, bytes, sub_four_add_one, mkWord_zero]
  case psw => simp [memRead16, bytes, sub_six_add_one, psw]

/-- The words of a frame in Page 0 Mode: the low word of the return address, and the PSW. -/
theorem memRead16_pushFrame_page0 (ret : CodeAddr) (h : page0Mode s = true) :
    memRead16 (pushFrame ret s) (s.ssp - 2#16) = addrLow ret ∧
      memRead16 (pushFrame ret s) (s.ssp - 4#16) = psw s := by
  have bytes := dataByte_pushFrame_page0 s ret h
  refine ⟨?low, ?psw⟩
  case low => simp [memRead16, bytes, sub_two_add_one]
  case psw => simp [memRead16, bytes, sub_four_add_one, psw]

theorem pushFrame_sameDataOutside_native (ret : CodeAddr) (h : page0Mode s = false) :
    sameDataOutside s.ssp 6 s (pushFrame ret s) := by
  intro a ha
  have outside := ne_sub_of_not_inFrame ha
  rw [dataByte_pushFrame_native s ret h, if_neg (outside 5 (by decide) (by decide)),
    if_neg (outside 6 (by decide) (by decide)), if_neg (outside 3 (by decide) (by decide)),
    if_neg (outside 4 (by decide) (by decide)), if_neg (outside 1 (by decide) (by decide)),
    if_neg (outside 2 (by decide) (by decide))]

theorem pushFrame_sameDataOutside_page0 (ret : CodeAddr) (h : page0Mode s = true) :
    sameDataOutside s.ssp 4 s (pushFrame ret s) := by
  intro a ha
  have outside := ne_sub_of_not_inFrame ha
  rw [dataByte_pushFrame_page0 s ret h, if_neg (outside 3 (by decide) (by decide)),
    if_neg (outside 4 (by decide) (by decide)), if_neg (outside 1 (by decide) (by decide)),
    if_neg (outside 2 (by decide) (by decide))]

/-- The pushes of a frame leave the registers, code memory and the configuration (log 44). -/
theorem pushFrame_registers (ret : CodeAddr) (s : State) :
    (pushFrame ret s).pc = s.pc ∧ psw (pushFrame ret s) = psw s ∧ (pushFrame ret s).usp = s.usp ∧
      sameSfrs s (pushFrame ret s) ∧ untouched s (pushFrame ret s) :=
  ⟨pushFrame_pc s ret, psw_congr (pushFrame_pswh s ret) (pushFrame_pswl s ret), pushFrame_usp s ret,
    fun _ => sfrGet_congr_sfr (pushFrame_sfr s ret), codeByte_congr (pushFrame_code s ret),
    ⟨fun i => congrArg (Memory.read regFill · i) (pushFrame_regs s ret), pushFrame_ds s ret⟩, pushFrame_cfg s ret,
    pushFrame_inputs s ret, pushFrame_supplied s ret⟩

/-! ### RETI after a sequence -/

/-- A handler that returns in System Mode with the pointer where the sequence left it pops from an even pointer. -/
theorem exec_reti_of_service {u : State} {va : Word} {ret : CodeAddr} (e : service va ret s = .next t)
    (hm : systemMode u = true) (hu : u.ssp = t.ssp) : exec .reti u = .next (popFrame u) := by
  have even : isOdd u.ssp = false := by
    rw [hu, isOdd_service e]
    exact (service_eq_next e).1
  simp [exec, execReti, hm, even]

/-- The frame a sequence leaves in memory. -/
theorem dataByte_service {va : Word} {ret : CodeAddr} (e : service va ret s = .next t) (a : Word) :
    dataByte t a = dataByte (pushFrame ret s) a := by
  obtain ⟨_, _, rfl⟩ := service_eq_next e
  exact dataByte_congr (loadVector_data _ va) a

theorem service_ssp {va : Word} {ret : CodeAddr} (e : service va ret s = .next t) :
    t.ssp = if page0Mode s then s.ssp - 4#16 else s.ssp - 6#16 := (service_next_pc e).2.2

end Sys2Proof.Machine

namespace Sys2Proof.Machine

/-- Settles O10, by what a push does to the pointer, to memory and to the pending set. -/
theorem pushAndPopSystemStack : Obligations.PushAndPopSystemStack := by
  intro s v
  refine ⟨pushSys_ssp s v, memRead16_pushSys s v, sameDataOutside_of_pushed (dataByte_pushSys s v), pushSys_pending s v,
    rfl, rfl, ?top, ?pointer⟩
  case top => rw [topSys, pushSys_ssp, memRead16_pushSys]
  case pointer => rw [dropSys_ssp, pushSys_ssp, BitVec.sub_add_cancel]

/-- Settles O12, mode by mode. -/
theorem framesOfTheTwoModes : Obligations.FramesOfTheTwoModes := by
  intro s ret
  refine ⟨fun h => ?native, fun h => ?page0, pushFrame_registers ret s⟩
  case native =>
    obtain ⟨low, high, old⟩ := memRead16_pushFrame_native ret h
    exact ⟨by rw [pushFrame_ssp, h]; rfl, low, high, old, pushFrame_sameDataOutside_native ret h⟩
  case page0 =>
    obtain ⟨low, old⟩ := memRead16_pushFrame_page0 ret h
    exact ⟨by rw [pushFrame_ssp, h]; rfl, low, old, pushFrame_sameDataOutside_page0 ret h⟩

/-- Settles O16: the pops of the mode RETI finds, on the words of the mode the frame was pushed in. -/
theorem mixedFrameSizes : Obligations.MixedFrameSizes := by
  refine ⟨fun s t u va ret hs e hm hu hssp hdata => ?long, fun s t u va ret hs e hm hu hssp hdata => ?short⟩
  case long =>
    have words := memRead16_of_sameBytes fun a => (hdata a).trans (dataByte_service e a)
    obtain ⟨-, high, old⟩ := memRead16_pushFrame_native ret hs
    obtain ⟨hpsw, pops, -⟩ := popFrame_eq u
    obtain ⟨pc, ssp⟩ := pops hu
    have top : u.ssp = s.ssp - 6#16 := by rw [hssp, service_ssp e, hs]; rfl
    have second : s.ssp - 6#16 + 2#16 = s.ssp - 4#16 := by bv_omega
    refine ⟨popFrame u, exec_reti_of_service e hm hssp, ?_, ?_, ?_⟩
    · rw [pc, top, second, words, high]
    · rw [hpsw, top, words, old]
    · rw [ssp, top]; bv_omega
  case short =>
    have bytes := fun a => (hdata a).trans (dataByte_service e a)
    obtain ⟨low, old⟩ := memRead16_pushFrame_page0 ret hs
    obtain ⟨hpsw, -, pops⟩ := popFrame_eq u
    obtain ⟨pc, ssp⟩ := pops hu
    have top : u.ssp = s.ssp - 4#16 := by rw [hssp, service_ssp e, hs]; rfl
    have second : s.ssp - 4#16 + 2#16 = s.ssp - 2#16 := by bv_omega
    have third : s.ssp - 4#16 + 4#16 = s.ssp := BitVec.sub_add_cancel ..
    refine ⟨popFrame u, exec_reti_of_service e hm hssp, ?_, ?_, ?_⟩
    · rw [pc, top, second, third, ← low, loByte_memRead16, bytes]
    · rw [hpsw, top, memRead16_of_sameBytes bytes, old]
    · rw [ssp, top]; bv_omega

end Sys2Proof.Machine

/-! Bit addresses and direct addresses (20_memory.md R86; 10_state.md R47; log 25), vector addresses (20_memory.md
R74). -/

namespace Sys2Proof.Machine

/-- A bit address from 200h up lies in the byte its quotient by 8 counts from 400h. -/
theorem toNat_bitByte {b : BitVec 10} (h : 0x200 ≤ b.toNat) : (bitByte b).toNat = 0x400 + (b.toNat - 0x200) / 8 := by
  have := b.isLt
  rw [bitByte, BitVec.toNat_ofNat]
  omega

/-- In a map a chip can have, a direct address names the register it is the address of. -/
theorem sfrAt_eq_some_iff {c : Config} (hw : mapWf c = true) {a : BitVec 11} {r : Sfr} :
    sfrAt c a = some r ↔ sfrAddr c r = a :=
  ⟨sfrAddr_of_sfrAt, fun h => h ▸ sfrAt_sfrAddr hw r⟩

/-- The converse of `bitAt_eq_some`: from 200h up, what names a bit-addressable register names a bit of it. -/
theorem bitAt_of_sfrAt {c : Config} {b : BitVec 10} {r : Sfr} (h : 0x200 ≤ b.toNat) (hr : sfrAt c (bitByte b) = some r)
    (ha : bitAddressable r = true) : bitAt c b = some (r, b.toNat % 8) := by
  simp [bitAt, hr, ha, show ¬ b.toNat < 0x200 by omega]

/-- The bit address of bit n of a register, as a number: 8 bits to each byte from 400h. -/
theorem bitAt_eq_some_iff {c : Config} (hw : mapWf c = true) {b : BitVec 10} {r : Sfr} {n : Nat} :
    bitAt c b = some (r, n) ↔
      bitAddressable r = true ∧ n < 8 ∧ b.toNat = 0x200 + 8 * ((sfrAddr c r).toNat - 0x400) + n := by
  constructor
  · intro h
    obtain ⟨low, hr, ha, rfl⟩ := bitAt_eq_some h
    have byte := toNat_bitByte low
    rw [← sfrAddr_of_sfrAt hr] at byte
    exact ⟨ha, by omega, by omega⟩
  · rintro ⟨ha, hn, hb⟩
    obtain ⟨above, -⟩ := sfrAddr_range hw r
    have low : 0x200 ≤ b.toNat := by omega
    have byte : sfrAddr c r = bitByte b := by
      apply BitVec.eq_of_toNat_eq
      rw [toNat_bitByte low]
      omega
    rw [bitAt_of_sfrAt low ((sfrAt_eq_some_iff hw).2 byte) ha, show b.toNat % 8 = n by omega]

/-- Settles O4: the two maps of addresses, and the printed addresses by evaluation. -/
theorem bitAddressesNameTheirBits : Obligations.BitAddressesNameTheirBits :=
  ⟨fun _ _ _ _ hw => bitAt_eq_some_iff hw, fun _ _ _ hw => sfrAt_eq_some_iff hw,
    fun _ => ⟨rfl, rfl, rfl, rfl, rfl, rfl, rfl, rfl⟩⟩

theorem toNat_trapVector (n : BitVec 4) : (trapVector n).toNat = 0x40 + 4 * n.toNat := by
  have := n.isLt
  simp only [trapVector, BitVec.toNat_add, BitVec.toNat_mul, BitVec.toNat_setWidth, BitVec.toNat_ofNat]
  omega

theorem toNat_eventVector (e : EventSource) : (eventVector e).toNat = 0x80 + 4 * eventSlot e := by
  cases e <;> rfl

theorem toNat_swiVector (k : Fin 7) : (swiVector k).toNat = 0x100 + 4 * k.val := by
  rw [swiVector, BitVec.toNat_ofNat]
  omega

/-- Settles O17: no address of the table wraps at 2^16. -/
theorem vectorAddresses : Obligations.VectorAddresses :=
  ⟨rfl, rfl, rfl, rfl, rfl, rfl, rfl, toNat_trapVector, toNat_eventVector, toNat_swiVector⟩

end Sys2Proof.Machine

/-! The encoding (30_encoding.md R105 to R107; log 27): an operand's bits are fields of the instruction's bytes, and the
decoder and the encoder read the same fields. -/

namespace Sys2Proof

/-! ### Fields of a word -/

/-- A word made of two fields is the one that has these fields. -/
theorem append_eq_iff {m n : Nat} {x : BitVec m} {y : BitVec n} {w : BitVec (m + n)} :
    x ++ y = w ↔ w.extractLsb' n m = x ∧ w.extractLsb' 0 n = y := by
  constructor
  · rintro rfl
    exact ⟨BitVec.extractLsb'_append_eq_left, BitVec.extractLsb'_append_eq_right⟩
  · rintro ⟨rfl, rfl⟩
    exact BitVec.extractLsb'_append_extractLsb'

/-- A word made of three fields is the one that has these fields. -/
theorem append_append_eq_iff {k m n : Nat} {x : BitVec k} {y : BitVec m} {z : BitVec n} {w : BitVec (k + m + n)} :
    x ++ y ++ z = w ↔ w.extractLsb' (n + m) k = x ∧ w.extractLsb' n m = y ∧ w.extractLsb' 0 n = z := by
  constructor
  · rintro rfl
    refine ⟨?_, ?_, BitVec.extractLsb'_append_eq_right⟩
    · rw [BitVec.extractLsb'_append_eq_of_le (by omega), Nat.add_sub_cancel_left, BitVec.extractLsb'_append_eq_left]
    · rw [BitVec.extractLsb'_append_eq_of_le (by omega), Nat.sub_self, BitVec.extractLsb'_append_eq_right]
  · rintro ⟨rfl, rfl, rfl⟩
    rw [BitVec.extractLsb'_append_extractLsb'_eq_extractLsb' rfl, BitVec.extractLsb'_append_extractLsb']

/-! ### The three groups of longer instructions -/

theorem decodeD6_trap (n : BitVec 4) : decodeD6 (0x3#4 ++ n) = some (.trap n) := by
  simp only [decodeD6, BitVec.extractLsb'_append_eq_left, BitVec.extractLsb'_append_eq_right, if_true]

/-- What is read from the second byte of the D6h group has that byte in its encoding. -/
theorem encode_of_decodeD6 {b : Byte} {i : Instr} (h : decodeD6 b = some i) : encode i = [0xD6, b] := by
  unfold decodeD6 at h
  split at h
  case isTrue high =>
    cases h
    simp only [encode, append_eq_iff.2 ⟨high, rfl⟩]
  split at h
  case isTrue hb => cases h; rw [hb, encode]
  split at h
  case isTrue hb => cases h; rw [hb, encode]
  cases h

/-- The bit address in the second and third byte of the 08h group, put there by the encoder. -/
theorem bitAddress_eq (op : BitVec 6) (bit : BitVec 10) :
    (op ++ bit.extractLsb' 8 2).extractLsb' 0 2 ++ bit.extractLsb' 0 8 = bit := by
  rw [BitVec.extractLsb'_append_eq_right]
  exact append_eq_iff.2 ⟨rfl, rfl⟩

theorem decodeBitOp_clr (bit : BitVec 10) :
    decodeBitOp (0x00#6 ++ bit.extractLsb' 8 2) (bit.extractLsb' 0 8) = some (.clr bit) := by
  simp only [decodeBitOp, bitAddress_eq, BitVec.extractLsb'_append_eq_left, if_true]

theorem decodeBitOp_setb (bit : BitVec 10) :
    decodeBitOp (0x04#6 ++ bit.extractLsb' 8 2) (bit.extractLsb' 0 8) = some (.setb bit) := by
  simp only [decodeBitOp, bitAddress_eq, BitVec.extractLsb'_append_eq_left]
  rfl

/-- What is read from the second and third byte of the 08h group has those bytes in its encoding. -/
theorem encode_of_decodeBitOp {b c : Byte} {i : Instr} (h : decodeBitOp b c = some i) : encode i = [0x08, b, c] := by
  obtain ⟨high, low⟩ := append_eq_iff.1 (rfl : b.extractLsb' 0 2 ++ c = _)
  unfold decodeBitOp at h
  split at h
  case isTrue op =>
    cases h
    simp only [encode, high, low, append_eq_iff.2 ⟨op, rfl⟩]
  split at h
  case isTrue op =>
    cases h
    simp only [encode, high, low, append_eq_iff.2 ⟨op, rfl⟩]
  cases h

/-- The fields of the second byte of the 96h group, and the direct address they give with the third. -/
theorem directFields (a : BitVec 11) (op : BitVec 4) :
    let b : Byte := 0x0#1 ++ a.extractLsb' 8 3 ++ op
    b.extractLsb' 7 1 = 0x0#1 ∧ b.extractLsb' 0 4 = op ∧ b.extractLsb' 4 3 ++ a.extractLsb' 0 8 = a := by
  obtain ⟨top, high, low⟩ := append_append_eq_iff.1 (rfl : 0x0#1 ++ a.extractLsb' 8 3 ++ op = _)
  exact ⟨top, low, append_eq_iff.2 ⟨high.symm, rfl⟩⟩

theorem decodeDirect_movb (a : BitVec 11) (d : Byte) :
    decodeDirect (0x0#1 ++ a.extractLsb' 8 3 ++ 0x8#4) (a.extractLsb' 0 8) d = some (.movb a d) := by
  obtain ⟨top, op, addr⟩ := directFields a 0x8#4
  simp only [decodeDirect, top, op, addr, if_true]

theorem decodeDirect_orb (a : BitVec 11) (d : Byte) :
    decodeDirect (0x0#1 ++ a.extractLsb' 8 3 ++ 0x6#4) (a.extractLsb' 0 8) d = some (.orb a d) := by
  obtain ⟨top, op, addr⟩ := directFields a 0x6#4
  simp only [decodeDirect, top, op, addr]
  rfl

/-- What is read from the second to fourth byte of the 96h group has those bytes in its encoding. -/
theorem encode_of_decodeDirect {b c d : Byte} {i : Instr} (h : decodeDirect b c d = some i) :
    encode i = [0x96, b, c, d] := by
  obtain ⟨high, low⟩ := append_eq_iff.1 (rfl : b.extractLsb' 4 3 ++ c = _)
  unfold decodeDirect at h
  split at h
  case isFalse => cases h
  case isTrue top =>
    have second {op : BitVec 4} (hop : b.extractLsb' 0 4 = op) : 0x0#1 ++ b.extractLsb' 4 3 ++ op = b :=
      append_append_eq_iff.2 ⟨top, rfl, hop⟩
    split at h
    case isTrue op =>
      cases h
      simp only [encode, high, low, second op]
    split at h
    case isTrue op =>
      cases h
      simp only [encode, high, low, second op]
    cases h

/-! ### The decoder, by the first byte -/

theorem decode_of_decodeD6 {b : Byte} {i : Instr} (h : decodeD6 b = some i) (rest : List Byte) :
    decode (0xD6 :: b :: rest) = .instr i rest := congrArg (Decoded.ofOption · rest) h

theorem decode_of_decodeBitOp {b c : Byte} {i : Instr} (h : decodeBitOp b c = some i) (rest : List Byte) :
    decode (0x08 :: b :: c :: rest) = .instr i rest := congrArg (Decoded.ofOption · rest) h

theorem decode_of_decodeDirect {b c d : Byte} {i : Instr} (h : decodeDirect b c d = some i) (rest : List Byte) :
    decode (0x96 :: b :: c :: d :: rest) = .instr i rest := congrArg (Decoded.ofOption · rest) h

/-! ### Decoder and encoder -/

theorem decode_encode (i : Instr) (rest : List Byte) : decode (encode i ++ rest) = .instr i rest := by
  cases i with
  | nop => rfl
  | bkpt => rfl
  | trap n => exact decode_of_decodeD6 (decodeD6_trap n) rest
  | reset => rfl
  | reti => rfl
  | clr b => exact decode_of_decodeBitOp (decodeBitOp_clr b) rest
  | setb b => exact decode_of_decodeBitOp (decodeBitOp_setb b) rest
  | movb a d => exact decode_of_decodeDirect (decodeDirect_movb a d) rest
  | orb a d => exact decode_of_decodeDirect (decodeDirect_orb a d) rest

theorem length_encode (i : Instr) : (encode i).length = i.length := by cases i <;> rfl

/-- What the decoder can answer to a byte string: the instruction whose encoding it begins with, or a rejection, that
the bytes end early only of fewer than four, the longest instruction. -/
inductive DecodeAnswer (bs : List Byte) : Decoded → Prop where
  | instr (i : Instr) (rest : List Byte) (h : bs = encode i ++ rest) : DecodeAnswer bs (.instr i rest)
  | notNamed : DecodeAnswer bs (.rejected .notNamed)
  | truncated (h : bs.length < 4) : DecodeAnswer bs (.rejected .truncated)

/-- The answer in a group whose instructions have the bytes `pre`. -/
theorem DecodeAnswer.ofOption {pre rest : List Byte} {o : Option Instr} (h : ∀ i, o = some i → encode i = pre) :
    DecodeAnswer (pre ++ rest) (Decoded.ofOption o rest) := by
  cases o with
  | none => exact .notNamed
  | some i => exact .instr i rest (by rw [h i rfl])

theorem decode_answer (bs : List Byte) : DecodeAnswer bs (decode bs) := by
  fun_cases decode bs with
  | case1 => exact .truncated (by simp)
  | case2 bs => exact .instr .nop bs rfl
  | case3 bs => exact .instr .bkpt bs rfl
  | case4 b rest => exact .ofOption (pre := [0xD6, b]) fun _ => encode_of_decodeD6
  | case5 => exact .truncated (by simp)
  | case6 b c rest => exact .ofOption (pre := [0x08, b, c]) fun _ => encode_of_decodeBitOp
  | case7 bs short =>
    obtain _ | ⟨b, _ | ⟨c, rest⟩⟩ := bs
    · exact .truncated (by simp)
    · exact .truncated (by simp)
    · exact (short b c rest rfl).elim
  | case8 b c d rest => exact .ofOption (pre := [0x96, b, c, d]) fun _ => encode_of_decodeDirect
  | case9 bs short =>
    obtain _ | ⟨b, _ | ⟨c, _ | ⟨d, rest⟩⟩⟩ := bs
    · exact .truncated (by simp)
    · exact .truncated (by simp)
    · exact .truncated (by simp)
    · exact (short b c d rest rfl).elim
  | case10 => exact .notNamed

/-- The decoder reads an instruction from the bytes of its encoding alone. -/
theorem eq_encode_of_decode {bs rest : List Byte} {i : Instr} (h : decode bs = .instr i rest) :
    bs = encode i ++ rest := by
  obtain ⟨_, _, heq⟩ := h ▸ decode_answer bs
  exact heq

/-- Four bytes hold any of the nine instructions: of four or more, what is no encoding is none by name. -/
theorem decode_of_ne_encode {bs : List Byte} (hlen : 4 ≤ bs.length) (hne : ∀ i rest, bs ≠ encode i ++ rest) :
    decode bs = .rejected .notNamed := by
  match decode bs, decode_answer bs with
  | _, .instr i rest h => exact absurd h (hne i rest)
  | _, .notNamed => rfl
  | _, .truncated h => omega

end Sys2Proof

namespace Sys2Proof.Machine

/-- Settles O1, by the fields of each instruction's bytes. -/
theorem decodeAfterEncodeIsIdentity : Obligations.DecodeAfterEncodeIsIdentity :=
  fun i rest => ⟨decode_encode i rest, length_encode i⟩

/-- Settles O2, by the answers the decoder can give. -/
theorem decoderReadsOnlyEncodings : Obligations.DecoderReadsOnlyEncodings :=
  ⟨fun _ _ _ => eq_encode_of_decode, fun _ => decode_of_ne_encode⟩

/-- Settles O3: the encoder gives the six byte strings, and the default map the four addresses. -/
theorem workedEncodingsDecode : Obligations.WorkedEncodingsDecode :=
  ⟨decode_encode (.movb 0x401 0x80) [], decode_encode (.movb 0x400 0x00) [], decode_encode (.orb 0x47A 0x01) [],
    decode_encode (.setb 0x350) [], decode_encode (.clr 0x350) [], decode_encode (.trap 5) [], rfl, rfl, rfl, rfl⟩

end Sys2Proof.Machine

/-! Instruction forms outside the spec (30_encoding.md R107, R108; 92_eei_decisions.md D35): which byte strings an
opaque step is a meaning of (log 28, log 42), and the refusal where none is supplied. -/

namespace Sys2Proof.Machine

variable {s : State} {o : OpaqueStep}

/-! ### Lengths (log 42) -/

/-- Two bytes that begin one of the nine instructions give that one's length. -/
theorem instrLength_of_decode {a b : Byte} {i : Instr} {rest : List Byte} (h : decode [a, b, 0, 0] = .instr i rest)
    (c : Config) : instrLength c a b = some i.length := by
  simp only [instrLength, namedLength, h]

/-- An opaque step is a meaning of the bytes at the pc: 1 to 6, as many as the first two say. -/
theorem opaqueMatches_iff :
    opaqueMatches o s = true ↔
      instrLength s.cfg (codeByte s (nextPc s 0)) (codeByte s (nextPc s 1)) = some o.bytes.length ∧
        1 ≤ o.bytes.length ∧ o.bytes.length ≤ 6 ∧ fetchBytes s o.bytes.length = o.bytes := by
  unfold opaqueMatches
  cases instrLength s.cfg (codeByte s (nextPc s 0)) (codeByte s (nextPc s 1)) with
  | none => simp
  | some n =>
    simp only [Bool.and_eq_true, decide_eq_true_eq, beq_iff_eq, Option.some.injEq]
    constructor
    · rintro ⟨⟨⟨h1, h6⟩, rfl⟩, hf⟩
      exact ⟨rfl, h1, h6, hf⟩
    · rintro ⟨rfl, h1, h6, hf⟩
      exact ⟨⟨⟨h1, h6⟩, rfl⟩, hf⟩

/-- Of two bytes or more at the pc, the first two are those that decide the length. -/
theorem take_two_fetchBytes (s : State) {n : Nat} (h : 2 ≤ n) :
    (fetchBytes s n).take 2 = [codeByte s (nextPc s 0), codeByte s (nextPc s 1)] := by
  rw [fetchBytes, ← List.map_take, List.take_range, Nat.min_eq_left h]
  rfl

theorem take_two_of_opaqueMatches (h : opaqueMatches o s = true) (h2 : 2 ≤ o.bytes.length) :
    o.bytes.take 2 = [codeByte s (nextPc s 0), codeByte s (nextPc s 1)] := by
  obtain ⟨-, -, -, hf⟩ := opaqueMatches_iff.1 h
  rw [← take_two_fetchBytes s h2, hf]

/-- Opaque steps whose strings begin with the same two bytes are equally long: one byte each, or as those two say. -/
theorem length_eq_of_take_two_eq {o' : OpaqueStep} {s' : State} (hc : s'.cfg = s.cfg) (h : opaqueMatches o s = true)
    (h' : opaqueMatches o' s' = true) (e : o'.bytes.take 2 = o.bytes.take 2) : o'.bytes.length = o.bytes.length := by
  obtain ⟨hl, h1, -, -⟩ := opaqueMatches_iff.1 h
  obtain ⟨hl', h1', -, -⟩ := opaqueMatches_iff.1 h'
  have len := congrArg List.length e
  simp only [List.length_take] at len
  by_cases h2 : 2 ≤ o.bytes.length
  · rw [take_two_of_opaqueMatches h h2, take_two_of_opaqueMatches h' (by omega)] at e
    simp only [List.cons.injEq, and_true] at e
    rw [hc, e.1, e.2, hl] at hl'
    exact (Option.some.inj hl').symm
  · omega

/-! ### Refusals (log 28) -/

/-- With no opaque step that is a meaning of the bytes at the pc, the refusal stands. -/
theorem runOpaque_of_no_match (h : ∀ o os, s.supplied = o :: os → opaqueMatches o s = false)
    (x : Host.Outcome State Fault Refusal) : runOpaque s x = x := by
  unfold runOpaque
  cases e : s.supplied with
  | nil => rfl
  | cons o os => simp [h o os e]

theorem runInstr_of_rejected {why : DecodeReject} (h : decode (fetchBytes s 4) = .rejected why) :
    runInstr s = runOpaque s (.refused .notNamed) := by
  simp [runInstr, h]

theorem runInstr_of_not_wellFormed {i : Instr} {rest : List Byte} (h : decode (fetchBytes s 4) = .instr i rest)
    (hw : wellFormed s.cfg i = false) : runInstr s = runOpaque s (exec i s) := by
  simp [runInstr, h, hw]

end Sys2Proof.Machine

namespace Sys2Proof.Machine

/-- Settles O52: `opaqueMatches_iff`, with the length of the one of the nine where the bytes begin one. -/
theorem opaqueLengthsFollowTheFirstTwoBytes : Obligations.OpaqueLengthsFollowTheFirstTwoBytes := by
  refine ⟨fun o s h => ?_, fun o o' s s' => length_eq_of_take_two_eq⟩
  obtain ⟨hl, h1, h6, hf⟩ := opaqueMatches_iff.1 h
  refine ⟨h1, h6, hf, fun i rest hd => ?_⟩
  rw [instrLength_of_decode hd] at hl
  exact (Option.some.inj hl).symm

/-- Settles O8: a boundary that takes nothing executes the bytes at the pc, and the operands name nothing. -/
theorem unnamedFormsRefused : Obligations.UnnamedFormsRefused := by
  refine ⟨?step, fun s a d h => ⟨withDirect_none h _, withDirect_none h _⟩,
    fun s b h => ⟨withBit_none h _, withBit_none h _⟩⟩
  rintro s u rfl hp ha hnone
  have run : step s = runInstr (takeInputs s) := cpuStep_of_quiet hp ha
  refine ⟨fun why hd => ?rejected, fun i rest hd hw => ?illFormed⟩
  case rejected => rw [run, runInstr_of_rejected hd, runOpaque_of_no_match hnone]
  case illFormed => rw [run, runInstr_of_not_wellFormed hd hw, runOpaque_of_no_match hnone]

end Sys2Proof.Machine

/-! The state an interrupt sequence leaves (60_exceptions.md R133; 20_memory.md R81, R82), and RETI as its inverse
(40_interrupt_instructions.md R111; 60_exceptions.md R193). -/

namespace Sys2Proof.Machine

variable {s t u : State} {va : Word} {ret : CodeAddr}

/-! ### Code addresses of the mode (10_state.md R21; log 32) -/

theorem modeAddr_of_native (h : page0Mode s = false) (a : CodeAddr) : modeAddr s a = a := by simp [modeAddr, h]

/-- Page 0 Mode changes no bit of PC[15:0]. -/
@[simp] theorem addrLow_modeAddr (s : State) (a : CodeAddr) : addrLow (modeAddr s a) = addrLow a := by
  unfold modeAddr
  split
  · exact addrLow_page0 _
  · rfl

/-! ### After a sequence -/

/-- State t is what the sequence of the vector at va with return address ret makes of s, whatever is pending in t: the
vector is loaded, the frame lies below the pointer s had, and all else is as in s. -/
structure Serviced (va : Word) (ret : CodeAddr) (s t : State) : Prop where
  newPsw : psw t = codeRead16 s va
  newPc : t.pc = page0 (codeRead16 s (va + 2#16))
  ssp : t.ssp = s.ssp - BitVec.ofNat 16 (frameSize s)
  usp : t.usp = s.usp
  retLow : memRead16 t (s.ssp - 2#16) = addrLow ret
  retHigh : page0Mode s = false → memRead16 t (s.ssp - 4#16) = (addrHigh ret).setWidth 16
  oldPsw : memRead16 t t.ssp = psw s
  outside : sameDataOutside s.ssp (frameSize s) s t
  sfrs : sameSfrs s t
  rest : untouched s t

theorem frameSize_of_native (h : page0Mode s = false) : frameSize s = 6 := by simp [frameSize, h]

theorem frameSize_of_page0 (h : page0Mode s = true) : frameSize s = 4 := by simp [frameSize, h]

/-- What the sequence does, mode by mode. -/
theorem serviced_of_service (e : service va ret s = .next t) : Serviced va ret s t := by
  obtain ⟨newPc, newPsw, ssp⟩ := service_next_pc e
  obtain ⟨cfg, usp, regs, ds, sfr, code, inputs, supplied, -⟩ := service_frame e
  have bytes := dataByte_service e
  have words := memRead16_of_sameBytes bytes
  have rest : untouched s t :=
    ⟨codeByte_congr code, ⟨fun i => congrArg (Memory.read regFill · i) regs, ds⟩, cfg, inputs, supplied⟩
  cases h : page0Mode s with
  | false =>
    obtain ⟨low, high, old⟩ := memRead16_pushFrame_native ret h
    rw [h] at ssp
    exact
      { newPsw, newPc, usp, rest
        ssp := by rw [ssp, frameSize_of_native h]; rfl
        retLow := by rw [words, low]
        retHigh := fun _ => by rw [words, high]
        oldPsw := by rw [words, ssp]; exact old
        outside := fun a ha => by
          rw [frameSize_of_native h] at ha
          rw [bytes, pushFrame_sameDataOutside_native ret h a ha]
        sfrs := fun r => sfrGet_congr_sfr sfr }
  | true =>
    obtain ⟨low, old⟩ := memRead16_pushFrame_page0 ret h
    rw [h] at ssp
    exact
      { newPsw, newPc, usp, rest
        ssp := by rw [ssp, frameSize_of_page0 h]; rfl
        retLow := by rw [words, low]
        retHigh := fun native => by rw [h] at native; cases native
        oldPsw := by rw [words, ssp]; exact old
        outside := fun a ha => by
          rw [frameSize_of_page0 h] at ha
          rw [bytes, pushFrame_sameDataOutside_page0 ret h a ha]
        sfrs := fun r => sfrGet_congr_sfr sfr }

/-- The frame for an address of the mode is the frame for the address itself: Page 0 Mode keeps PC[15:0] alone. -/
theorem Serviced.of_modeAddr {a : CodeAddr} (h : Serviced va (modeAddr s a) s t) : Serviced va a s t where
  __ := h
  retLow := by rw [h.retLow, addrLow_modeAddr]
  retHigh native := by rw [h.retHigh native, modeAddr_of_native native]

/-! ### RETI -/

theorem exec_reti_of_odd (hm : systemMode s = true) (odd : isOdd s.ssp = true) :
    exec .reti s = .refused .oddStackPointer := by
  simp [exec, execReti, hm, odd]

theorem exec_reti_of_even (hm : systemMode s = true) (even : isOdd s.ssp = false) :
    exec .reti s = .next (popFrame s) := by
  simp [exec, execReti, hm, even]

/-- A word of the frame reads the same wherever the bytes of the frame do. -/
theorem memRead16_of_sameFrame {S : Word} {n : Nat} (h : ∀ a, inFrame S n a = true → dataByte u a = dataByte t a)
    (j : Nat) (h2 : 2 ≤ j) (hj : j ≤ n) :
    memRead16 u (S - BitVec.ofNat 16 j) = memRead16 t (S - BitVec.ofNat 16 j) := by
  have next : S - BitVec.ofNat 16 j + 1#16 = S - BitVec.ofNat 16 (j - 1) := by
    have succ : BitVec.ofNat 16 j = BitVec.ofNat 16 (j - 1) + 1#16 := by
      rw [← BitVec.ofNat_add, Nat.sub_add_cancel (by omega)]
    rw [succ]
    bv_omega
  rw [memRead16, memRead16, next, h _ (inFrame_sub S (by omega) (by omega)), h _ (inFrame_sub S (by omega) hj)]

/-- The pops of RETI on the frame of a sequence, in the mode it was pushed in, give back what the frame holds. -/
theorem popFrame_of_serviced (done : Serviced va ret s t) (hz : page0Mode u = page0Mode s) (hu : u.ssp = t.ssp)
    (frame : ∀ a, inFrame s.ssp (frameSize s) a = true → dataByte u a = dataByte t a) :
    (popFrame u).pc = modeAddr s ret ∧ psw (popFrame u) = psw s ∧ (popFrame u).ssp = s.ssp := by
  have words := memRead16_of_sameFrame frame
  have top : u.ssp = s.ssp - BitVec.ofNat 16 (frameSize s) := by rw [hu, done.ssp]
  have old : memRead16 u u.ssp = psw s := by
    rw [← done.oldPsw, ← hu, top]
    exact words (frameSize s) (by unfold frameSize; split <;> decide) le_rfl
  obtain ⟨hpsw, page0, native⟩ := popFrame_eq u
  cases h : page0Mode s with
  | false =>
    obtain ⟨pc, ssp⟩ := native (hz.trans h)
    rw [frameSize_of_native h] at words top
    have high : dataByte u (s.ssp - 4#16) = addrHigh ret := by
      rw [← loByte_memRead16, words 4 (by decide) (by decide), done.retHigh h, ← mkWord_zero, loByte_mkWord]
    have low : memRead16 u (s.ssp - 2#16) = addrLow ret := by rw [words 2 (by decide) (by decide), done.retLow]
    refine ⟨?_, hpsw.trans old, by rw [ssp, top, BitVec.sub_add_cancel]⟩
    rw [pc, top, show s.ssp - 6#16 + 2#16 = s.ssp - 4#16 by bv_omega,
      show s.ssp - 6#16 + 4#16 = s.ssp - 2#16 by bv_omega, high, low, mkAddr_addrHigh_addrLow, modeAddr_of_native h]
  | true =>
    obtain ⟨pc, ssp⟩ := page0 (hz.trans h)
    rw [frameSize_of_page0 h] at words top
    have low : memRead16 u (s.ssp - 2#16) = addrLow ret := by rw [words 2 (by decide) (by decide), done.retLow]
    refine ⟨?_, hpsw.trans old, by rw [ssp, top, BitVec.sub_add_cancel]⟩
    rw [pc, top, show s.ssp - 4#16 + 2#16 = s.ssp - 2#16 by bv_omega, low, modeAddr, h, if_pos rfl]

end Sys2Proof.Machine

namespace Sys2Proof.Machine

/-- Settles O15: the pops find the words the sequence pushed. -/
theorem retiUndoesTheSequence : Obligations.RetiUndoesTheSequence := by
  intro s t u va ret e hm hz hu frame
  obtain ⟨pc, old, ssp⟩ := popFrame_of_serviced (serviced_of_service e) hz hu frame
  exact ⟨popFrame u, exec_reti_of_service e hm hu, pc, old, ssp, popFrame_usp u, dataByte_congr (popFrame_data u)⟩

/-- Settles O18: TRAP is the sequence of its vector with the next instruction's address. -/
theorem trapTakesItsVector : Obligations.TrapTakesItsVector := by
  have run : ∀ (s : State) n, exec (.trap n) s = service (trapVector n) (modeAddr s (s.pc + 2#24)) s := fun _ _ => rfl
  refine ⟨fun s n even aligned => ?_, fun s n odd => by simp [run, service, odd],
    fun s n even odd => by simp [run, service, even, odd]⟩
  obtain ⟨t, e⟩ : ∃ t, exec (.trap n) s = .next t := ⟨_, service_of_even even aligned⟩
  have done := (serviced_of_service ((run s n).symm.trans e)).of_modeAddr
  obtain ⟨-, -, -, -, -, -, -, -, hold, -, pending, -⟩ := service_frame ((run s n).symm.trans e)
  have slot : trapVector n + 2#16 = 0x42#16 + 4#16 * n.setWidth 16 := by rw [trapVector, add_right_comm]; rfl
  exact ⟨t, e, done.newPsw, slot ▸ done.newPc, done.ssp, done.usp, done.retLow, done.retHigh, done.oldPsw, done.outside,
    done.sfrs, done.rest, hold, pending⟩

/-- Settles O19, by what the pops do in each of the two modes. -/
theorem retiPopsTheFrame : Obligations.RetiPopsTheFrame := by
  refine ⟨fun s hm even => ?_, fun s => exec_reti_of_odd⟩
  obtain ⟨old, page0, native⟩ := popFrame_eq s
  exact ⟨popFrame s, exec_reti_of_even hm even, old, native, page0, popFrame_usp s, popFrame_pending s,
    dataByte_congr (popFrame_data s), fun _ => sfrGet_congr_sfr (popFrame_sfr s),
    ⟨codeByte_congr (popFrame_code s), ⟨fun i => congrArg (Memory.read regFill · i) (popFrame_regs s), popFrame_ds s⟩,
      popFrame_cfg s, popFrame_inputs s, popFrame_supplied s⟩, popFrame_hold s⟩

end Sys2Proof.Machine

/-! BKPT, RESET, and RETI in User Mode (40_interrupt_instructions.md R111 to R113): each raises an exception, which the
next step takes (60_exceptions.md R136, R190; 92_eei_decisions.md D6; log 7). -/

namespace Sys2Proof.Machine

variable {s t u : State} {va : Word} {ret : CodeAddr} {e : Exc}

/-! ### Raising an exception -/

theorem exec_bkpt (s : State) : exec .bkpt s = .next (setPc (nextPc s Instr.bkpt.length) (raise .breakpoint s)) := rfl

theorem exec_reti_userMode (hm : systemMode s = false) :
    exec .reti s = .next (setPc (nextPc s Instr.reti.length) (raise .userReti s)) := by
  simp [exec, execReti, hm]

theorem exec_reset_systemMode (hm : systemMode s = true) : exec .reset s = .next (raise .reset s) := by
  simp [exec, execReset, hm]

theorem exec_reset_userMode (hm : systemMode s = false) : exec .reset s = .refused .resetInUserMode := by
  simp [exec, execReset, hm]

/-- An exception raised changes the pending set alone. -/
theorem raise_frame (e : Exc) (s : State) : let t := raise e s
    psw t = psw s ∧ sameStacks s t ∧ sameData s t ∧ sameSfrs s t ∧ untouched s t ∧ t.hold = s.hold :=
  ⟨rfl, ⟨rfl, rfl⟩, fun _ => rfl, fun _ => sfrGet_congr_sfr rfl, ⟨fun _ => rfl, ⟨fun _ => rfl, rfl⟩, rfl, rfl, rfl⟩,
    rfl⟩

/-- The next instruction's address, already one of the mode, is taken as it is. -/
theorem modeAddr_nextPc (s : State) (n : Nat) : modeAddr s (nextPc s n) = nextPc s n := modeAddr_modeAddr s _

/-! ### The step that executes the instruction -/

/-- A step that takes nothing at its boundary and decodes a form of the spec is the execution of it. -/
theorem step_of_decode {i : Instr} {rest : List Byte} (hi : s.inputs = []) (hp : s.pending = Pending.empty)
    (ha : acceptable s = none) (hd : decode (fetchBytes s 4) = .instr i rest) (hw : wellFormed s.cfg i = true) :
    step s = finish (fetchBytes s i.length) (instrDelays s.cfg i) s (exec i s) := by
  rw [step, takeInputs_nil hi, cpuStep_of_quiet hp ha, runInstr, hd]
  simp [hw]

/-- With TM = 0 before and after, the CPU adds the shadow alone to a completed instruction. -/
theorem finishState_of_untraced (hs : traceMode s = false) (ht : traceMode t = false) (bytes : List Byte)
    (delays : Bool) : finishState bytes delays s t = { t with hold := holdAfter s.cfg delays } := by
  rw [finishState_eq, traceRaised_of_untraced hs ht]
  simp

/-- What the CPU adds withdraws no exception. -/
theorem finishState_has (bytes : List Byte) (delays : Bool) (s : State) (h : t.pending.has e = true) :
    (finishState bytes delays s t).pending.has e = true := by
  rw [finishState_eq]
  dsimp only
  split
  · rw [Pending.has_add, h, Bool.or_true]
  · exact h

theorem bitOf_ea (s : State) : bitOf .ea s = s.sfr.iel.getLsbD (bitPos s.cfg .ea) := rfl

/-! ### The step that takes the exception -/

/-- Of one pending exception, neither Reset nor NMI, the order of service is that exception. -/
theorem filter_byPrecedence_add (c : Config) (hr : e ≠ .reset) (hn : e ≠ .nmi) :
    (byPrecedence c).filter (Pending.empty.add e).has = [e] := by
  unfold byPrecedence
  cases e with
  | reset => exact absurd rfl hr
  | nmi => exact absurd rfl hn
  | breakpoint => split <;> rfl
  | trace => split <;> rfl
  | stackOverflow => split <;> rfl
  | divideByZero => split <;> rfl
  | userReti => split <;> rfl

/-- A Trace raised after the sequence changes the pending set alone. -/
theorem Serviced.traceAfter (h : Serviced va ret s t) (x : Completed) (u : State) :
    Serviced va ret s (traceAfter x u t) := by
  unfold Machine.traceAfter
  split
  · exact { h with }
  · exact h

/-- The step that services one pending exception, neither Reset nor NMI, runs its sequence with the pc as return
address. -/
theorem step_services_pending (hi : s.inputs = []) (hp : s.pending = Pending.empty.add e) (hr : e ≠ .reset)
    (hn : e ≠ .nmi) (even : isOdd s.ssp = false) (aligned : isOdd (codeRead16 s (excVector e + 2#16)) = false) :
    ∃ t, step s = .next t ∧ Serviced (excVector e) s.pc s t := by
  obtain ⟨u, hu⟩ : ∃ u, service (excVector e) s.pc (clearPending s) = .next u := ⟨_, service_of_even even aligned⟩
  have noReset : s.pending.reset = false := by
    rw [hp, ← Pending.has_reset, Pending.has_add, decide_eq_false (Ne.symm hr)]
    rfl
  have run : step s = .next (traceAfter .sequence (clearPending s) u) := by
    have taken : takeInterrupt (excVector e) (clearPending s) = _ := takeInterrupt_of_service hu
    rw [step, takeInputs_nil hi, cpuStep, if_neg (by simp [noReset]), if_pos (hp ▸ Pending.add_ne_empty _ e),
      servicePending, hp, filter_byPrecedence_add _ hr hn, serviceAll, taken]
    rfl
  exact ⟨_, run, { (serviced_of_service hu).traceAfter .sequence (clearPending s) with }⟩

/-! ### The two steps -/

/-- What an instruction of n bytes leaves that raises e and goes on, with the shadow after it. -/
def afterRaise (e : Exc) (n : Nat) (hold : Bool) (s : State) : State :=
  { setPc (nextPc s n) (raise e s) with hold := hold }

/-- With TM = 0 the step that executes such an instruction adds no Trace. -/
theorem step_of_raises {i : Instr} {rest : List Byte} (hi : s.inputs = []) (hp : s.pending = Pending.empty)
    (ha : acceptable s = none) (untraced : traceMode s = false) (hd : decode (fetchBytes s 4) = .instr i rest)
    (hw : wellFormed s.cfg i = true) (raises : exec i s = .next (setPc (nextPc s i.length) (raise e s))) :
    step s = .next (afterRaise e i.length (holdAfter s.cfg (instrDelays s.cfg i)) s) := by
  have after : traceMode (setPc (nextPc s i.length) (raise e s)) = false := untraced
  rw [step_of_decode hi hp ha hd hw, raises, finish, andThen_next, finishState_of_untraced untraced after]
  rfl

/-- What the sequence makes of that state it makes of the one the instruction began in: the frame and the vector depend
on neither the pending set nor the shadow, and the return address is the next instruction's. -/
theorem Serviced.of_afterRaise {n : Nat} {hold : Bool}
    (h : Serviced va (afterRaise e n hold s).pc (afterRaise e n hold s) u) :
    Serviced va (s.pc + BitVec.ofNat 24 n) s u := by
  have here : Serviced va (modeAddr s (nextPc s n)) s u := { h with }
  rw [modeAddr_nextPc] at here
  exact here.of_modeAddr

/-- Two steps at an instruction that raises one exception and goes on: the sequence of that exception with the next
instruction's address. -/
theorem steps_service_raised {i : Instr} {rest : List Byte} (hi : s.inputs = []) (hp : s.pending = Pending.empty)
    (ha : acceptable s = none) (untraced : traceMode s = false) (hd : decode (fetchBytes s 4) = .instr i rest)
    (hw : wellFormed s.cfg i = true) (raises : exec i s = .next (setPc (nextPc s i.length) (raise e s)))
    (hr : e ≠ .reset) (hn : e ≠ .nmi) (even : isOdd s.ssp = false)
    (aligned : isOdd (codeRead16 s (excVector e + 2#16)) = false) :
    ∃ t u, step s = .next t ∧ step t = .next u ∧
      Serviced (excVector e) (s.pc + BitVec.ofNat 24 i.length) s u := by
  obtain ⟨u, second, done⟩ :=
    step_services_pending (s := afterRaise e i.length (holdAfter s.cfg (instrDelays s.cfg i)) s) hi
      (congrArg (·.add e) hp) hr hn even aligned
  exact ⟨_, u, step_of_raises hi hp ha untraced hd hw raises, second, done.of_afterRaise⟩

end Sys2Proof.Machine

namespace Sys2Proof.Machine

/-- Settles O20: User RETI is raised and the pc goes on. -/
theorem retiInUserModeRaisesUserReti : Obligations.RetiInUserModeRaisesUserReti := fun s hm =>
  ⟨_, exec_reti_userMode hm, rfl, modeAddr_nextPc s 2, raise_frame .userReti s⟩

/-- Settles O21: Breakpoint is raised and the pc goes on. -/
theorem bkptRaisesBreakpoint : Obligations.BkptRaisesBreakpoint := fun s =>
  ⟨_, exec_bkpt s, rfl, modeAddr_nextPc s 1, raise_frame .breakpoint s⟩

/-- Settles O24, mode by mode. -/
theorem resetInstructionRaisesReset : Obligations.ResetInstructionRaisesReset :=
  ⟨fun s hm => ⟨_, exec_reset_systemMode hm, rfl, rfl, raise_frame .reset s⟩, fun _ => exec_reset_userMode⟩

/-- Settles O22, by `steps_service_raised`. -/
theorem bkptEntersItsHandler : Obligations.BkptEntersItsHandler := by
  intro s rest hi hp ha untraced hd even aligned
  obtain ⟨t, u, first, second, done⟩ := steps_service_raised hi hp ha untraced hd rfl (exec_bkpt s) (by decide)
    (by decide) even aligned
  exact ⟨t, u, first, second, done.newPsw, done.newPc, done.ssp, done.retLow, done.retHigh, done.oldPsw, done.outside,
    done.sfrs, done.rest⟩

/-- Settles O23, by `steps_service_raised`. -/
theorem userRetiEntersItsHandler : Obligations.UserRetiEntersItsHandler := by
  intro s rest hi hp ha untraced hm hd even aligned
  obtain ⟨t, u, first, second, done⟩ := steps_service_raised hi hp ha untraced hd rfl (exec_reti_userMode hm)
    (by decide) (by decide) even aligned
  exact ⟨t, u, first, second, done.newPsw, done.newPc, done.ssp, done.retLow, done.retHigh, done.oldPsw, done.outside,
    done.sfrs, done.rest⟩

/-- Settles O50: whatever Trace adds to the pending set, Reset is in it, and the next step is the reset sequence. -/
theorem resetInstructionResets : Obligations.ResetInstructionResets := by
  intro s rest hi hp ha hm hd aligned
  have first : step s = .next (finishState (fetchBytes s Instr.reset.length) false s (raise .reset s)) := by
    rw [step_of_decode hi hp ha hd rfl, exec_reset_systemMode hm]
    rfl
  obtain ⟨u, reset⟩ := doReset_of_even (s := finishState (fetchBytes s Instr.reset.length) false s (raise .reset s))
    (by rw [finishState_eq]; exact aligned)
  have second := (step_of_pending_reset (by rw [finishState_eq]; exact hi)
    (finishState_has (e := .reset) _ _ _ rfl)).trans reset
  rw [finishState_eq] at reset
  obtain ⟨-, -, newPsw, newPc, ssp, usp, -, -, sfr, empty, code, data, -⟩ := doReset_eq_next reset
  refine ⟨_, u, first, second, empty, newPsw, newPc, ssp, usp, ?_,
    dataByte_congr data, codeByte_congr code⟩
  rw [bitOf_ea, sfr]
  exact BitVec.getLsbD_zero

end Sys2Proof.Machine

/-! A divide with divisor zero (40_interrupt_instructions.md R114; 92_eei_decisions.md D25, D35; log 28, log 29): an
opaque step whose destinations are free, and the exception it raises. -/

namespace Sys2Proof.Machine

variable {s t u : State} {o : OpaqueStep}

/-- Two pending sets with the same members are one. -/
theorem Pending.ext_has {p q : Pending} (h : ∀ e, p.has e = q.has e) : p = q := by
  obtain ⟨a, b, c, d, e, f, g⟩ := p
  rw [Pending.mk.injEq]
  exact ⟨h .reset, h .breakpoint, h .trace, h .stackOverflow, h .divideByZero, h .userReti, h .nmi⟩

/-! ### The free destinations -/

/-- What an opaque step with divisor zero does to its destinations, as a step that is no divide. -/
def OpaqueStep.asFreed (o : OpaqueStep) (s : State) : OpaqueStep := { o.freed s.freeCtr with divisor := none }

/-- The state in which those destinations are written. -/
def raisedDivide (o : OpaqueStep) (s : State) : State :=
  raise .divideByZero { s with freeCtr := s.freeCtr + o.freedCount }

/-- An opaque step with divisor zero is the step with its destinations free, DivideByZero raised. -/
theorem execOpaque_of_zero_divisor (h : o.divisor = some 0) (s : State) :
    execOpaque o s = execOpaque (o.asFreed s) (raisedDivide o s) := by
  rw [execOpaque, if_pos h, execOpaque, if_neg (by simp [OpaqueStep.asFreed])]
  rfl

/-- With its destinations free a step writes PSWH as often as it names it. -/
theorem length_pswhWrites_asFreed (o : OpaqueStep) (s : State) :
    (pswhWrites (o.asFreed s).sfrs).length = (pswhWrites o.sfrs).length := by
  have count : ∀ ws : List (Sfr × Byte),
      (pswhWrites ws).length = (ws.map Prod.fst).countP (fun r => decide (r = .pswh)) :=
    fun ws => by simp [pswhWrites, List.countP_eq_length_filter, List.filter_map, Function.comp_def]
  obtain ⟨-, -, sfrs, -⟩ := o.freed_places s.freeCtr
  rw [count, count, ← sfrs]
  rfl

/-- A single write of PSWH in System Mode is no attempt on a protected bit, and neither is none in User Mode. -/
theorem pswhAttempted_of_length_le {vs : List Byte} (h : vs.length ≤ if systemMode s then 1 else 0) :
    pswhAttempted s.cfg vs s.pswh = false := by
  cases hm : systemMode s with
  | false =>
    rw [hm] at h
    rw [List.length_eq_zero_iff.1 (Nat.le_zero.1 h)]
    rfl
  | true =>
    rw [hm] at h
    match vs, h with
    | [], _ => rfl
    | [v], _ =>
      have sm : s.pswh.getLsbD (bitPos s.cfg .sm) = true := hm
      simp [pswhAttempted, pswhAttempt, sm]

/-- No write among those of other registers is one of PSWH. -/
theorem pswhWrites_eq_nil {ws : List (Sfr × Byte)} (h : ∀ p ∈ ws, p.1 ≠ .pswh) : pswhWrites ws = [] := by
  rw [pswhWrites, List.map_eq_nil_iff, List.filter_eq_nil_iff]
  simpa using h

/-! ### The execution -/

/-- State t is what an opaque step with divisor zero makes of s: DivideByZero pending, the pc at the next instruction,
its destinations and the flags open, and all else as in s. -/
structure DividedByZero (o : OpaqueStep) (s t : State) : Prop where
  /-- Besides DivideByZero, at most what USER_PSWH_WRITE says of an attempt on PSWH (log 16). -/
  pending : ∀ e, t.pending.has e = ((s.pending.add .divideByZero).has e ||
    (pswhAttempted s.cfg (pswhWrites (o.asFreed s).sfrs) s.pswh && decide (s.cfg.userPswhWrite = .exception e)))
  pswh : (∀ p ∈ o.sfrs, p.1 ≠ .pswh) → t.pswh = s.pswh
  pc : t.pc = modeAddr t (nextPc s o.bytes.length)
  regs : ∀ i, i ∉ o.regs.map Prod.fst → regGet t i = regGet s i
  ds : o.ds = none → t.ds = s.ds
  data : ∀ a, a ∉ o.stores.map Prod.fst → dataByte t a = dataByte s a
  sfrs : ∀ r, r ∉ o.sfrs.map Prod.fst → r ≠ .pswh → r ≠ .pswl → sfrGet r t = sfrGet r s
  ssp : (∀ p ∈ o.sps, p.1.isSystem s = false) → t.ssp = s.ssp
  usp : (∀ p ∈ o.sps, p.1.isSystem s = true) → t.usp = s.usp
  code : sameCode s t
  cfg : t.cfg = s.cfg
  inputs : t.inputs = s.inputs
  supplied : t.supplied = s.supplied
  hold : t.hold = s.hold

/-- With its destinations free a step writes PSWH only if it names it. -/
theorem pswhWrites_asFreed_eq_nil (s : State) (h : ∀ p ∈ o.sfrs, p.1 ≠ .pswh) : pswhWrites (o.asFreed s).sfrs = [] := by
  rw [← List.length_eq_zero_iff, length_pswhWrites_asFreed, pswhWrites_eq_nil h]
  rfl

/-- The pointer of a stack that no destination names keeps its value. -/
theorem pointer_asFreed_of_unnamed {b : Bool} (h : ∀ p ∈ o.sps, p.1.isSystem s = !b) :
    (o.asFreed s).pointer (raisedDivide o s) b = if b then s.ssp else s.usp := by
  obtain ⟨-, -, -, sps, -⟩ := o.freed_places s.freeCtr
  refine lastWrite_of_not_mem (fun hb => ?_) _
  have named : b ∈ ((o.asFreed s).sps.map Prod.fst).map (StackName.isSystem · s) := by
    rw [List.map_map] at hb ⊢
    exact hb
  rw [show (o.asFreed s).sps.map Prod.fst = o.sps.map Prod.fst from sps, List.map_map, List.mem_map] at named
  obtain ⟨p, hp, hb⟩ := named
  exact absurd ((h p hp).symm.trans hb) (by simp)

/-- The execution completes where no write of PSWH stops the machine, and does so by `opaqueStepEffect`. -/
theorem execOpaque_dividesByZero (h : o.divisor = some 0)
    (goes : s.cfg.userPswhWrite ≠ .fault ∨ (pswhWrites o.sfrs).length ≤ if systemMode s then 1 else 0) :
    ∃ t, execOpaque o s = .next t ∧ DividedByZero o s t := by
  obtain ⟨regs, stores, sfrs, -, ds, -⟩ := o.freed_places s.freeCtr
  obtain ⟨-, completes⟩ := opaqueStepEffect (o.asFreed s) (raisedDivide o s) nofun
  have noFault : pswhAttempted s.cfg (pswhWrites (o.asFreed s).sfrs) s.pswh = true → s.cfg.userPswhWrite ≠ .fault := by
    intro tried
    rcases goes with goes | goes
    · exact goes
    · rw [← length_pswhWrites_asFreed o s] at goes
      rw [pswhAttempted_of_length_le goes] at tried
      cases tried
  have noPushes : (o.asFreed s).pushes = [] := rfl
  have noTarget : (o.asFreed s).target = none := rfl
  obtain ⟨t, run, tregs, tds, tssp, tusp, tdata, -, -, tsfrs, tpswh, tpc, tpending, tcode, tcfg, tinputs, tsupplied,
    thold⟩ := completes noFault
  simp only [noPushes, noTarget, pushesAt, List.flatMap_nil, List.append_nil, List.countP_nil, Nat.mul_zero,
    List.any_nil, Bool.and_false, Bool.or_false, Option.getD_none] at tssp tusp tdata tpending tpc
  refine ⟨t, (execOpaque_of_zero_divisor h s).trans run,
    { pending := tpending, pc := tpc, code := tcode, cfg := tcfg, inputs := tinputs, supplied := tsupplied
      hold := thold, pswh := ?pswh, regs := ?regs, ds := ?ds, data := ?data, sfrs := ?sfrs, ssp := ?ssp, usp := ?usp }⟩
  case pswh =>
    intro hw
    rw [tpswh, pswhWrites_asFreed_eq_nil s hw]
    rfl
  case regs =>
    intro i hi
    rw [← regs] at hi
    exact (tregs i).trans (lastWrite_of_not_mem hi _)
  case ds =>
    intro hd
    rw [tds, show (o.asFreed s).ds = none from ds hd]
    rfl
  case data =>
    intro a ha
    rw [← stores] at ha
    exact (tdata a).trans (lastWrite_of_not_mem ha _)
  case sfrs =>
    intro r hr hh hl
    rw [← sfrs] at hr
    exact (tsfrs r hh hl).trans (lastWrite_of_not_mem (by simpa [OpaqueStep.asFreed] using hr) _)
  case ssp => exact fun hs => tssp.trans ((BitVec.sub_zero _).trans (pointer_asFreed_of_unnamed hs))
  case usp => exact fun hs => tusp.trans ((BitVec.sub_zero _).trans (pointer_asFreed_of_unnamed hs))

/-! ### The two steps -/

/-- A step that takes nothing at its boundary and decodes none of the nine instructions is the execution of the opaque
step supplied next, where that is a meaning of the bytes at the pc. -/
theorem step_of_supplied {os : List OpaqueStep} {why : DecodeReject} (hi : s.inputs = [])
    (hp : s.pending = Pending.empty) (ha : acceptable s = none) (hd : decode (fetchBytes s 4) = .rejected why)
    (hs : s.supplied = o :: os) (hm : opaqueMatches o s = true) :
    step s = finish o.bytes (opaqueDelays o) s (execOpaque o { s with supplied := os }) := by
  rw [step, takeInputs_nil hi, cpuStep_of_quiet hp ha, runInstr_of_rejected hd, runOpaque, hs]
  simp [hm]

theorem codeRead16_of_sameCode (h : sameCode s t) (a : Word) : codeRead16 t a = codeRead16 s a := by
  rw [codeRead16, codeRead16, h, h]

theorem frameSize_congr (h : page0Mode t = page0Mode s) : frameSize t = frameSize s := by
  rw [frameSize, frameSize, h]

/-- The pending set an opaque step leaves that writes nothing to PSWH. -/
theorem DividedByZero.pending_eq (h : DividedByZero o s t) (hw : ∀ p ∈ o.sfrs, p.1 ≠ .pswh) :
    t.pending = s.pending.add .divideByZero :=
  Pending.ext_has fun e => by simp [h.pending, pswhWrites_asFreed_eq_nil s hw, pswhAttempted]

/-- Two steps at a supplied opaque step with divisor zero that writes no stack pointer and no special function register:
its execution, and the sequence of DivideByZero on what that leaves. -/
theorem steps_service_divide {os : List OpaqueStep} {why : DecodeReject} (hi : s.inputs = [])
    (hp : s.pending = Pending.empty) (ha : acceptable s = none) (untraced : traceMode s = false)
    (hd : decode (fetchBytes s 4) = .rejected why) (hs : s.supplied = o :: os) (hm : opaqueMatches o s = true)
    (hz : o.divisor = some 0) (hsps : o.sps = []) (hsfrs : o.sfrs = []) (even : isOdd s.ssp = false)
    (aligned : isOdd (codeRead16 s 0x0012#16) = false) :
    ∃ t u, step s = .next t ∧ step t = .next u ∧ t.pending = Pending.empty.add .divideByZero ∧
      DividedByZero o { s with supplied := os, hold := holdAfter s.cfg (opaqueDelays o) } t ∧
      Serviced (excVector .divideByZero) t.pc t u := by
  have noPswh : ∀ p ∈ o.sfrs, p.1 ≠ .pswh := by simp [hsfrs]
  obtain ⟨w, run, done⟩ := execOpaque_dividesByZero (s := { s with supplied := os }) hz
    (.inr (by rw [pswhWrites_eq_nil noPswh]; exact Nat.zero_le _))
  have begun : DividedByZero o { s with supplied := os, hold := holdAfter s.cfg (opaqueDelays o) }
      { w with hold := holdAfter s.cfg (opaqueDelays o) } := { done with hold := rfl }
  generalize ht : { w with hold := holdAfter s.cfg (opaqueDelays o) } = t at begun
  have first : step s = .next t := by
    rw [step_of_supplied hi hp ha hd hs hm, run, ← ht]
    exact congrArg Host.Outcome.next
      (finishState_of_untraced untraced ((traceMode_congr done.cfg (done.pswh noPswh)).trans untraced) _ _)
  have pending : t.pending = Pending.empty.add .divideByZero :=
    (begun.pending_eq noPswh).trans (congrArg (·.add Exc.divideByZero) hp)
  have ssp : t.ssp = s.ssp := begun.ssp (by simp [hsps])
  have vector : codeRead16 t 0x0012#16 = codeRead16 s 0x0012#16 := codeRead16_of_sameCode begun.code _
  obtain ⟨u, second, taken⟩ := step_services_pending (begun.inputs.trans hi) pending (by decide) (by decide)
    (by rw [ssp, even]) (vector ▸ aligned)
  exact ⟨t, u, first, second, pending, begun, taken⟩

end Sys2Proof.Machine

namespace Sys2Proof.Machine

/-- Settles O54: the execution by `execOpaque_dividesByZero`, the two steps by `steps_service_divide`, whose
state between them has the pointers, registers and PSWH of the one before. -/
theorem divideByZeroEntersItsHandler : Obligations.DivideByZeroEntersItsHandler := by
  refine ⟨fun s o hz goes => ?execution, fun s o os why hi hp ha untraced hd hs hm hz hsps hsfrs even aligned => ?steps⟩
  case execution =>
    obtain ⟨t, run, done⟩ := execOpaque_dividesByZero hz goes
    refine ⟨t, run, ?_, fun e he => ?_, fun e he => ?_, fun hw => ⟨done.pending_eq hw, done.pswh hw⟩, done.pc,
      done.regs, done.ds, done.data, done.sfrs, done.ssp, done.usp, done.code, done.cfg, done.inputs, done.supplied,
      done.hold⟩
    · simp [done.pending, Pending.has_add]
    · simp [done.pending, Pending.has_add, he]
    · rw [done.pending, Pending.has_add] at he
      simp only [Bool.or_eq_true, Bool.and_eq_true, decide_eq_true_eq] at he
      rcases he with (rfl | he) | ⟨tried, stops⟩
      · exact .inr (.inl rfl)
      · exact .inl he
      · refine .inr (.inr ⟨stops, ?_⟩)
        by_contra unwritten
        rw [pswhWrites_asFreed_eq_nil s fun p hp h => unwritten ⟨p, hp, h⟩] at tried
        cases tried
  case steps =>
    obtain ⟨t, u, first, second, pending, done, taken⟩ :=
      steps_service_divide hi hp ha untraced hd hs hm hz hsps hsfrs even aligned
    have pswh : t.pswh = s.pswh := done.pswh (by simp [hsfrs])
    have ssp : t.ssp = s.ssp := done.ssp (by simp [hsps])
    have usp : t.usp = s.usp := done.usp (by simp [hsps])
    have sfrs : sameSfrs s t := fun r => done.sfrs r (by simp [hsfrs])
    have scr : t.sfr.scr = s.sfr.scr := sfrs .scr (by decide) (by decide)
    have samePz : page0Mode t = page0Mode s := page0Mode_congr done.cfg scr
    have size : frameSize t = frameSize s := frameSize_congr samePz
    have mode : ∀ a, modeAddr t a = modeAddr s a := modeAddr_congr done.cfg scr
    have next : t.pc = modeAddr t (s.pc + BitVec.ofNat 24 o.bytes.length) :=
      done.pc.trans ((mode _).trans ((modeAddr_nextPc s _).trans (mode _).symm))
    rw [next] at taken
    have framed := taken.of_modeAddr
    obtain ⟨code, ⟨regs, ds⟩, -, -, supplied⟩ := taken.rest
    refine ⟨t, u, first, second, pending, pswh, ?psw, ?pc, ?ssp, ?low, ?high, ?old, ?data, ?sfrs, ?code,
      supplied.trans done.supplied, taken.usp.trans usp, fun h => ds.trans (done.ds h),
      fun i h => (regs i).trans (done.regs i h)⟩
    case psw => exact framed.newPsw.trans (codeRead16_of_sameCode done.code _)
    case pc => exact framed.newPc.trans (congrArg page0 (codeRead16_of_sameCode done.code _))
    case ssp => rw [framed.ssp, ssp, size]
    case low => rw [← ssp, framed.retLow]
    case high =>
      intro native
      rw [← ssp, framed.retHigh (samePz.trans native)]
    case old => rw [framed.oldPsw, psw, hiByte_mkWord, pswh]
    case data =>
      intro a ha outside
      rw [← ssp, ← size] at outside
      exact (framed.outside a outside).trans (done.data a ha)
    case sfrs => exact fun r hh hl => (framed.sfrs r hh hl).trans (sfrs r hh hl)
    case code => exact fun a => (code a).trans (done.code a)

end Sys2Proof.Machine

/-! NOP, and the register instructions where SfrWrite stores the implemented bits: every register, and PSWH in System
Mode (41_sfr_access_instructions.md R120 to R125). -/

namespace Sys2Proof.Machine

variable {s t : State} {i : Instr} {r : Sfr} {v : Byte}

/-! ### NOP -/

theorem exec_nop (s : State) : exec .nop s = .next (setPc (nextPc s Instr.nop.length) s) := rfl

/-- A new pc changes nothing else. -/
theorem setPc_frame (a : CodeAddr) (s : State) : let t := setPc a s
    psw t = psw s ∧ sameStacks s t ∧ t.pending = s.pending ∧ sameData s t ∧ sameSfrs s t ∧ untouched s t ∧
      t.hold = s.hold ∧ t.freeCtr = s.freeCtr :=
  ⟨rfl, ⟨rfl, rfl⟩, rfl, fun _ => rfl, fun _ => sfrGet_congr_sfr rfl,
    ⟨fun _ => rfl, ⟨fun _ => rfl, rfl⟩, rfl, rfl, rfl⟩, rfl, rfl⟩

/-! ### The write -/

/-- SfrWrite stores the implemented bits: PSWH has a rule of its own in User Mode alone. -/
theorem sfrWrite_eq_sfrPut (hm : r = .pswh → systemMode s = true) (v : Byte) :
    sfrWrite r v s = .next (sfrPut r (v &&& sfrMask r s) s) := by
  rcases sfrWrite_cases s r v with ⟨_, e⟩ | ⟨rfl, _, e⟩ | ⟨h, user, _⟩ | ⟨_, h, user, _⟩ | ⟨h, user, _⟩
  · exact e
  · rw [e, sfrMask_pswh, show v &&& 0xFF#8 = v from BitVec.and_allOnes]
  all_goals rw [hm h] at user; cases user

/-- A register other than PSWL reads the same in states with the same PSWH and the same registers. -/
theorem sfrGet_congr_of_ne_pswl (hh : t.pswh = s.pswh) (hs : t.sfr = s.sfr) (hl : r ≠ .pswl) :
    sfrGet r t = sfrGet r s := by
  by_cases hr : r = .pswh
  · rw [hr, sfrGet_pswh, sfrGet_pswh, hh]
  · exact sfrGet_congr_sfr hs hr hl

/-- What a register instruction leaves whose SfrWrite stores the implemented bits: the registers are those of that one
store, PSWL's flags excepted after MOV.B and OR.B. The pc is formed in the old mode and then in the new one (log 32). -/
theorem exec_of_stored (hi : writtenByte i s = some (r, v)) (hm : r = .pswh → systemMode s = true) :
    ∃ t, exec i s = .next t ∧
      (∀ r', r' ≠ .pswl ∨ (∃ b, i = .setb b ∨ i = .clr b) →
        sfrGet r' t = sfrGet r' (sfrPut r (v &&& sfrMask r s) s)) ∧
      t.pc = modeAddr t (modeAddr s (s.pc + BitVec.ofNat 24 i.length)) ∧ sameStacks s t ∧ t.pending = s.pending ∧
      sameData s t ∧ untouched s t ∧ t.hold = s.hold := by
  obtain ⟨f, hf, run, flags⟩ := exec_of_writtenByte s hi
  rw [sfrWrite_eq_sfrPut hm, andThen_next] at run
  obtain ⟨ucfg, -, ussp, uusp, uregs, uds, ucode, udata, uinputs, usupplied, uhold, -⟩ :=
    sfrWrite_frame (sfrWrite_eq_sfrPut hm v)
  generalize hu : sfrPut r (v &&& sfrMask r s) s = u at *
  obtain ⟨fcfg, fpc, fpswh, fssp, fusp, fregs, fds, fsfr, fpending, fcode, fdata, finputs, fsupplied, fhold⟩ :=
    hf.frame (setPc (nextPc s i.length) u)
  refine ⟨_, run, ?sfrs, ?pc, ⟨fssp.trans ussp, fusp.trans uusp⟩, ?pending, dataByte_congr (fdata.trans udata),
    ⟨codeByte_congr (fcode.trans ucode),
      ⟨fun k => congrArg (Memory.read regFill · k) (fregs.trans uregs), fds.trans uds⟩,
      fcfg.trans ucfg, finputs.trans uinputs, fsupplied.trans usupplied⟩, fhold.trans uhold⟩
  case sfrs =>
    rintro r' (hl | hb)
    · exact sfrGet_congr_of_ne_pswl fpswh fsfr hl
    · rw [flags hb]; exact sfrGet_congr rfl rfl rfl r'
  case pc => exact fpc.trans (modeAddr_congr (s := u) fcfg (congrArg Sfrs.scr fsfr) _).symm
  case pending => rw [fpending, setPc_pending, ← hu, sfrPut_pending]

/-- The same for a register other than PSWL, as MOV.B and OR.B write it: the flags alone are left free. -/
theorem exec_of_stored_ne_pswl (hi : writtenByte i s = some (r, v)) (hl : r ≠ .pswl)
    (hm : r = .pswh → systemMode s = true) :
    ∃ t, exec i s = .next t ∧
      sfrGet r t = v &&& sfrMask r s ∧ (∀ r', r' ≠ r → r' ≠ .pswl → sfrGet r' t = sfrGet r' s) ∧
      t.pc = modeAddr t (modeAddr s (s.pc + BitVec.ofNat 24 i.length)) ∧ sameStacks s t ∧ t.pending = s.pending ∧
      sameData s t ∧ untouched s t ∧ t.hold = s.hold := by
  obtain ⟨t, run, sfrs, rest⟩ := exec_of_stored hi hm
  exact ⟨t, run, (sfrs r (.inl hl)).trans (sfrGet_sfrPut_same s r _),
    fun r' hne hl' => (sfrs r' (.inl hl')).trans (sfrGet_sfrPut_ne s _ hne), rest⟩

/-- The address of the next instruction where a write left SCR, and with it PZ, alone. -/
theorem modeAddr_modeAddr_of_scr (hc : t.cfg = s.cfg) (h : sfrGet .scr t = sfrGet .scr s) (a : CodeAddr) :
    modeAddr t (modeAddr s a) = modeAddr s a := by
  rw [modeAddr_congr hc h, modeAddr_modeAddr]

/-! ### One bit -/

/-- A storage bit of the byte an instruction reads is that of the register. -/
theorem sfrRead_getLsbD {k : Nat} (hk : (sfrMask r s).getLsbD k = true) :
    (sfrRead r s).byte.getLsbD k = (sfrGet r s).getLsbD k := by
  have bit := congrArg (fun x : Byte => x.getLsbD k) (sfrRead_and_sfrMask s r)
  simpa only [BitVec.getLsbD_and, hk, Bool.and_true] using bit

theorem bitAt_lt {c : Config} {b : BitVec 10} {n : Nat} (h : bitAt c b = some (r, n)) : n < 8 := by
  obtain ⟨-, -, -, rfl⟩ := bitAt_eq_some h
  exact Nat.mod_lt _ (by decide)

/-- PZ cannot be set or cleared as a bit: SCR is not bit addressable (10_state.md R47). -/
theorem bitAt_ne_scr {c : Config} {b : BitVec 10} {n : Nat} (h : bitAt c b = some (r, n)) : r ≠ .scr := by
  rintro rfl
  obtain ⟨-, -, addressable, -⟩ := bitAt_eq_some h
  cases addressable

/-- What SETB and CLR leave that write the byte v: v's storage bits in the register, every other register as before. -/
theorem exec_of_bit_stored {b : BitVec 10} {n : Nat} (hb : bitAt s.cfg b = some (r, n))
    (hi : i = .setb b ∨ i = .clr b) (hv : writtenByte i s = some (r, v)) (hm : r = .pswh → systemMode s = true) :
    ∃ t, exec i s = .next t ∧
      (∀ k, (sfrMask r s).getLsbD k = true → (sfrGet r t).getLsbD k = v.getLsbD k) ∧
      (∀ r', r' ≠ r → sfrGet r' t = sfrGet r' s) ∧
      t.pc = modeAddr s (s.pc + BitVec.ofNat 24 i.length) ∧ sameStacks s t ∧ t.pending = s.pending ∧
      sameData s t ∧ untouched s t ∧ t.hold = s.hold := by
  obtain ⟨t, run, sfrs, pc, sps, pending, data, rest, hold⟩ := exec_of_stored hv hm
  have sfrs : ∀ r', sfrGet r' t = sfrGet r' (sfrPut r (v &&& sfrMask r s) s) := fun r' => sfrs r' (.inr ⟨b, hi⟩)
  have others : ∀ r', r' ≠ r → sfrGet r' t = sfrGet r' s := fun r' h => (sfrs r').trans (sfrGet_sfrPut_ne s _ h)
  have ⟨_, _, cfg, _⟩ := rest
  refine ⟨t, run, fun k hk => ?bits, others, ?pc, sps, pending, data, rest, hold⟩
  case bits => rw [sfrs, sfrGet_sfrPut_same, BitVec.getLsbD_and, hk, Bool.and_true]
  case pc => rw [pc, modeAddr_modeAddr_of_scr cfg (others .scr (bitAt_ne_scr hb).symm)]

end Sys2Proof.Machine

namespace Sys2Proof.Machine

/-- Settles O26: the byte written is the constant. -/
theorem movbWritesTheRegister : Obligations.MovbWritesTheRegister := fun _ a d _ ha hl hm =>
  exec_of_stored_ne_pswl (i := .movb a d) (by simp [writtenByte, ha]) hl hm

/-- Settles O27: of the byte read, the bits that are not storage are masked off. -/
theorem orbSetsBitsOfTheRegister : Obligations.OrbSetsBitsOfTheRegister := by
  intro s a d r ha hl hm
  have stored : ((sfrRead r s).byte ||| d) &&& sfrMask r s = (sfrGet r s ||| d) &&& sfrMask r s := by
    rw [BitVec.and_or_distrib_right, sfrRead_and_sfrMask, ← BitVec.and_or_distrib_right]
  rw [← stored]
  exact exec_of_stored_ne_pswl (i := .orb a d) (by simp [writtenByte, ha]) hl hm

/-- Settles O29, by the bits of the byte read with one set. -/
theorem setbSetsOneBit : Obligations.SetbSetsOneBit := by
  intro s b r n hb hm
  obtain ⟨t, run, bits, rest⟩ := exec_of_bit_stored (v := (sfrRead r s).byte ||| bitMask n) hb (.inl rfl)
    (by simp [writtenByte, hb]) hm
  refine ⟨t, run, fun k hk => ?_, rest⟩
  rw [bits k hk, BitVec.getLsbD_or, sfrRead_getLsbD hk, bitMask_getLsbD (bitAt_lt hb), Bool.or_comm]

/-- Settles O30, by the bits of the byte read with one cleared. -/
theorem clrClearsOneBit : Obligations.ClrClearsOneBit := by
  intro s b r n hb hm
  obtain ⟨t, run, bits, rest⟩ := exec_of_bit_stored (v := (sfrRead r s).byte &&& ~~~ bitMask n) hb (.inr rfl)
    (by simp [writtenByte, hb]) hm
  refine ⟨t, run, fun k hk => ?_, rest⟩
  rw [bits k hk, BitVec.getLsbD_and, BitVec.getLsbD_not, sfrRead_getLsbD hk, bitMask_getLsbD (bitAt_lt hb),
    Bool.and_comm, decide_eq_true (BitVec.lt_of_getLsbD hk), Bool.true_and]

/-- Settles O25. -/
theorem nopAdvancesThePc : Obligations.NopAdvancesThePc := fun s =>
  ⟨_, exec_nop s, modeAddr_nextPc s 1, setPc_frame _ s⟩

/-- Settles O28: either instruction writes some byte to PSWL, and no other register. -/
theorem movbAndOrbOnPswlComplete : Obligations.MovbAndOrbOnPswlComplete := by
  intro s a d i ha hi
  have ⟨written, length⟩ : (∃ v, writtenByte i s = some (.pswl, v)) ∧ i.length = 4 := by
    rcases hi with rfl | rfl <;> simp [writtenByte, ha, Instr.length]
  obtain ⟨v, hv⟩ := written
  obtain ⟨t, run, sfrs, pc, sps, pending, data, rest, hold⟩ := exec_of_stored hv nofun
  have others : ∀ r, r ≠ .pswl → sfrGet r t = sfrGet r s := fun r hl =>
    (sfrs r (.inl hl)).trans (sfrGet_sfrPut_ne s _ hl)
  have ⟨_, _, cfg, _⟩ := rest
  rw [length, modeAddr_modeAddr_of_scr cfg (others .scr (by decide))] at pc
  exact ⟨t, run, others .pswh (by decide), pc, sps, pending, data, fun r _ => others r, rest, hold⟩

end Sys2Proof.Machine

/-! The interrupt sequence (60_exceptions.md R133): all it does, and when its frame raises StackOverflow (R144;
92_eei_decisions.md D14; log 17). -/

namespace Sys2Proof.Machine

variable {s t : State} {va : Word} {ret : CodeAddr}

/-- Whether n bytes pushed from the pointer value S on take it from 0080h or above to below 0080h. -/
def crosses (S : Word) (n : Nat) : Bool := decide (0x80 ≤ S.toNat) && decide (S.toNat < 0x80 + n)

theorem crosses_eq_true {S : Word} {n : Nat} : crosses S n = true ↔ 0x80 ≤ S.toNat ∧ S.toNat < 0x80 + n := by
  simp [crosses]

/-- The default STACK_OVF asks whether the two bytes of a push cross. -/
theorem stackOvf_of_crossing {c : Config} (h : c.stackOvf = .crossing) (system : Bool) (S : Word) :
    stackOvf c system S (S - 2#16) = crosses S 2 := by
  simp only [stackOvf, h, crosses]
  rw [Bool.eq_iff_iff]
  simp only [Bool.and_eq_true, decide_eq_true_eq]
  bv_omega

/-- A word pushed below n bytes: the n + 2 bytes cross where the n do or the word does. A pointer that has wrapped
around lies far above 0080h. -/
theorem crosses_add_two (S : Word) {n : Nat} (hn : n + 2 ≤ 0x80) :
    (crosses S n || crosses (S - BitVec.ofNat 16 n) 2) = crosses S (n + 2) := by
  rw [Bool.eq_iff_iff]
  simp only [Bool.or_eq_true, crosses_eq_true, BitVec.toNat_sub, BitVec.toNat_ofNat]
  omega

/-- An exception that two operations raise, one after the other, is pending where either raises it. -/
theorem Pending.add_if_add_if (p : Pending) (e : Exc) (a b : Bool) :
    (if b then (if a then p.add e else p).add e else if a then p.add e else p) = if a || b then p.add e else p := by
  cases a <;> cases b <;> simp

/-- The pushes of a frame raise StackOverflow where the frame crosses. -/
theorem pushFrame_pending_of_crossing (h : s.cfg.stackOvf = .crossing) (ret : CodeAddr) :
    (pushFrame ret s).pending =
      if crosses s.ssp (frameSize s) then s.pending.add .stackOverflow else s.pending := by
  have two := crosses_add_two s.ssp (n := 2) (by decide)
  cases hz : page0Mode s with
  | true =>
    simp only [pushFrame, hz, if_true, pushSys_pending, pushSys_cfg, pushSys_ssp, stackOvf_of_crossing h,
      Pending.add_if_add_if, frameSize_of_page0 hz, two]
  | false =>
    have four := crosses_add_two s.ssp (n := 4) (by decide)
    have pointer : s.ssp - 2#16 - 2#16 = s.ssp - 4#16 := by bv_omega
    simp only [pushFrame, hz, Bool.false_eq_true, if_false, pushSys_pending, pushSys_cfg, pushSys_ssp,
      stackOvf_of_crossing h, Pending.add_if_add_if, frameSize_of_native hz, two]
    rw [pointer, four]

theorem service_pending (e : service va ret s = .next t) : t.pending = (pushFrame ret s).pending := by
  obtain ⟨_, _, rfl⟩ := service_eq_next e
  rfl

theorem service_of_odd_pointer (h : isOdd s.ssp = true) (va : Word) (ret : CodeAddr) :
    service va ret s = .refused .oddStackPointer := by
  simp [service, h]

theorem service_of_odd_target (h : isOdd s.ssp = false) (odd : isOdd (codeRead16 s (va + 2#16)) = true)
    (ret : CodeAddr) : service va ret s = .refused .oddVectorTarget := by
  simp [service, h, odd]

/-- Settles O13, by `serviced_of_service` and what the sequence leaves besides. -/
theorem interruptSequence : Obligations.InterruptSequence := by
  refine fun s va ret => ⟨fun even aligned => ?_, fun odd => service_of_odd_pointer odd va ret,
    fun even odd => service_of_odd_target even odd ret⟩
  obtain ⟨t, e⟩ : ∃ t, service va ret s = .next t := ⟨_, service_of_even even aligned⟩
  have done := serviced_of_service e
  obtain ⟨-, -, -, -, -, -, -, -, hold, -, pending, -⟩ := service_frame e
  exact ⟨t, e, done.newPsw, done.newPc, done.ssp, done.usp, dataByte_service e, done.outside, done.sfrs, done.rest,
    hold, pending⟩

/-- Settles O14: the pushes of the frame, one after the other, cross where the whole frame does. -/
theorem stackOverflowOncePerCrossing : Obligations.StackOverflowOncePerCrossing := by
  intro s t va ret h e
  simp only [service_pending e, pushFrame_pending_of_crossing h, crosses_eq_true]

end Sys2Proof.Machine

/-! The execution of an instruction by a step (60_exceptions.md R143, R190): what runs, and what the CPU adds to it (log
18, log 19). -/

namespace Sys2Proof.Machine

variable {s t : State} {i : Instr} {rest : List Byte} {o : OpaqueStep}

/-- The first bytes of a fetch. -/
theorem take_fetchBytes (s : State) {m n : Nat} (h : m ≤ n) : (fetchBytes s n).take m = fetchBytes s m := by
  rw [fetchBytes, ← List.map_take, List.take_range, Nat.min_eq_left h, fetchBytes]

theorem length_le_four (i : Instr) : i.length ≤ 4 := by cases i <;> simp [Instr.length]

/-- The bytes of an instruction that is decoded at the pc are its encoding. -/
theorem fetchBytes_of_decode (hd : decode (fetchBytes s 4) = .instr i rest) : fetchBytes s i.length = encode i := by
  rw [← take_fetchBytes s (length_le_four i), eq_encode_of_decode hd, ← length_encode i, List.take_left]

/-- Where the bytes at the pc are no form of the spec, the opaque step supplied next runs if it is a meaning of them. -/
theorem runInstr_of_supplied {os : List OpaqueStep}
    (form : ∀ i rest, decode (fetchBytes s 4) = .instr i rest → wellFormed s.cfg i = false)
    (hs : s.supplied = o :: os) (hm : opaqueMatches o s = true) :
    runInstr s = finish o.bytes (opaqueDelays o) s (execOpaque o { s with supplied := os }) := by
  have run : ∀ x, runOpaque s x = finish o.bytes (opaqueDelays o) s (execOpaque o { s with supplied := os }) :=
    fun x => by simp [runOpaque, hs, hm]
  cases hd : decode (fetchBytes s 4) with
  | instr i rest => rw [runInstr_of_not_wellFormed hd (form i rest hd), run]
  | rejected why => rw [runInstr_of_rejected hd, run]

theorem runInstr_of_wellFormed (hd : decode (fetchBytes s 4) = .instr i rest) (hw : wellFormed s.cfg i = true) :
    runInstr s = finish (encode i) (instrDelays s.cfg i) s (exec i s) := by
  simp [runInstr, hd, hw, fetchBytes_of_decode hd]

/-- An opaque step completes or stops with the fault: it is never refused. -/
theorem execOpaque_ne_refused (o : OpaqueStep) (s : State) (r : Refusal) : execOpaque o s ≠ .refused r := by
  have noDivide : ∀ (o : OpaqueStep) (s : State), o.divisor ≠ some 0 → execOpaque o s ≠ .refused r := by
    intro o s hd
    obtain ⟨stops, completes⟩ := opaqueStepEffect o s hd
    by_cases h : pswhAttempted s.cfg (pswhWrites o.sfrs) s.pswh = true ∧ s.cfg.userPswhWrite = .fault
    · obtain ⟨tried, stop⟩ := h
      rw [stops tried stop]
      nofun
    · obtain ⟨t, run, -⟩ := completes fun tried stop => h ⟨tried, stop⟩
      rw [run]
      nofun
  by_cases hd : o.divisor = some 0
  · rw [execOpaque_of_zero_divisor hd]
    exact noDivide _ _ nofun
  · exact noDivide o s hd

/-- An instruction that completes has the shadow and Trace added, and a stop stands. -/
theorem finish_outcomes (bytes : List Byte) (delays : Bool) (s : State) (x : Host.Outcome State Fault Refusal) :
    (∀ t, x = .next t → finish bytes delays s x = .next { t with
      hold := holdAfter s.cfg delays
      pending := if traceRaised (.instruction bytes) s t then t.pending.add .trace else t.pending }) ∧
    (∀ r, x = .fault r → finish bytes delays s x = .fault r) ∧
    (∀ r, x = .refused r → finish bytes delays s x = .refused r) := by
  refine ⟨?next, ?fault, ?refused⟩
  case next => rintro t rfl; rw [finish, andThen_next, finishState_eq]
  case fault => rintro r rfl; rfl
  case refused => rintro r rfl; rfl

/-- Settles O5: a boundary that takes nothing runs the instruction at the pc, and `finish` adds what is added. -/
theorem stepRunsTheDecodedInstruction : Obligations.StepRunsTheDecodedInstruction := by
  refine ⟨?named, ?supplied⟩
  case named =>
    rintro s u i rest rfl hp ha hd hw
    have run : step s = _ := (cpuStep_of_quiet hp ha).trans (runInstr_of_wellFormed hd hw)
    rw [run]
    exact finish_outcomes _ _ _ _
  case supplied =>
    rintro s u o os rfl hp ha form hs hm
    have run : step s = _ := (cpuStep_of_quiet hp ha).trans (runInstr_of_supplied form hs hm)
    obtain ⟨next, fault, -⟩ := finish_outcomes o.bytes (opaqueDelays o) (takeInputs s)
      (execOpaque o { takeInputs s with supplied := os })
    rw [run]
    exact ⟨next, fault, execOpaque_ne_refused o _⟩

theorem finishState_pending (bytes : List Byte) (delays : Bool) (s t : State) :
    (finishState bytes delays s t).pending =
      if traceRaised (.instruction bytes) s t then t.pending.add .trace else t.pending := by
  rw [finishState_eq]

/-- At the default TRACE_POINT an instruction raises Trace where it began with TM = 1. -/
theorem traceRaised_instruction (h : s.cfg.tracePoint = .beginsTraced) (bytes : List Byte) (t : State) :
    traceRaised (.instruction bytes) s t = traceMode s := by
  simp [traceRaised, h]

/-- Settles O6, by what TRACE_POINT asks at the default and with TM = 0. -/
theorem traceRaisedOnlyInTraceMode : Obligations.TraceRaisedOnlyInTraceMode := by
  intro s t bytes delays
  simp only [finishState_pending, traceAfter_pending]
  refine ⟨fun h hm => ?_, fun hs ht => ?_, fun h hm => ?_, fun h => ?_⟩
  · rw [traceRaised_instruction h, hm, if_pos rfl]
  · simp [traceRaised_of_untraced hs ht]
  · simp [traceRaised_instruction h, hm]
  · rcases h with h | ⟨hs, ht⟩
    · simp [traceRaised_sequence h]
    · simp [traceRaised_of_untraced hs ht]

end Sys2Proof.Machine

/-! The tables of the maskable interrupts (60_exceptions.md R160, R170, R180; log 20, log 36, log 41). -/

namespace Sys2Proof.Machine

variable {s t : State} {e e' : EventSource} {b : BitName}

/-! ### Software interrupts -/

theorem bitPlace_of_fixed (one : twoHomes b = false) (fixed : placeFixed b = true) (c : Config) :
    bitPlace c b = familyPlace b :=
  Prod.ext (bitReg_of_oneHome one c) (bitPos_of_fixed fixed c)

theorem bitPlace_swiRequest (c : Config) (k : Fin 7) : bitPlace c (swiRequest k) = (.swr, k.val) :=
  (bitPlace_of_fixed (by revert k; decide) (by revert k; decide) c).trans (by revert k; decide)

theorem bitPlace_swiEnable (c : Config) (k : Fin 7) : bitPlace c (swiEnable k) = (.swe, k.val) :=
  (bitPlace_of_fixed (by revert k; decide) (by revert k; decide) c).trans (by revert k; decide)

/-- Settles O35: the source fixes the places in SWR and SWE. -/
theorem softwareInterruptTable : Obligations.SoftwareInterruptTable :=
  ⟨fun c k => ⟨bitPlace_swiRequest c k, bitPlace_swiEnable c k⟩, fun k => ⟨toNat_swiVector k, rfl⟩,
    fun c => ⟨fun h => by simp [swiPresent, h], fun h => by simp [swiPresent, h]⟩⟩

/-! ### Event interrupts -/

theorem mem_byRanking (e : EventSource) : e ∈ byRanking := by cases e <;> decide

/-- The sources in even slots. -/
theorem eventSlot_even_iff (e : EventSource) :
    eventSlot e % 2 = 0 ↔ e ∈ [EventSource.ext0, .ext1, .timer2, .serial0Rx, .serial1Rx] := by
  cases e <;> decide

/-- Settles O36, source by source; the nibble is that of the slot's parity. -/
theorem eventSourceTable : Obligations.EventSourceTable := by
  refine ⟨fun e => by cases e <;> rfl, fun s e => ?_, fun s => ⟨rfl, rfl, rfl, rfl, rfl, rfl, rfl, rfl, rfl⟩⟩
  rw [eventField]
  exact if_congr (eventSlot_even_iff e) rfl rfl

/-- The flag bits that request an event interrupt (60_exceptions.md R160, R185). -/
def eventFlags : EventSource → List BitName
  | .ext0 => [.ie0]
  | .timer0 => [.tf0]
  | .ext1 => [.ie1]
  | .timer1 => [.tf1]
  | .timer2 => [.tf2, .exf2]
  | .serial0Rx => [.ri0]
  | .serial0Tx => [.ti0]
  | .serial1Rx => [.ri1]
  | .serial1Tx => [.ti1]

/-- A source is requested when one of its flags is 1. -/
theorem eventRequest_eq_any (e : EventSource) (s : State) : eventRequest e s = (eventFlags e).any (bitOf · s) := by
  cases e <;> simp [eventRequest, eventFlags]

/-- No two sources have one enable bit. -/
theorem eventEnable_injective (h : eventEnable e = eventEnable e') : e = e' :=
  List.inj_on_of_nodup_map (f := eventEnable) (l := byRanking) (by decide) (mem_byRanking e) (mem_byRanking e') h

/-- No two sources have one priority field. -/
theorem eventSlot_parity_ne (hne : e' ≠ e) (h : ipaOf e' = ipaOf e) : eventSlot e' % 2 ≠ eventSlot e % 2 :=
  fun parity => hne (List.inj_on_of_nodup_map (f := fun e => (ipaOf e, eventSlot e % 2)) (l := byRanking) (by decide)
    (mem_byRanking e') (mem_byRanking e) (Prod.ext h parity))

/-- The enables lie outside the PSW, and none is EA or a flag. -/
theorem eventEnable_apart (e e' : EventSource) :
    (familyPlace (eventEnable e)).1 ≠ .pswh ∧ eventEnable e ≠ .ea ∧ eventEnable e ∉ eventFlags e' :=
  (by decide : ∀ e ∈ byRanking, ∀ e' ∈ byRanking,
    (familyPlace (eventEnable e)).1 ≠ .pswh ∧ eventEnable e ≠ .ea ∧ eventEnable e ∉ eventFlags e')
    e (mem_byRanking e) e' (mem_byRanking e')

/-- The IPA registers of the sources. -/
theorem ipaOf_mem (e : EventSource) : ipaOf e ∈ [Sfr.ipa0, .ipa1, .ipa2, .ipa4, .ipa5] := by cases e <;> decide

/-- No named bit is in a source's IPA register, and neither is the PSW. -/
theorem ipaOf_apart (e : EventSource) (c : Config) (b : BitName) :
    ipaOf e ≠ bitReg c b ∧ ipaOf e ≠ .pswh ∧ ipaOf e ≠ .pswl := by
  have ipa := ipaOf_mem e
  have unnamed : bitReg c b ∉ [Sfr.ipa0, .ipa1, .ipa2, .ipa4, .ipa5] := by simp [bitReg_ne_unnamed c b]
  have ⟨noPswh, noPswl⟩ : Sfr.pswh ∉ [Sfr.ipa0, .ipa1, .ipa2, .ipa4, .ipa5] ∧
      Sfr.pswl ∉ [Sfr.ipa0, .ipa1, .ipa2, .ipa4, .ipa5] := by decide
  exact ⟨fun h => unnamed (h ▸ ipa), fun h => noPswh (h ▸ ipa), fun h => noPswl (h ▸ ipa)⟩

/-! ### What eligibility depends on -/

theorem eventRequest_congr (h : ∀ b ∈ eventFlags e, bitOf b t = bitOf b s) : eventRequest e t = eventRequest e s := by
  rw [eventRequest_eq_any, eventRequest_eq_any, Bool.eq_iff_iff, List.any_eq_true, List.any_eq_true]
  exact exists_congr fun b => and_congr_right fun hb => by rw [h b hb]

theorem eventPrio_congr (hc : t.cfg = s.cfg) (h : sfrGet (ipaOf e) t = sfrGet (ipaOf e) s) :
    eventPrio e t = eventPrio e s := by
  simp only [eventPrio, eventField, hc, h]

/-- The conditions of an event interrupt, each taken from another state. -/
theorem eligibleEvent_eq (request : ∀ b ∈ eventFlags e, bitOf b t = bitOf b s)
    (enable : bitOf (eventEnable e) t = bitOf (eventEnable e) s) (ea : bitOf .ea t = bitOf .ea s)
    (prio : eventPrio e t = eventPrio e s) :
    eligibleEvent e t =
      (eventRequest e s && bitOf (eventEnable e) s && bitOf .ea s && decide (intMask t < eventPrio e s)) := by
  rw [eligibleEvent, eventRequest_congr request, enable, ea, prio]

end Sys2Proof.Machine

/-! The selection of a maskable interrupt (60_exceptions.md R161, R163, R165, R191): greatest priority, and the order
that settles equal ones (92_eei_decisions.md D9; log 21). -/

namespace Sys2Proof.Machine

variable {s t : State} {m m' : Maskable} {e e' : EventSource} {b c : BitName}

/-! ### The order -/

/-- m goes before m': it is of greater priority, or of equal priority and chosen first. -/
def Outranks (s : State) (m m' : Maskable) : Prop :=
  maskPrio m' s < maskPrio m s ∨ (maskPrio m' s = maskPrio m s ∧ chosenBefore m m')

theorem chosenBefore_asymm (h : chosenBefore m m') : ¬ chosenBefore m' m := by
  cases m with
  | event e =>
    cases m' with
    | event e' => exact Nat.lt_asymm h
    | swi k => exact not_false
  | swi k => cases m' <;> exact h.elim

theorem Outranks.asymm (h : Outranks s m m') : ¬ Outranks s m' m := by
  rintro (h' | ⟨h', before'⟩) <;> rcases h with h | ⟨h, before⟩
  · omega
  · omega
  · omega
  · exact chosenBefore_asymm before before'

/-- Of two in the list of all, of equal priority, the earlier is chosen first: two software interrupts have different
priorities. -/
theorem allMaskable_pairwise (s : State) :
    allMaskable.Pairwise fun m m' => maskPrio m' s = maskPrio m s → chosenBefore m m' := by
  rw [allMaskable, List.pairwise_append]
  refine ⟨List.pairwise_map.2 ?events, List.pairwise_map.2 ?software, ?mixed⟩
  case events =>
    have ranked : byRanking.Pairwise fun e e' => eventRank e < eventRank e' := by decide
    refine ranked.imp fun lower _ => ?_
    exact lower
  case software => exact (List.nodup_finRange 7).imp fun hne h => absurd (swiPrio_injective h.symm) hne
  case mixed =>
    intro m hm m' hm' _
    obtain ⟨e, -, rfl⟩ := List.mem_map.1 hm
    obtain ⟨k, -, rfl⟩ := List.mem_map.1 hm'
    exact trivial

/-- What is selected goes before every other eligible interrupt. -/
theorem outranks_of_selectMaskable (h : selectMaskable s = some m) (he : eligible m' s = true) (hne : m' ≠ m) :
    Outranks s m m' := by
  obtain ⟨-, -, le, pre, post, list, lt⟩ := bestOf_eq_some s h
  have order := allMaskable_pairwise s
  have mem := mem_allMaskable m'
  rw [list] at order mem
  obtain ⟨-, order, -⟩ := List.pairwise_append.1 order
  rcases List.mem_append.1 mem with hpre | hpost
  · exact .inl (lt m' hpre he)
  · have hpost := (List.mem_cons.1 hpost).resolve_left hne
    rcases (le m' (mem_allMaskable m') he).lt_or_eq with hlt | heq
    · exact .inl hlt
    · exact .inr ⟨heq, (List.pairwise_cons.1 order).1 m' hpost heq⟩

theorem selectMaskable_eq_none_iff : selectMaskable s = none ↔ ∀ m, eligible m s = false :=
  (bestOf_eq_none s allMaskable).trans ⟨fun h m => h m (mem_allMaskable m), fun h m _ => h m⟩

/-- The selection is the one eligible interrupt that goes before all others. -/
theorem selectMaskable_eq_some_iff :
    selectMaskable s = some m ↔
      eligible m s = true ∧ ∀ m', eligible m' s = true → m' ≠ m → Outranks s m m' := by
  refine ⟨fun h => ⟨(selectMaskable_spec h).1, fun m' => outranks_of_selectMaskable h⟩, fun ⟨he, first⟩ => ?_⟩
  cases h : selectMaskable s with
  | none => rw [selectMaskable_eq_none_iff.1 h m] at he; cases he
  | some m' =>
    by_contra hne
    have hne : m' ≠ m := fun eq => hne (congrArg some eq)
    exact (first m' (selectMaskable_spec h).1 hne).asymm (outranks_of_selectMaskable h he hne.symm)

theorem acceptable_eq_some_iff : acceptable s = some m ↔ s.hold = false ∧ selectMaskable s = some m := by
  cases h : s.hold <;> simp [acceptable, h]

theorem eligible_of_acceptable (h : acceptable s = some m) : eligible m s = true :=
  (selectMaskable_spec (acceptable_eq_some_iff.1 h).2).1

/-- Settles O37: the order is `Outranks`, and eligibility is as defined. -/
theorem selectMaskableChoosesTheBest : Obligations.SelectMaskableChoosesTheBest := fun _ =>
  ⟨selectMaskable_eq_none_iff, fun _ => selectMaskable_eq_some_iff, fun _ => ⟨rfl, rfl, rfl⟩, fun _ => ⟨rfl, rfl, rfl⟩⟩

/-! ### IM and the priorities -/

theorem eventPrio_le (e : EventSource) (s : State) : eventPrio e s ≤ 15 := by
  have := (eventField e s).isLt
  rw [eventPrio]
  cases s.cfg.derivative with
  | family => rw [prio]; omega
  | g3 => rcases prio_g3_cases (eventField e s) with ⟨_, h⟩ | ⟨_, h⟩ <;> omega

theorem swiPrio_le (k : Fin 7) : swiPrio k ≤ 7 := k.isLt

theorem maskPrio_le (m : Maskable) (s : State) : maskPrio m s ≤ 15 := by
  cases m with
  | event e => exact eventPrio_le e s
  | swi k => exact (swiPrio_le k).trans (by decide)

/-- What is selected is of priority above IM. -/
theorem intMask_lt_of_selectMaskable (h : selectMaskable s = some m) : intMask s < maskPrio m s :=
  intMask_lt_of_eligible s (selectMaskable_spec h).1

/-- Settles O41: a priority is at most 15, a software interrupt's at most 7. -/
theorem interruptMaskMasks : Obligations.InterruptMaskMasks := by
  intro s
  refine ⟨fun h => ?all, fun k h sel => ?software, fun e h sel => ?event, fun m => intMask_lt_of_selectMaskable⟩
  case all =>
    refine selectMaskable_eq_none_iff.2 fun m => Bool.eq_false_iff.2 fun he => ?_
    have := intMask_lt_of_eligible s he
    have := maskPrio_le m s
    omega
  case software =>
    have : intMask s < swiPrio k := intMask_lt_of_selectMaskable sel
    have := swiPrio_le k
    omega
  case event =>
    have : intMask s < eventPrio e s := intMask_lt_of_selectMaskable sel
    omega

/-- Settles O42: an eligible event's priority is 9 or more, so what is selected is above every software interrupt's. -/
theorem g3EventsOutrankSoftwareInterrupts : Obligations.G3EventsOutrankSoftwareInterrupts := by
  intro s hd
  have range : ∀ e, eventPrio e s = 0 ∨ (9 ≤ eventPrio e s ∧ eventPrio e s ≤ 15) := by
    obtain ⟨-, -, -, range⟩ := priorityFunction
    intro e
    rw [eventPrio, hd]
    exact range _
  refine ⟨range, fun e he => ?_⟩
  have above : intMask s < eventPrio e s := intMask_lt_of_eligible (m := .event e) s he
  cases sel : selectMaskable s with
  | none => exact absurd (selectMaskable_eq_none_iff.1 sel (.event e)) (by simp [eligible, he])
  | some m =>
    cases m with
    | event e' => exact ⟨e', rfl⟩
    | swi k =>
      have most : eventPrio e s ≤ swiPrio k := (selectMaskable_spec sel).2 (.event e) he
      have := swiPrio_le k
      rcases range e with h | ⟨h, -⟩ <;> omega

/-! ### The enables (60_exceptions.md R161) -/

@[simp] theorem bitOf_clearBit_same (b : BitName) (s : State) : bitOf b (clearBit b s) = false := by
  simp [bitOf_clearBit]

/-- In a map a chip can have, clearing a bit leaves every other. -/
theorem bitOf_clearBit_ne (hw : mapWf s.cfg = true) (h : c ≠ b) : bitOf c (clearBit b s) = bitOf c s := by
  have : bitPlace s.cfg c ≠ bitPlace s.cfg b := fun e => h (bitPlace_injective hw e)
  simp [bitOf_clearBit, this]

/-- Clearing a named bit changes its own register alone. -/
theorem sfrGet_clearBit_ne {r : Sfr} (h : r ≠ bitReg s.cfg b) : sfrGet r (clearBit b s) = sfrGet r s :=
  sfrGet_sfrPut_ne s _ h

theorem eligibleEvent_of_disabled (h : bitOf .ea s = false ∨ bitOf (eventEnable e) s = false) :
    eligibleEvent e s = false := by
  rcases h with h | h <;> simp [eligibleEvent, h]

/-- An individual enable disables its own source and no other. -/
theorem eligibleEvent_clearBit_enable (hw : mapWf s.cfg = true) (hne : e' ≠ e) :
    eligibleEvent e' (clearBit (eventEnable e) s) = eligibleEvent e' s := by
  obtain ⟨outside, notEa, notFlag⟩ := eventEnable_apart e e'
  have pswh : (clearBit (eventEnable e) s).pswh = s.pswh :=
    sfrGet_clearBit_ne (r := .pswh) fun h => outside ((bitReg_eq_pswh _ _).1 h.symm)
  have request : ∀ b ∈ eventFlags e', bitOf b (clearBit (eventEnable e) s) = bitOf b s := fun b hb =>
    bitOf_clearBit_ne hw fun h => notFlag (h ▸ hb)
  rw [eligibleEvent_eq request (bitOf_clearBit_ne hw fun h => hne (eventEnable_injective h))
    (bitOf_clearBit_ne hw notEa.symm) (eventPrio_congr (clearBit_cfg s _) (sfrGet_clearBit_ne (ipaOf_apart e' _ _).1)),
    intMask_congr pswh]
  rfl

/-- Settles O38: what is not eligible is not accepted, and what is the only eligible one is selected. -/
theorem eventInterruptEnabling : Obligations.EventInterruptEnabling := by
  intro s e hw
  have refused : eligibleEvent e s = false → acceptable s ≠ some (.event e) := fun h acc => by
    have : eligibleEvent e s = true := eligible_of_acceptable acc
    rw [h] at this
    cases this
  have cleared : ∀ b, bitOf b (clearBit b s) = false := fun b => bitOf_clearBit_same b s
  refine ⟨fun h => refused (eligibleEvent_of_disabled (.inl h)), fun h => refused (eligibleEvent_of_disabled (.inr h)),
    ⟨eligibleEvent_of_disabled (.inl (cleared _)), eligibleEvent_of_disabled (.inr (cleared _))⟩,
    fun e' => eligibleEvent_clearBit_enable hw, fun le acc => ?masked,
    fun hold request ea enable above alone => ?accepted⟩
  case masked =>
    have : intMask s < eventPrio e s := intMask_lt_of_eligible s (eligible_of_acceptable acc)
    omega
  case accepted =>
    refine acceptable_eq_some_iff.2 ⟨hold, selectMaskable_eq_some_iff.2 ⟨?_, fun m he hne => ?_⟩⟩
    · simp [eligible, eligibleEvent, request, ea, enable, above]
    · rw [alone m hne] at he
      cases he

/-! ### Setting a priority (60_exceptions.md R163; 10_state.md R38) -/

/-- The byte x with the field of a slot replaced by f: the low nibble for an even slot, the high one for an odd. -/
def withField (slot : Nat) (f : BitVec 4) (x : Byte) : Byte :=
  if slot % 2 = 0 then x.extractLsb' 4 4 ++ f else f ++ x.extractLsb' 0 4

theorem withField_same (slot : Nat) (f : BitVec 4) (x : Byte) :
    (withField slot f x).extractLsb' (4 * (slot % 2)) 4 = f := by
  rcases Nat.mod_two_eq_zero_or_one slot with h | h <;> rw [withField, h]
  · exact BitVec.extractLsb'_append_eq_right
  · exact BitVec.extractLsb'_append_eq_left

theorem withField_other {slot slot' : Nat} (hne : slot' % 2 ≠ slot % 2) (f : BitVec 4) (x : Byte) :
    (withField slot f x).extractLsb' (4 * (slot' % 2)) 4 = x.extractLsb' (4 * (slot' % 2)) 4 := by
  rcases Nat.mod_two_eq_zero_or_one slot with h | h
  · rw [show slot' % 2 = 1 by omega, withField, h]
    exact BitVec.extractLsb'_append_eq_left
  · rw [show slot' % 2 = 0 by omega, withField, h]
    exact BitVec.extractLsb'_append_eq_right

/-- In the family a source's IPA register is storage in every bit. -/
theorem sfrMask_ipaOf_family (hd : s.cfg.derivative = .family) (e : EventSource) : sfrMask (ipaOf e) s = 0xFF#8 := by
  have ipa := ipaOf_mem e
  simp only [List.mem_cons, List.not_mem_nil, or_false] at ipa
  rcases ipa with h | h | h | h | h <;> simp [sfrMask, h, implMask, ipaMask, hd]

/-- In the family one MOV.B gives a source any of the 16 levels, and no other source another. -/
theorem exec_movb_sets_eventPrio {a : BitVec 11} {p : Nat} (hd : s.cfg.derivative = .family)
    (ha : sfrAt s.cfg a = some (ipaOf e)) (hp : p < 16) :
    ∃ v t, exec (.movb a v) s = .next t ∧ eventPrio e t = p ∧ ∀ e', e' ≠ e → eventPrio e' t = eventPrio e' s := by
  obtain ⟨-, hh, hl⟩ := ipaOf_apart e s.cfg .ea
  obtain ⟨t, run, get, others, -, -, -, -, ⟨-, -, cfg, -⟩, -⟩ :=
    movbWritesTheRegister s a (withField (eventSlot e) (BitVec.ofNat 4 p) (sfrGet (ipaOf e) s)) (ipaOf e) ha hl
      fun h => absurd h hh
  rw [sfrMask_ipaOf_family hd, show ∀ v : Byte, v &&& 0xFF#8 = v from fun v => BitVec.and_allOnes] at get
  refine ⟨_, t, run, ?own, fun e' hne => ?other⟩
  case own =>
    rw [eventPrio, cfg, hd, eventField_eq, get, withField_same, prio, BitVec.toNat_ofNat, Nat.mod_eq_of_lt hp]
  case other =>
    by_cases h : ipaOf e' = ipaOf e
    · rw [eventPrio, eventPrio, cfg, eventField_eq, eventField_eq, h, get, withField_other (eventSlot_parity_ne hne h)]
    · exact eventPrio_congr cfg (others _ h (ipaOf_apart e' s.cfg .ea).2.2)

/-- Settles O39: the priority decides through eligibility and through the selection. -/
theorem eventPriority : Obligations.EventPriority := by
  intro s e
  have above : selectMaskable s = some (.event e) → intMask s < eventPrio e s := intMask_lt_of_selectMaskable
  refine ⟨rfl, fun le sel => ?masked, fun e' he lt sel => ?lower, fun he first => ?highest, fun zero sel => ?zero,
    fun a p => exec_movb_sets_eventPrio⟩
  case masked => have := above sel; omega
  case lower =>
    have : eventPrio e s ≤ eventPrio e' s := (selectMaskable_spec sel).2 (.event e) he
    omega
  case highest => exact selectMaskable_eq_some_iff.2 ⟨he, fun m hm hne => .inl (first m hne hm)⟩
  case zero => have := above sel; omega

end Sys2Proof.Machine

/-! SETB of a software interrupt's request (60_exceptions.md R172; 41_sfr_access_instructions.md R122; log 20). -/

namespace Sys2Proof.Machine

variable {s t : State} {b : BitName} {r : Sfr}

theorem pairedReg_pairedReg (r : Sfr) : pairedReg (pairedReg r) = r := by cases r <;> rfl

/-- Where a register is in no pair, the source fixes which named bits are in it. -/
theorem bitReg_eq_iff_of_unpaired (h : pairedReg r = r) (c : Config) (b : BitName) :
    bitReg c b = r ↔ (familyPlace b).1 = r := by
  rcases bitReg_cases c b with e | ⟨_, e⟩ <;> rw [e]
  exact ⟨fun hp => by rw [← pairedReg_pairedReg (familyPlace b).1, hp, h], fun hp => by rw [hp, h]⟩

/-- A named bit is the same where its register reads the same. -/
theorem bitOf_congr_reg (hc : t.cfg = s.cfg) (h : sfrGet (bitReg s.cfg b) t = sfrGet (bitReg s.cfg b) s) :
    bitOf b t = bitOf b s := by
  rw [bitOf, bitOf, hc, h]

theorem bitOf_of_bitPlace {n : Nat} (h : bitPlace s.cfg b = (r, n)) : bitOf b s = (sfrGet r s).getLsbD n := by
  obtain ⟨rfl, rfl⟩ := Prod.mk.inj h
  rfl

/-- The flags of the events are in TCON, T2CON, S0CON and S1CON. -/
theorem eventFlags_place {e : EventSource} (hb : b ∈ eventFlags e) :
    (familyPlace b).1 ∈ [Sfr.tcon, .t2con, .s0con, .s1con] :=
  (by decide : ∀ e ∈ byRanking, ∀ b ∈ eventFlags e, (familyPlace b).1 ∈ [Sfr.tcon, .t2con, .s0con, .s1con])
    e (mem_byRanking e) b hb

theorem eventEnable_place (e : EventSource) : (familyPlace (eventEnable e)).1 ∈ [Sfr.iel, .ieh] := by
  cases e <;> decide

/-- State t is s with SWR alone changed, as far as the interrupt controller reads it. -/
structure SwrChanged (s t : State) : Prop where
  cfg : t.cfg = s.cfg
  others : ∀ r, r ≠ .swr → sfrGet r t = sfrGet r s

theorem SwrChanged.bitOf_eq (h : SwrChanged s t) (hb : (familyPlace b).1 ≠ .swr) : bitOf b t = bitOf b s :=
  bitOf_congr_reg h.cfg (h.others _ fun e => hb ((bitReg_eq_iff_of_unpaired rfl _ _).1 e))

theorem SwrChanged.intMask_eq (h : SwrChanged s t) : intMask t = intMask s :=
  intMask_congr (h.others .pswh (by decide))

/-- No event depends on SWR. -/
theorem SwrChanged.eligibleEvent_eq (h : SwrChanged s t) (e : EventSource) : eligibleEvent e t = eligibleEvent e s := by
  have flags : ∀ b ∈ eventFlags e, bitOf b t = bitOf b s := fun b hb =>
    h.bitOf_eq fun place => by simpa [place] using eventFlags_place hb
  have enable : bitOf (eventEnable e) t = bitOf (eventEnable e) s :=
    h.bitOf_eq fun place => by simpa [place] using eventEnable_place e
  have prio : eventPrio e t = eventPrio e s :=
    eventPrio_congr h.cfg (h.others _ fun ipa => by simpa [ipa] using ipaOf_mem e)
  rw [Machine.eligibleEvent_eq flags enable (h.bitOf_eq (by decide)) prio, h.intMask_eq]
  rfl

/-- Of a software interrupt's conditions only the request depends on SWR. -/
theorem SwrChanged.eligibleSwi_eq (h : SwrChanged s t) (k : Fin 7) :
    eligibleSwi k t =
      (swiPresent s.cfg && bitOf (swiRequest k) t && bitOf (swiEnable k) s && decide (intMask s < swiPrio k) &&
        (bitOf .ea s || !s.cfg.eaGatesSwi)) := by
  have enable : bitOf (swiEnable k) t = bitOf (swiEnable k) s :=
    h.bitOf_eq ((by decide : ∀ k, (familyPlace (swiEnable k)).1 ≠ .swr) k)
  rw [eligibleSwi, h.cfg, enable, h.intMask_eq, h.bitOf_eq (b := .ea) (by decide)]

/-- Settles O45, by `setbSetsOneBit`: SETB changes SWR alone, and of the requests the one it names. -/
theorem setbOfSwrRequestsItsInterrupt : Obligations.SetbOfSwrRequestsItsInterrupt := by
  intro s k b hb
  obtain ⟨t, run, bits, others, -, -, -, -, ⟨-, -, cfg, -⟩, -⟩ := setbSetsOneBit s b .swr k.val hb nofun
  have changed : SwrChanged s t := ⟨cfg, others⟩
  have request : ∀ j : Fin 7, bitOf (swiRequest j) t = (decide (j = k) || bitOf (swiRequest j) s) := by
    intro j
    have stored : (sfrMask .swr s).getLsbD j.val = true :=
      (by decide : ∀ j : Fin 7, (0x7F#8).getLsbD j.val = true) j
    rw [bitOf_of_bitPlace (bitPlace_swiRequest t.cfg j), bitOf_of_bitPlace (bitPlace_swiRequest s.cfg j),
      bits j.val stored]
    simp only [Fin.ext_iff]
  refine ⟨t, run, ?own, fun j hj => ?other, changed.eligibleEvent_eq⟩
  case own =>
    rw [changed.eligibleSwi_eq, request]
    simp [swiPrio]
  case other =>
    rw [changed.eligibleSwi_eq, request, decide_eq_false hj, Bool.false_or]
    rfl

end Sys2Proof.Machine

/-! The acceptance of a maskable interrupt at a boundary (60_exceptions.md R187, R190): its sequence and the request it
clears (92_eei_decisions.md D10; log 22). -/

namespace Sys2Proof.Machine

variable {s t u : State} {va : Word} {m : Maskable} {b : BitName} {p q : Pending}

/-! ### The exceptions sequences leave pending (log 17, log 18) -/

theorem gainsBySequences_refl (s : State) (p : Pending) : gainsBySequences s p p :=
  ⟨fun _ h => h, fun _ h => .inl h⟩

theorem gainsBySequences_trans {r : Pending} (h : gainsBySequences s p q) (h' : gainsBySequences s q r) :
    gainsBySequences s p r := by
  obtain ⟨keeps, gains⟩ := h
  obtain ⟨keeps', gains'⟩ := h'
  refine ⟨fun e he => keeps' e (keeps e he), fun e he => ?_⟩
  rcases gains' e he with he | he
  · exact gains e he
  · exact .inr he

theorem gainsBySequences_congr (hc : t.cfg = s.cfg) (h : gainsBySequences s p q) : gainsBySequences t p q := by
  rw [gainsBySequences, hc]
  exact h

/-- One exception added is StackOverflow, or Trace at a TRACE_POINT other than the default. -/
theorem gainsBySequences_add {e : Exc} (he : e = .stackOverflow ∨ (e = .trace ∧ s.cfg.tracePoint ≠ .beginsTraced))
    (p : Pending) : gainsBySequences s p (p.add e) := by
  refine ⟨fun x hx => by rw [Pending.has_add, hx, Bool.or_true], fun x hx => ?_⟩
  rw [Pending.has_add, Bool.or_eq_true, decide_eq_true_eq] at hx
  rcases hx with rfl | hx
  · exact .inr he
  · exact .inl hx

theorem gainsBySequences_service {ret : CodeAddr} (e : service va ret s = .next t) :
    gainsBySequences s s.pending t.pending := by
  obtain ⟨-, -, -, -, -, -, -, -, -, -, pending, -⟩ := service_frame e
  rcases pending with h | h <;> rw [h]
  · exact gainsBySequences_refl s _
  · exact gainsBySequences_add (.inl rfl) _

theorem gainsBySequences_traceAfter (s t : State) :
    gainsBySequences s t.pending (traceAfter .sequence s t).pending := by
  rw [traceAfter_pending]
  split
  case isTrue h =>
    refine gainsBySequences_add (.inr ⟨rfl, fun point => ?_⟩) _
    rw [traceRaised_sequence point] at h
    cases h
  case isFalse => exact gainsBySequences_refl s _

/-! ### A sequence at a boundary -/

/-- State t is what the sequence of the vector at va leaves that a boundary takes in s: the return address is the pc,
and an exception may be pending besides. -/
structure Taken (va : Word) (s t : State) : Prop extends Serviced va s.pc s t where
  frame : ∀ a, dataByte t a = dataByte (pushFrame s.pc s) a
  sfr : t.sfr = s.sfr
  hold : t.hold = s.hold
  gains : gainsBySequences s s.pending t.pending

theorem Taken.cfg (h : Taken va s t) : t.cfg = s.cfg := by
  obtain ⟨-, -, cfg, -⟩ := h.rest
  exact cfg

theorem taken_of_takeInterrupt (e : takeInterrupt va s = .next t) : Taken va s t := by
  obtain ⟨u, seq, rfl⟩ := takeInterrupt_eq_next e
  obtain ⟨-, -, -, -, sfr, -, -, -, hold, -⟩ := service_frame seq
  exact
    { (serviced_of_service seq).traceAfter .sequence s with
      frame := fun a => (dataByte_congr (traceAfter_data s .sequence u) a).trans (dataByte_service seq a)
      sfr := (traceAfter_sfr s .sequence u).trans sfr
      hold := (traceAfter_hold s .sequence u).trans hold
      gains := gainsBySequences_trans (gainsBySequences_service seq) (gainsBySequences_traceAfter s u) }

/-- With an even System Stack pointer and an even ISR address a boundary's sequence completes. -/
theorem takeInterrupt_of_even (even : isOdd s.ssp = false) (aligned : isOdd (codeRead16 s (va + 2#16)) = false) :
    ∃ t, takeInterrupt va s = .next t :=
  ⟨_, takeInterrupt_of_service (service_of_even even aligned)⟩

/-! ### The request that is cleared -/

theorem clearOnService_of_none (h : clearedRequest m = none) (s : State) : clearOnService m s = s := by
  cases m with
  | event e => cases e <;> simp_all [clearedRequest, clearOnService]
  | swi k => rfl

theorem clearOnService_of_some (h : clearedRequest m = some b) (s : State) : clearOnService m s = clearBit b s := by
  cases m with
  | event e => cases e <;> cases h <;> rfl
  | swi k => cases h

/-- The bits that are cleared are in TCON, in every map. -/
theorem bitReg_of_clearedRequest (h : clearedRequest m = some b) (c : Config) : bitReg c b = .tcon := by
  have place : (familyPlace b).1 = .tcon := by
    cases m with
    | event e => cases e <;> cases h <;> rfl
    | swi k => cases h
  exact (bitReg_eq_iff_of_unpaired rfl c b).2 place

/-- A cleared request is one of its own source. -/
theorem eq_of_clearedRequest_mem {e e' : EventSource} (h : clearedRequest (.event e) = some b)
    (hb : b ∈ eventFlags e') : e' = e :=
  (by decide : ∀ e ∈ byRanking, ∀ e' ∈ byRanking, ∀ b ∈ eventFlags e', clearedRequest (.event e) = some b → e' = e)
    e (mem_byRanking e) e' (mem_byRanking e') b hb h

theorem sfrGet_clearOnService_ne {r : Sfr} (hr : r ≠ .tcon) (m : Maskable) (s : State) :
    sfrGet r (clearOnService m s) = sfrGet r s := by
  cases h : clearedRequest m with
  | none => rw [clearOnService_of_none h]
  | some b => rw [clearOnService_of_some h, sfrGet_clearBit_ne (by rwa [bitReg_of_clearedRequest h])]

theorem sfrGet_tcon_clearOnService (h : clearedRequest m = some b) (s : State) :
    sfrGet .tcon (clearOnService m s) = sfrGet .tcon s &&& ~~~ bitMask (bitPos s.cfg b) := by
  rw [clearOnService_of_some h, clearBit, bitReg_of_clearedRequest h, sfrGet_sfrPut_same]

/-- In a map a chip can have, no other bit is cleared. -/
theorem bitOf_clearOnService_ne (hw : mapWf s.cfg = true) (hb : clearedRequest m ≠ some b) :
    bitOf b (clearOnService m s) = bitOf b s := by
  cases h : clearedRequest m with
  | none => rw [clearOnService_of_none h]
  | some c => rw [clearOnService_of_some h, bitOf_clearBit_ne hw fun e => hb (by rw [h, e])]

/-! ### The boundary -/

/-- With nothing pending, a boundary that can accept an interrupt accepts it. -/
theorem cpuStep_of_acceptable (hp : s.pending = Pending.empty) (ha : acceptable s = some m) :
    cpuStep s = acceptMaskable m s := by
  simp [cpuStep, hp, ha, Pending.empty]

theorem taken_of_acceptMaskable (e : acceptMaskable m s = .next t) :
    ∃ u, Taken (maskVector m) s u ∧ t = clearOnService m u := by
  obtain ⟨u, taken, clear⟩ := andThen_eq_next e
  cases clear
  exact ⟨u, taken_of_takeInterrupt taken, rfl⟩

theorem acceptMaskable_of_even (even : isOdd s.ssp = false)
    (aligned : isOdd (codeRead16 s (maskVector m + 2#16)) = false) : ∃ t, acceptMaskable m s = .next t := by
  obtain ⟨u, e⟩ := takeInterrupt_of_even even aligned
  exact ⟨_, by rw [acceptMaskable, e, andThen_next]⟩

/-- Settles O43: the sequence leaves the registers outside the PSW, and the clearing TCON's other bits. -/
theorem acceptanceClearsItsRequestAlone : Obligations.AcceptanceClearsItsRequestAlone := by
  intro s m hp ha even aligned
  obtain ⟨t, e⟩ := acceptMaskable_of_even even aligned
  obtain ⟨u, taken, rfl⟩ := taken_of_acceptMaskable e
  obtain ⟨ccfg, cpc, cpswh, cpswl, cssp, cusp, cregs, cds, cpending, ccode, cdata, cinputs, csupplied, chold, -⟩ :=
    clearOnService_frame u m
  obtain ⟨code, ⟨regs, ds⟩, cfg, inputs, supplied⟩ := taken.rest
  have words := memRead16_congr cdata
  have bytes := dataByte_congr cdata
  have tcon : sfrGet .tcon u = sfrGet .tcon s := taken.sfrs .tcon nofun nofun
  refine ⟨_, (cpuStep_of_acceptable hp ha).trans e, ?psw, cpc.trans taken.newPc, cssp.trans taken.ssp,
    cusp.trans taken.usp, (words _).trans taken.retLow, fun native => (words _).trans (taken.retHigh native), ?old,
    fun a => (bytes a).trans (taken.frame a), fun a ha => (bytes a).trans (taken.outside a ha), ?rest,
    chold.trans taken.hold, ?gains, fun r hh hl ht => ?others, fun none => ?kept, fun b hb => ⟨?cleared, ?zero⟩,
    fun hw b hb outside => ?bits⟩
  case psw => exact (psw_congr cpswh cpswl).trans taken.newPsw
  case old => rw [words, cssp, taken.oldPsw]
  case rest =>
    exact ⟨fun a => (codeByte_congr ccode a).trans (code a),
      ⟨fun i => (congrArg (Memory.read regFill · i) cregs :).trans (regs i), cds.trans ds⟩, ccfg.trans cfg,
      cinputs.trans inputs, csupplied.trans supplied⟩
  case gains => rw [cpending, ← hp]; exact taken.gains
  case others => rw [sfrGet_clearOnService_ne ht, taken.sfrs r hh hl]
  case kept => rw [clearOnService_of_none none, tcon]
  case cleared => rw [sfrGet_tcon_clearOnService hb, tcon, cfg]
  case zero => rw [clearOnService_of_some hb, bitOf_clearBit_same]
  case bits =>
    rw [← cfg] at hw
    rw [bitOf_clearOnService_ne hw hb]
    exact bitOf_congr_sfr cfg taken.sfr fun place => outside ((bitReg_eq_pswh _ _).2 place)

/-- Settles O40: the winner goes before every other interrupt, and its acceptance leaves the others' bits. -/
theorem simultaneousEvents : Obligations.SimultaneousEvents := by
  intro s e hw hp hold he first software even aligned
  have sel : acceptable s = some (.event e) := by
    refine acceptable_eq_some_iff.2 ⟨hold, selectMaskable_eq_some_iff.2 ⟨he, fun m hm hne => ?_⟩⟩
    cases m with
    | event e' => exact first e' (fun h => hne (congrArg Maskable.event h)) hm
    | swi k => exact .inl (software k hm)
  obtain ⟨t, run, newPsw, newPc, -, -, -, -, -, -, -, ⟨-, -, cfg, -⟩, -, -, others, -, -, bits⟩ :=
    acceptanceClearsItsRequestAlone s (.event e) hp sel even aligned
  have kept : ∀ b, clearedRequest (.event e) ≠ some b → (familyPlace b).1 ≠ .pswh → bitOf b t = bitOf b s :=
    fun b hb place => bits hw b hb fun reg => place ((bitReg_eq_pswh _ _).1 reg)
  have notCleared : ∀ b, (familyPlace b).1 ≠ .tcon → clearedRequest (.event e) ≠ some b := fun b place h =>
    place ((bitReg_eq_iff_of_unpaired rfl s.cfg b).1 (bitReg_of_clearedRequest h s.cfg))
  refine ⟨t, run, newPc, newPsw, fun e' hne => ?_⟩
  have flags : ∀ b ∈ eventFlags e', bitOf b t = bitOf b s := fun b hb =>
    kept b (fun h => hne (eq_of_clearedRequest_mem h hb)) fun place => by simpa [place] using eventFlags_place hb
  have enable : bitOf (eventEnable e') t = bitOf (eventEnable e') s :=
    kept _ (notCleared _ fun place => by simpa [place] using eventEnable_place e') (eventEnable_apart e' e').1
  have ea : bitOf .ea t = bitOf .ea s := kept .ea (notCleared _ (by decide)) (by decide)
  have prio : eventPrio e' t = eventPrio e' s := by
    obtain ⟨-, hh, hl⟩ := ipaOf_apart e' s.cfg .ea
    exact eventPrio_congr cfg (others _ hh hl fun ipa => by simpa [ipa] using ipaOf_mem e')
  exact ⟨eventRequest_congr flags, eligibleEvent_eq flags enable ea prio⟩

/-- Settles O44: what the sequence leaves differs for the controller in IM alone. An interrupt that has become eligible
is of a priority not above the old IM, and so below the selected one; among the others the selection stands. -/
theorem handlerBelowItsPriorityInterruptsItself : Obligations.HandlerBelowItsPriorityInterruptsItself := by
  intro s t m hp ha hnone e below
  rw [cpuStep_of_acceptable hp ha] at e
  obtain ⟨u, taken, rfl⟩ := taken_of_acceptMaskable e
  rw [clearOnService_of_none hnone] at below ⊢
  obtain ⟨hold, sel⟩ := acceptable_eq_some_iff.1 ha
  obtain ⟨he, first⟩ := selectMaskable_eq_some_iff.1 sel
  have same := armed_congr taken.cfg taken.sfr
  have again : acceptable u = some m := by
    refine acceptable_eq_some_iff.2 ⟨taken.hold.trans hold, selectMaskable_eq_some_iff.2 ⟨?_, fun m' he' hne => ?_⟩⟩
    · obtain ⟨armed, prio⟩ := same m
      obtain ⟨was, -⟩ := (eligible_iff s m).1 he
      exact (eligible_iff u m).2 ⟨armed.trans was, by rwa [prio]⟩
    · obtain ⟨is, -⟩ := (eligible_iff u m').1 he'
      rw [(same m').1] at is
      rw [Outranks, (same m).2, (same m').2]
      by_cases above : intMask s < maskPrio m' s
      · exact first m' ((eligible_iff s m').2 ⟨is, above⟩) hne
      · exact .inl (lt_of_le_of_lt (not_lt.1 above) (intMask_lt_of_eligible s he))
  exact ⟨again, fun quiet => cpuStep_of_acceptable quiet again⟩

end Sys2Proof.Machine

/-! The exceptions pending at a boundary (60_exceptions.md R140, R150, R190; 92_eei_decisions.md D33): their sequences
run one after the other, each frame below the one before. -/

namespace Sys2Proof.Machine

variable {s t u : State} {S a : Word} {m n : Nat} {va : Word} {e : Exc} {es : List Exc}

/-! ### Frames one below the other (log 3) -/

/-- The n bytes below S are those fewer than n below the first, S - 1, also where they wrap around. -/
theorem inFrame_iff : inFrame S n a = true ↔ (S - 1#16 - a).toNat < n := by
  simp only [inFrame, decide_eq_true_eq, BitVec.toNat_sub, BitVec.toNat_ofNat]
  omega

/-- How far below S - m a byte lies, by how far it lies below S. -/
theorem toNat_below (S a : Word) (hm : m ≤ 2 ^ 16) :
    (S - BitVec.ofNat 16 m - 1#16 - a).toNat = ((S - 1#16 - a).toNat + (2 ^ 16 - m)) % 2 ^ 16 := by
  simp only [BitVec.toNat_sub, BitVec.toNat_ofNat]
  omega

/-- A byte outside the m + n below S is outside the m below S, and outside the n below those. -/
theorem not_inFrame_of_add (h : inFrame S (m + n) a = false) (hw : m + n ≤ 2 ^ 16) :
    inFrame S m a = false ∧ inFrame (S - BitVec.ofNat 16 m) n a = false := by
  rw [Bool.eq_false_iff, ne_eq, inFrame_iff] at h
  rw [Bool.eq_false_iff, ne_eq, inFrame_iff, Bool.eq_false_iff, ne_eq, inFrame_iff,
    toNat_below S a (by omega)]
  have := (S - 1#16 - a).isLt
  omega

/-- None of the m bytes below S is one of the n below those. -/
theorem not_inFrame_below (h : inFrame S m a = true) (hw : m + n ≤ 2 ^ 16) :
    inFrame (S - BitVec.ofNat 16 m) n a = false := by
  rw [inFrame_iff] at h
  rw [Bool.eq_false_iff, ne_eq, inFrame_iff, toNat_below S a (by omega)]
  omega

theorem frameSize_bounds (s : State) : 2 ≤ frameSize s ∧ frameSize s ≤ 6 := by
  unfold frameSize
  split <;> decide

theorem isOdd_sub_frameSize (S : Word) (s : State) : isOdd (S - BitVec.ofNat 16 (frameSize s)) = isOdd S := by
  cases h : page0Mode s with
  | true =>
    rw [frameSize_of_page0 h, show S - BitVec.ofNat 16 4 = S - 2#16 - 2#16 by bv_omega, isOdd_sub_two, isOdd_sub_two]
  | false =>
    rw [frameSize_of_native h, show S - BitVec.ofNat 16 6 = S - 2#16 - 2#16 - 2#16 by bv_omega, isOdd_sub_two,
      isOdd_sub_two, isOdd_sub_two]

/-! ### Several sequences -/

/-- State t is what sequences at one boundary leave of s that push n bytes, but for the PSW and the pc. -/
structure Stacked (n : Nat) (s t : State) : Prop where
  ssp : t.ssp = s.ssp - BitVec.ofNat 16 n
  usp : t.usp = s.usp
  outside : sameDataOutside s.ssp n s t
  sfr : t.sfr = s.sfr
  rest : untouched s t
  gains : gainsBySequences s s.pending t.pending

theorem Stacked.refl (s : State) : Stacked 0 s s where
  ssp := by simp
  usp := rfl
  outside _ _ := rfl
  sfr := rfl
  rest := ⟨fun _ => rfl, ⟨fun _ => rfl, rfl⟩, rfl, rfl, rfl⟩
  gains := gainsBySequences_refl s _

theorem untouched_trans (h : untouched s u) (h' : untouched u t) : untouched s t := by
  obtain ⟨code, ⟨regs, ds⟩, cfg, inputs, supplied⟩ := h
  obtain ⟨code', ⟨regs', ds'⟩, cfg', inputs', supplied'⟩ := h'
  exact ⟨fun a => (code' a).trans (code a), ⟨fun i => (regs' i).trans (regs i), ds'.trans ds⟩, cfg'.trans cfg,
    inputs'.trans inputs, supplied'.trans supplied⟩

theorem Stacked.trans (h : Stacked m s u) (h' : Stacked n u t) (hw : m + n ≤ 2 ^ 16) : Stacked (m + n) s t where
  ssp := by rw [h'.ssp, h.ssp, BitVec.ofNat_add]; bv_omega
  usp := h'.usp.trans h.usp
  outside a ha := by
    obtain ⟨outer, inner⟩ := not_inFrame_of_add ha hw
    rw [← h.ssp] at inner
    exact (h'.outside a inner).trans (h.outside a outer)
  sfr := h'.sfr.trans h.sfr
  rest := untouched_trans h.rest h'.rest
  gains := by
    obtain ⟨-, -, cfg, -⟩ := h.rest
    exact gainsBySequences_trans h.gains (gainsBySequences_congr cfg.symm h'.gains)

theorem Taken.stacked (h : Taken va s t) : Stacked (frameSize s) s t where
  ssp := h.ssp
  usp := h.usp
  outside := h.outside
  sfr := h.sfr
  rest := h.rest
  gains := h.gains

theorem Stacked.cfg (h : Stacked n s t) : t.cfg = s.cfg := by
  obtain ⟨-, -, cfg, -⟩ := h.rest
  exact cfg

/-- Every frame of one boundary is of one size. -/
theorem Stacked.frameSize_eq (h : Stacked n s t) : frameSize t = frameSize s :=
  frameSize_congr (page0Mode_congr h.cfg (congrArg Sfrs.scr h.sfr))

theorem Stacked.codeRead16_eq (h : Stacked n s t) (a : Word) : codeRead16 t a = codeRead16 s a := by
  obtain ⟨code, -⟩ := h.rest
  exact codeRead16_of_sameCode code a

/-- A frame stays as it is when others are pushed below it. -/
theorem Taken.words_of_stacked (h : Taken va s u) (below : Stacked n u t) (fits : frameSize s + n ≤ 2 ^ 16) :
    memRead16 t (s.ssp - 2#16) = addrLow s.pc ∧
      (page0Mode s = false → memRead16 t (s.ssp - 4#16) = (addrHigh s.pc).setWidth 16) ∧
      memRead16 t (s.ssp - BitVec.ofNat 16 (frameSize s)) = psw s := by
  have words := memRead16_of_sameFrame (S := s.ssp) (n := frameSize s) (u := t) (t := u) fun a ha =>
    below.outside a (by rw [h.ssp]; exact not_inFrame_below ha fits)
  obtain ⟨low, -⟩ := frameSize_bounds s
  refine ⟨(words 2 le_rfl low).trans h.retLow, fun native => ?high, ?old⟩
  case high =>
    rw [frameSize_of_native native] at words
    exact (words 4 (by decide) (by decide)).trans (h.retHigh native)
  case old => rw [words _ low le_rfl, ← h.ssp, h.oldPsw]

/-! ### The sequences of a list of exceptions -/

theorem andThen_assoc (o : Host.Outcome State Fault Refusal) (f g : State → Host.Outcome State Fault Refusal) :
    andThen (andThen o f) g = andThen o fun s => andThen (f s) g := by
  cases o <;> rfl

theorem serviceAll_append (ds es : List Exc) (s : State) :
    serviceAll (ds ++ es) s = andThen (serviceAll ds s) (serviceAll es) := by
  induction ds generalizing s with
  | nil => rfl
  | cons d ds ih =>
    simp only [List.cons_append, serviceAll, andThen_assoc]
    congr 1
    exact funext ih

theorem serviceAll_singleton (e : Exc) (s : State) : serviceAll [e] s = takeInterrupt (excVector e) s := by
  rw [serviceAll]
  cases takeInterrupt (excVector e) s <;> rfl

/-- The last sequence of a list is that of its last exception. -/
theorem serviceAll_concat {ds : List Exc} (h : serviceAll (ds ++ [e]) s = .next t) :
    ∃ u, serviceAll ds s = .next u ∧ takeInterrupt (excVector e) u = .next t := by
  rw [serviceAll_append] at h
  obtain ⟨u, first, last⟩ := andThen_eq_next h
  exact ⟨u, first, (serviceAll_singleton e u).symm.trans last⟩

theorem stacked_of_serviceAll (h : serviceAll es s = .next t) (fits : frameSize s * es.length ≤ 2 ^ 16) :
    Stacked (frameSize s * es.length) s t := by
  induction es generalizing s with
  | nil => cases h; exact .refl _
  | cons e es ih =>
    obtain ⟨u, first, others⟩ := andThen_eq_next h
    have first := (taken_of_takeInterrupt first).stacked
    have size := first.frameSize_eq
    rw [List.length_cons, Nat.mul_succ, Nat.add_comm] at fits ⊢
    rw [← size] at fits
    have others := ih others (by omega)
    rw [size] at fits others
    exact first.trans others fits

/-- With an even System Stack pointer and even ISR addresses the sequences of a list all complete. -/
theorem serviceAll_of_even (even : isOdd s.ssp = false)
    (aligned : ∀ e ∈ es, isOdd (codeRead16 s (excVector e + 2#16)) = false) : ∃ t, serviceAll es s = .next t := by
  induction es generalizing s with
  | nil => exact ⟨s, rfl⟩
  | cons e es ih =>
    obtain ⟨u, first⟩ := takeInterrupt_of_even even (aligned e (List.mem_cons_self ..))
    have taken := taken_of_takeInterrupt first
    obtain ⟨t, others⟩ := ih (s := u) (by rw [taken.ssp, isOdd_sub_frameSize, even]) fun x hx => by
      rw [taken.stacked.codeRead16_eq]
      exact aligned x (List.mem_cons_of_mem _ hx)
    exact ⟨t, by rw [serviceAll, first, andThen_next, others]⟩

/-- The PSW and the pc are those of the last exception's vector. -/
theorem loaded_of_serviceAll {ds : List Exc} (h : serviceAll (ds ++ [e]) s = .next t)
    (fits : frameSize s * ds.length ≤ 2 ^ 16) :
    psw t = codeRead16 s (excVector e) ∧ t.pc = page0 (codeRead16 s (excVector e + 2#16)) := by
  obtain ⟨u, before, last⟩ := serviceAll_concat h
  have code := (stacked_of_serviceAll before fits).codeRead16_eq
  have taken := taken_of_takeInterrupt last
  exact ⟨taken.newPsw.trans (code _), taken.newPc.trans (congrArg page0 (code _))⟩

/-- The highest frame is that of the state the sequences begin in. -/
theorem words_of_serviceAll (h : serviceAll (e :: es) s = .next t) (fits : frameSize s * (e :: es).length ≤ 2 ^ 16) :
    memRead16 t (s.ssp - 2#16) = addrLow s.pc ∧
      (page0Mode s = false → memRead16 t (s.ssp - 4#16) = (addrHigh s.pc).setWidth 16) ∧
      memRead16 t (s.ssp - BitVec.ofNat 16 (frameSize s)) = psw s := by
  obtain ⟨u, first, others⟩ := andThen_eq_next h
  have taken := taken_of_takeInterrupt first
  have size : frameSize u = frameSize s := taken.stacked.frameSize_eq
  rw [List.length_cons, Nat.mul_succ, Nat.add_comm, ← size] at fits
  have below := stacked_of_serviceAll others (by omega)
  exact taken.words_of_stacked below (by rwa [← size])

/-! ### The exceptions in order of precedence -/

theorem byPrecedence_pairwise (c : Config) :
    (byPrecedence c).Pairwise fun e e' => excPrecedence e < excPrecedence e' := by
  unfold byPrecedence
  split <;> decide

theorem mem_allExceptions (e : Exc) : e ∈ allExceptions := by cases e <;> decide

/-- Of a pending set without Reset, and without NMI where there is none, every member is serviced. -/
theorem filter_byPrecedence {c : Config} {p : Pending} (hr : p.reset = false)
    (hn : nmiPresent c = false → p.nmi = false) :
    (byPrecedence c).filter p.has = allExceptions.filter p.has := by
  have noReset : p.has .reset = false := hr
  cases h : nmiPresent c with
  | true => simp [byPrecedence, allExceptions, h, List.filter_cons, noReset]
  | false =>
    have noNmi : p.has .nmi = false := hn h
    simp [byPrecedence, allExceptions, h, List.filter_cons, noReset, noNmi]

/-- In ascending order a member that none exceeds is the last. -/
theorem eq_concat_of_greatest (order : es.Pairwise fun e e' => excPrecedence e < excPrecedence e') (he : e ∈ es)
    (greatest : ∀ e' ∈ es, excPrecedence e' ≤ excPrecedence e) : ∃ ds, es = ds ++ [e] := by
  obtain ⟨ds, post, rfl⟩ := List.append_of_mem he
  obtain ⟨-, order, -⟩ := List.pairwise_append.1 order
  cases post with
  | nil => exact ⟨ds, rfl⟩
  | cons x post =>
    have above := (List.pairwise_cons.1 order).1 x (List.mem_cons_self ..)
    have := greatest x (by simp)
    omega

/-! ### The vectors (20_memory.md R74) -/

theorem vectorsEven_exc (h : vectorsEven s) (e : Exc) : isOdd (codeRead16 s (excVector e + 2#16)) = false :=
  h _ (by simp [takenVectors, List.mem_map_of_mem (mem_allExceptions e)])

theorem vectorsEven_trap (h : vectorsEven s) (n : BitVec 4) : isOdd (codeRead16 s (trapVector n + 2#16)) = false := by
  have mem : trapVector n ∈ (List.finRange 16).map fun n => trapVector (BitVec.ofFin n) :=
    List.mem_map.2 ⟨n.toFin, List.mem_finRange _, rfl⟩
  exact h _ (by simp [takenVectors, mem])

theorem vectorsEven_maskable (h : vectorsEven s) (m : Maskable) :
    isOdd (codeRead16 s (maskVector m + 2#16)) = false :=
  h _ (by simp [takenVectors, List.mem_map_of_mem (mem_allMaskable m)])

/-! ### The boundary -/

theorem cpuStep_of_pending (hr : s.pending.reset = false) (hp : s.pending ≠ Pending.empty) :
    cpuStep s = serviceAll ((byPrecedence s.cfg).filter s.pending.has) (clearPending s) := by
  rw [cpuStep, if_neg (by simp [hr]), if_pos hp, servicePending]

/-- The frames of one boundary fit into data memory. -/
theorem frames_fit (s : State) (p : Pending) : frameSize s * (allExceptions.filter p.has).length ≤ 2 ^ 16 := by
  have count : (allExceptions.filter p.has).length ≤ 7 := List.length_filter_le _ _
  obtain ⟨-, size⟩ := frameSize_bounds s
  exact (Nat.mul_le_mul size count).trans (by decide)

/-- Settles O46: the first sequence pushes the interrupted program's frame, the others stay below it, and the last loads
its vector. -/
theorem highestPrecedenceHandlerRunsFirst : Obligations.HighestPrecedenceHandlerRunsFirst := by
  intro s e hr he greatest noNmi even vectors
  have order := (byPrecedence_pairwise s.cfg).filter s.pending.has
  have run := cpuStep_of_pending hr (Pending.ne_empty_of_has he)
  have fits := frames_fit s s.pending
  rw [filter_byPrecedence hr noNmi] at order run
  obtain ⟨ds, last⟩ := eq_concat_of_greatest order (List.mem_filter.2 ⟨mem_allExceptions e, he⟩) fun x hx =>
    greatest x (List.mem_filter.1 hx).2
  obtain ⟨x, xs, first⟩ := List.exists_cons_of_ne_nil (l := allExceptions.filter s.pending.has) (by simp [last])
  generalize allExceptions.filter s.pending.has = es at *
  intro size
  obtain ⟨t, done⟩ := serviceAll_of_even (s := clearPending s) (es := es) even fun x _ => vectorsEven_exc vectors x
  have all : Stacked size (clearPending s) t := stacked_of_serviceAll done fits
  obtain ⟨newPsw, newPc⟩ := loaded_of_serviceAll (s := clearPending s) (ds := ds) (last ▸ done)
    ((Nat.mul_le_mul_left _ (by simp [last])).trans fits)
  obtain ⟨low, high, old⟩ := words_of_serviceAll (s := clearPending s) (first ▸ done) (first ▸ fits)
  exact ⟨t, run.trans done, newPsw, newPc, all.ssp, all.usp, low, high, old, all.outside, all.gains,
    fun _ => sfrGet_congr_sfr all.sfr, all.rest⟩

/-- In 24-bit mode a frame takes 6 bytes, three words. -/
theorem Taken.native (h : Taken va s t) (hz : page0Mode s = false) :
    t.ssp = s.ssp - 6#16 ∧ memRead16 t (s.ssp - 2#16) = addrLow s.pc ∧
      memRead16 t (s.ssp - 4#16) = (addrHigh s.pc).setWidth 16 ∧ memRead16 t (s.ssp - 6#16) = psw s := by
  have pointer : t.ssp = s.ssp - 6#16 := by rw [h.ssp, frameSize_of_native hz]
  exact ⟨pointer, h.retLow, h.retHigh hz, pointer ▸ h.oldPsw⟩

/-- Settles O47: the second frame is pushed at the Breakpoint handler's entry. -/
theorem breakpointWithTrace : Obligations.BreakpointWithTrace := by
  intro s hp native even alignedB alignedT
  have run : cpuStep s = serviceAll [.breakpoint, .trace] (clearPending s) := by
    rw [cpuStep_of_pending (by rw [hp]; rfl) (by rw [hp]; exact Pending.add_ne_empty _ _), hp,
      filter_byPrecedence rfl fun _ => rfl]
    rfl
  obtain ⟨t, done⟩ : ∃ t, serviceAll [.breakpoint, .trace] (clearPending s) = .next t :=
    serviceAll_of_even even (by simpa using ⟨alignedB, alignedT⟩)
  have size : frameSize (clearPending s) = 6 := frameSize_of_native native
  have all : Stacked 12 (clearPending s) t := by simpa [size] using stacked_of_serviceAll done (by rw [size]; decide)
  obtain ⟨newPsw, newPc⟩ := loaded_of_serviceAll (ds := [.breakpoint]) done (by rw [size]; decide)
  obtain ⟨low, high, old⟩ := words_of_serviceAll done (by rw [size]; decide)
  obtain ⟨u, first, second⟩ := andThen_eq_next done
  rw [serviceAll_singleton] at second
  have first : Taken 0x0004#16 (clearPending s) u := taken_of_takeInterrupt first
  have nativeU : page0Mode u = false := (page0Mode_congr first.cfg (congrArg Sfrs.scr first.sfr)).trans native
  obtain ⟨pointer, -⟩ := first.native native
  obtain ⟨-, low', high', old'⟩ := (taken_of_takeInterrupt second).native nativeU
  rw [pointer] at low' high' old'
  have slot : ∀ j, s.ssp - (6#16 + j) = s.ssp - 6#16 - j := fun j => by bv_omega
  refine ⟨t, run.trans done, all.ssp, newPsw, newPc, low, high native, size ▸ old, ?low', ?high', ?old', all.outside⟩
  case low' => exact (congrArg _ (slot 2#16)).trans (low'.trans (by rw [first.newPc, addrLow_page0]; rfl))
  case high' => exact (congrArg _ (slot 4#16)).trans (high'.trans (by rw [first.newPc, addrHigh_page0]; rfl))
  case old' => exact (congrArg _ (slot 6#16)).trans (old'.trans first.newPsw)

end Sys2Proof.Machine

/-! What a boundary with an exception pending does not depend on (60_exceptions.md R131, R190; 92_eei_decisions.md D23,
D30): two runs that differ in the control registers but SCR, and in the shadow. -/

namespace Sys2Proof.Machine

variable {s t : State} {x : Sfrs} {h : Bool}

/-- The state with other control registers and another shadow. -/
def withControls (x : Sfrs) (h : Bool) (s : State) : State := { s with sfr := x, hold := h }

/-- An outcome with other control registers and another shadow. -/
def controlsAfter (x : Sfrs) (h : Bool) (o : Host.Outcome State Fault Refusal) : Host.Outcome State Fault Refusal :=
  andThen o fun t => .next (withControls x h t)

theorem page0Mode_withControls (hx : x.scr = s.sfr.scr) : page0Mode (withControls x h s) = page0Mode s :=
  page0Mode_congr rfl hx

theorem pushSys_withControls (v : Word) (s : State) :
    pushSys v (withControls x h s) = withControls x h (pushSys v s) := by
  unfold pushSys
  dsimp only
  rw [apply_ite (withControls x h)]
  rfl

theorem pushFrame_withControls (hx : x.scr = s.sfr.scr) (ret : CodeAddr) :
    pushFrame ret (withControls x h s) = withControls x h (pushFrame ret s) := by
  have old : psw (withControls x h s) = psw s := rfl
  cases hz : page0Mode s <;> simp [pushFrame, page0Mode_withControls hx, hz, pushSys_withControls, old]

theorem service_withControls (hx : x.scr = s.sfr.scr) (va : Word) (ret : CodeAddr) :
    service va ret (withControls x h s) = controlsAfter x h (service va ret s) := by
  have pointer : (withControls x h s).ssp = s.ssp := rfl
  have code : codeRead16 (withControls x h s) (va + 2#16) = codeRead16 s (va + 2#16) := rfl
  rcases service_cases s va ret with ⟨even, aligned, e⟩ | ⟨odd, e⟩ | ⟨even, odd, e⟩ <;> rw [e]
  · rw [service_of_even (by rw [pointer, even]) (by rw [code, aligned]), pushFrame_withControls hx]
    rfl
  · exact service_of_odd_pointer (s := withControls x h s) odd va ret
  · exact service_of_odd_target (s := withControls x h s) even odd ret

theorem traceAfter_withControls (s t : State) :
    traceAfter .sequence (withControls x h s) (withControls x h t) = withControls x h (traceAfter .sequence s t) := by
  have mode : ∀ u : State, traceMode (withControls x h u) = traceMode u := fun u => traceMode_congr rfl rfl
  have raised : traceRaised .sequence (withControls x h s) (withControls x h t) = traceRaised .sequence s t := by
    simp only [traceRaised, mode]
    rfl
  rw [traceAfter, traceAfter, raised]
  split <;> rfl

theorem takeInterrupt_withControls (hx : x.scr = s.sfr.scr) (va : Word) :
    takeInterrupt va (withControls x h s) = controlsAfter x h (takeInterrupt va s) := by
  have seq : service va (withControls x h s).pc (withControls x h s) = controlsAfter x h (service va s.pc s) :=
    service_withControls hx va s.pc
  rw [takeInterrupt, seq, takeInterrupt]
  cases service va s.pc s with
  | next t => exact congrArg Host.Outcome.next (traceAfter_withControls s t)
  | fault r => rfl
  | refused r => rfl

/-- A sequence leaves SCR, so the next one too finds the same mode in the two runs. -/
theorem serviceAll_withControls (hx : x.scr = s.sfr.scr) (es : List Exc) :
    serviceAll es (withControls x h s) = controlsAfter x h (serviceAll es s) := by
  induction es generalizing s with
  | nil => rfl
  | cons e es ih =>
    rw [serviceAll, serviceAll, takeInterrupt_withControls hx]
    cases first : takeInterrupt (excVector e) s with
    | next t => exact ih (hx.trans (congrArg Sfrs.scr (taken_of_takeInterrupt first).sfr).symm)
    | fault r => rfl
    | refused r => rfl

/-- Settles O48, by the sequences of the pending exceptions in the two runs. -/
theorem exceptionsAreNotMaskable : Obligations.ExceptionsAreNotMaskable := by
  intro s x h hp hr hx
  have run : cpuStep (withControls x h s) = controlsAfter x h (cpuStep s) := by
    rw [cpuStep_of_pending hr hp, ← serviceAll_withControls (s := clearPending s) hx]
    exact cpuStep_of_pending hr hp
  refine Eq.trans run ?_
  cases cpuStep s <;> rfl

end Sys2Proof.Machine

/-! The states from which the machine goes on (60_exceptions.md R190; 70_reset_and_hazards.md R230). -/

namespace Sys2Proof.Machine

variable {s t : State} {i : Instr}

theorem fetchBytes_congr (cfg : t.cfg = s.cfg) (code : t.code = s.code) (pc : t.pc = s.pc)
    (scr : t.sfr.scr = s.sfr.scr) (n : Nat) : fetchBytes t n = fetchBytes s n := by
  have next : ∀ k, nextPc t k = nextPc s k := fun k => by rw [nextPc, nextPc, pc, modeAddr_congr cfg scr]
  simp only [fetchBytes, next, codeByte_congr code]

/-- A state is ready by its configuration, its code, the pc, SSP, PSWH and SCR. -/
theorem Ready.congr (h : Ready s) (cfg : t.cfg = s.cfg) (code : t.code = s.code) (pc : t.pc = s.pc)
    (ssp : t.ssp = s.ssp) (pswh : t.pswh = s.pswh) (scr : t.sfr.scr = s.sfr.scr) : Ready t where
  noFault := by rw [cfg]; exact h.noFault
  stack := by rw [ssp, h.stack]
  vectors va hva := by rw [codeRead16_congr code, h.vectors va hva]
  instr := by
    rw [instrReady, fetchBytes_congr cfg code pc scr, cfg, systemMode_congr pswh]
    exact h.instr

/-- No move of the environment makes a state unready. -/
theorem Ready.takeInputs (h : Ready s) : Ready (takeInputs s) := by
  refine takeInputs_induction (P := Ready) (fun m u hu => ?_) (fun u _ hu => hu.congr rfl rfl rfl rfl rfl rfl) h
  have frame := envMove_frame u m
  have scr : (envMove m u).sfr.scr = u.sfr.scr := sfrGet_envMove_ne u m (r := .scr) (by decide)
  exact hu.congr (congrArg State.cfg frame :) (congrArg State.code frame :) (congrArg State.pc frame :)
    (congrArg State.ssp frame :) (congrArg State.pswh frame :) scr

theorem sfrWrite_of_noFault (h : s.cfg.userPswhWrite ≠ .fault) (r : Sfr) (v : Byte) :
    ∃ t, sfrWrite r v s = .next t := by
  rcases sfrWrite_cases s r v with ⟨_, e⟩ | ⟨_, _, e⟩ | ⟨_, _, _, e⟩ | ⟨_, _, _, _, _, e⟩ | ⟨_, _, _, stops, _⟩
  · exact ⟨_, e⟩
  · exact ⟨_, e⟩
  · exact ⟨_, e⟩
  · exact ⟨_, e⟩
  · exact absurd stops h

/-- Of a ready state every instruction of the spec completes, RESET in System Mode. -/
theorem exec_of_ready (h : Ready s) (hw : wellFormed s.cfg i = true) (hr : i = .reset → systemMode s = true) :
    ∃ t, exec i s = .next t := by
  rcases writtenByte_of_wellFormed s hw with rfl | rfl | ⟨n, rfl⟩ | rfl | rfl | ⟨r, v, written⟩
  · exact ⟨_, exec_nop s⟩
  · exact ⟨_, exec_bkpt s⟩
  · exact ⟨_, service_of_even h.stack (vectorsEven_trap h.vectors n)⟩
  · exact ⟨_, exec_reset_systemMode (hr rfl)⟩
  · cases hm : systemMode s with
    | true => exact ⟨_, exec_reti_of_even hm h.stack⟩
    | false => exact ⟨_, exec_reti_userMode hm⟩
  · obtain ⟨f, -, run, -⟩ := exec_of_writtenByte s written
    obtain ⟨u, e⟩ := sfrWrite_of_noFault h.noFault r v
    exact ⟨_, by rw [run, e, andThen_next]⟩

/-- A ready state takes a CPU step: reset, the pending exceptions, a maskable interrupt or the instruction. -/
theorem cpuStep_of_ready (h : Ready s) : ∃ t, cpuStep s = .next t := by
  by_cases hr : s.pending.reset = true
  · obtain ⟨t, e⟩ := doReset_of_even (vectorsEven_exc h.vectors .reset)
    exact ⟨t, by rw [cpuStep, if_pos hr, e]⟩
  by_cases hp : s.pending = Pending.empty
  · cases ha : acceptable s with
    | some m =>
      rw [cpuStep_of_acceptable hp ha]
      exact acceptMaskable_of_even h.stack (vectorsEven_maskable h.vectors m)
    | none =>
      obtain ⟨i, rest, hd, hw, reset⟩ := h.instr
      obtain ⟨u, e⟩ := exec_of_ready h hw reset
      exact ⟨_, by rw [cpuStep_of_quiet hp ha, runInstr_of_wellFormed hd hw, e, finish, andThen_next]⟩
  · rw [cpuStep_of_pending (Bool.eq_false_iff.2 hr) hp]
    exact serviceAll_of_even h.stack fun e _ => vectorsEven_exc h.vectors e

/-- Settles O60: the environment's moves leave a ready state ready. -/
theorem readyStatesStep : Obligations.ReadyStatesStep := fun _ h => cpuStep_of_ready h.takeInputs

end Sys2Proof.Machine

/-! The reset sequence (70_reset_and_hazards.md R220) at a boundary, and its sources (10_state.md R54; D17). -/

namespace Sys2Proof.Machine

variable {s t : State}

/-- A boundary with Reset pending is the reset sequence, whatever else is pending. -/
theorem cpuStep_of_pending_reset (hp : s.pending.reset = true) : cpuStep s = doReset s := if_pos hp

theorem doReset_of_odd (h : isOdd (codeRead16 s 0x0002#16) = true) : doReset s = .refused .oddVectorTarget := if_pos h

/-- Reset leaves EA and every enable 0. -/
theorem sfrGet_enables_of_doReset (h : doReset s = .next t) : sfrGet .iel t = 0#8 ∧ sfrGet .ieh t = 0#8 := by
  obtain ⟨-, -, -, -, -, -, -, -, sfrs, -⟩ := doReset_eq_next h
  constructor <;> simp only [sfrGet, sfrs, resetSfrs]

/-- Releasing RST and the watchdog's overflow do to a state what the instruction RESET does in System Mode. -/
theorem envMove_rstRelease : envMove .rstRelease s = raise .reset s := rfl

theorem envMove_watchdogReset : envMove .watchdogReset s = raise .reset s := rfl

/-- Settles O49: with Reset pending the boundary is the reset sequence, and each source does no more than raise Reset. -/
theorem resetSequence : Obligations.ResetSequence := by
  refine ⟨fun s hp => ⟨fun even => ?completes, fun odd => ?refused⟩, fun s t hm run => ?sources⟩
  case completes =>
    obtain ⟨t, run⟩ := doReset_of_even even
    obtain ⟨-, cfg, newPsw, newPc, ssp, usp, -, -, -, empty, code, data, inputs, supplied, -⟩ := doReset_eq_next run
    obtain ⟨iel, ieh⟩ := sfrGet_enables_of_doReset run
    have zero : ∀ r ∈ .iel :: .ieh :: ipaSfrs, sfrGet r t = 0#8 :=
      List.forall_mem_cons.2 ⟨iel, List.forall_mem_cons.2 ⟨ieh, fun _ hr => sfrGet_ipa_of_doReset run hr⟩⟩
    exact ⟨t, by rw [cpuStep_of_pending_reset hp, run], empty, ssp, usp, newPsw, newPc, zero, dataByte_congr data,
      codeByte_congr code, cfg, inputs, supplied⟩
  case refused => rw [cpuStep_of_pending_reset hp, doReset_of_odd odd]
  case sources =>
    obtain rfl : raise .reset s = t := Host.Outcome.next.inj ((exec_reset_systemMode hm).symm.trans run)
    exact ⟨by rw [envMove_rstRelease], by rw [envMove_rstRelease, envMove_watchdogReset]⟩

end Sys2Proof.Machine
